-- ==== Sys2Proof/Word.lean ====
section
/-! DEFINITION. The widths of the codec core: a 32-bit word, an 8-bit element, a 40-bit weight, a 9-bit node index. -/

namespace Sys2Proof

/-- A register and one host access: `WORD = 32` bits (R8). -/
abbrev Word := BitVec 32

/-- A buffer element and a Symbol: `SYM_BITS = 8` bits (R8, R15). -/
abbrev Byte := BitVec 8

/-- The weight of a tree node: `WEIGHT_W = 40` bits (R8, R39). -/
abbrev Weight := BitVec 40

/-- A child index of a tree node: 9 bits (R39). -/
abbrev NodeIx := BitVec 9

end Sys2Proof
end

