-- ==== Sys2Proof/Config.lean ====
section
/-! DEFINITION. What an implementation fixes (the two buffer capacities) and the free values of HAM.NOISE. -/

namespace Sys2Proof

/-- The open parameters of R9: how many elements the input and the output buffer hold.
They are arguments of the model, carried by every state and changed by no step (log entry 2). -/
structure Config where
  ibufCap : Nat
  obufCap : Nat
  deriving DecidableEq, Repr

/-- DESIGN CHOICE (log entry 2): the capacities of the machine `State.reset` describes.
R9 leaves them open; 4096 is the least the spec's own test vectors assume. -/
def Config.atReset : Config := { ibufCap := 4096, obufCap := 4096 }

/-- The free values of HAM.NOISE (R231, log entry 4): draw number `i` of the machine's life.
It has no body, so nothing can be proved of its values; a position is it modulo the sequence's length. -/
opaque Config.draw : Nat → Nat

end Sys2Proof
end

