-- ==== Sys2Proof/Syntax.lean ====
section
/-! DEFINITION. The fifteen commands of R92, the fields of a command word (R90), and what the host can do (R62, R280). -/

namespace Sys2Proof

/-- The commands, one per row of the opcode table (R92). None has an operand field (R93). -/
inductive Instr where
  | sysNop
  | sysMov
  | packPack
  | packUnpack
  | hufFreq
  | hufTree
  | hufCodes
  | hufEnc
  | hufDec
  | hamCalcr
  | hamEncb
  | hamDecb
  | hamEnc
  | hamDec
  | hamNoise
  deriving DecidableEq, Repr

/-- The three fields of the one command format `C` (R90). -/
structure CmdFields where
  zero : BitVec 24
  unit : BitVec 4
  fn   : BitVec 4
  deriving DecidableEq, Repr

/-- Everything the host can do to the hardware (R62, R280): one 32-bit access, or reset.
`space` is a space id of R60, `index` a word index. -/
inductive HostAction where
  | read (space index : Nat)
  | write (space index : Nat) (v : Word)
  | reset
  deriving DecidableEq, Repr

end Sys2Proof
end

