-- ==== Sys2Proof/WellFormed.lean ====
section
/-! DEFINITION. The checks on syntax: the fields of a command word (R90 to R94) and the open parameters (R9). -/

namespace Sys2Proof

/-- How many functions a unit has (R92); 0 for the units 4 to 15, which do not exist (R94). -/
def fnCount (unit : BitVec 4) : Nat :=
  match unit.toNat with
  | 0 => 2
  | 1 => 2
  | 2 => 5
  | 3 => 6
  | _ => 0

/-- `ZERO` must be 0 (R90). -/
def CmdFields.zeroOk (f : CmdFields) : Bool := f.zero == 0

/-- `UNIT` is one of SYS, PACK, HUF, HAM (R90). -/
def CmdFields.unitOk (f : CmdFields) : Bool := decide (f.unit.toNat < 4)

/-- `FN` is a function the unit has (R92, R94). -/
def CmdFields.fnOk (f : CmdFields) : Bool := decide (f.fn.toNat < fnCount f.unit)

/-- The fields of a legal command word (R91). -/
def CmdFields.wf (f : CmdFields) : Bool := f.zeroOk && f.unitOk && f.fnOk

/-- A command has no operand (R93), so every constructor of `Instr` is well formed. -/
abbrev Instr.WellFormed (_ : Instr) : Prop := True

/-- `1 <= IBUF_CAP < 2^32` (R9). -/
def Config.ibufOk (c : Config) : Bool := decide (1 ≤ c.ibufCap) && decide (c.ibufCap < 2 ^ 32)

/-- `1 <= OBUF_CAP < 2^32` (R9). -/
def Config.obufOk (c : Config) : Bool := decide (1 ≤ c.obufCap) && decide (c.obufCap < 2 ^ 32)

/-- The open parameters are in their range (R9). -/
def Config.wf (c : Config) : Bool := c.ibufOk && c.obufOk

end Sys2Proof
end

