-- ==== Sys2Proof/Decode.lean ====
section
/-! DEFINITION. The decoder of the 32-bit command word, total and refusing by name, and the encoder (R90 to R95). -/

namespace Sys2Proof

/-- Why a word is illegal (R94): a nonzero `ZERO` field, a unit that does not exist, a function the unit has not. -/
inductive IllegalWord where
  | zeroFieldNonzero
  | unknownUnit
  | unknownFunction
  deriving DecidableEq, Repr

/-- What the decoder answers: a command, or the reason there is none (R91). -/
inductive Decoded where
  | ok (i : Instr)
  | illegal (why : IllegalWord)
  deriving DecidableEq, Repr

/-- The fields of a written word (R90): `ZERO` = w[31:8], `UNIT` = w[7:4], `FN` = w[3:0]. -/
def cmdFields (w : Word) : CmdFields :=
  { zero := w.extractLsb' 8 24, unit := w.extractLsb' 4 4, fn := w.extractLsb' 0 4 }

/-- The opcode map of R92, by unit and function; every other pair is illegal (R94). -/
def decodeOp (unit fn : Nat) : Decoded :=
  match unit with
  | 0 => match fn with
    | 0 => .ok .sysNop
    | 1 => .ok .sysMov
    | _ => .illegal .unknownFunction
  | 1 => match fn with
    | 0 => .ok .packPack
    | 1 => .ok .packUnpack
    | _ => .illegal .unknownFunction
  | 2 => match fn with
    | 0 => .ok .hufFreq
    | 1 => .ok .hufTree
    | 2 => .ok .hufCodes
    | 3 => .ok .hufEnc
    | 4 => .ok .hufDec
    | _ => .illegal .unknownFunction
  | 3 => match fn with
    | 0 => .ok .hamCalcr
    | 1 => .ok .hamEncb
    | 2 => .ok .hamDecb
    | 3 => .ok .hamEnc
    | 4 => .ok .hamDec
    | 5 => .ok .hamNoise
    | _ => .illegal .unknownFunction
  | _ => .illegal .unknownUnit

/-- Decoding (R91): it reads nothing but the word (R95). -/
def decode (w : Word) : Decoded :=
  let f := cmdFields w
  if f.zero ≠ 0 then .illegal .zeroFieldNonzero else decodeOp f.unit.toNat f.fn.toNat

/-- `UNIT` of a command (R92). -/
def unitOf : Instr → BitVec 4
  | .sysNop | .sysMov => 0
  | .packPack | .packUnpack => 1
  | .hufFreq | .hufTree | .hufCodes | .hufEnc | .hufDec => 2
  | .hamCalcr | .hamEncb | .hamDecb | .hamEnc | .hamDec | .hamNoise => 3

/-- `FN` of a command (R92). -/
def fnOf : Instr → BitVec 4
  | .sysNop | .packPack | .hufFreq | .hamCalcr => 0
  | .sysMov | .packUnpack | .hufTree | .hamEncb => 1
  | .hufCodes | .hamDecb => 2
  | .hufEnc | .hamEnc => 3
  | .hufDec | .hamDec => 4
  | .hamNoise => 5

/-- The word of a command (R90, R92). -/
def encode (i : Instr) : Word := (0 : BitVec 24) ++ unitOf i ++ fnOf i

/-- The word the opcode table numbers: `nbits` bits of `w`, every bit above them 0.
One command is one 32-bit word, so there is no layout of words or bytes to undo (R66, R90). -/
def tableWord (nbits w : Nat) : Word := BitVec.ofNat 32 (w % 2 ^ nbits)

/-- What the decoder reads from a row's bits, numbered as the opcode table numbers them. -/
def decodeTableWord (nbits w : Nat) : Option Instr :=
  match decode (tableWord nbits w) with
  | .ok i => some i
  | .illegal _ => none

end Sys2Proof
end

