-- ==== Sys2Proof/Machine/State.lean ====
section
/-! DEFINITION. The state of the codec core as plain data (10_state.md), the reasons a step stops, and reset (R42). -/

namespace Sys2Proof.Machine

/-- One entry of CWT (R38). `CODE[i]` is bit `255 - i` of `code`, so that the vector reads MSB first. -/
structure CwEntry where
  len  : BitVec 8
  code : BitVec 256
  deriving DecidableEq, Repr

/-- One entry of NODE (R39). -/
structure Node where
  leaf   : Bool
  sym    : Byte
  left   : NodeIx
  right  : NodeIx
  weight : Weight
  deriving DecidableEq, Repr

/-- A tree node as the functions of 42_huffman.md see it (R140), weights and indices exact naturals (R11). -/
inductive HNode where
  | leaf (sym : Byte) (weight : Nat)
  | internal (left right : Nat) (weight : Nat)
  deriving DecidableEq, Repr

/-- The result codes of `STATUS.ERR` (R241). -/
inductive ErrCode where
  | ok
  | unknownSymbol
  | configMismatch
  | illegalCmd
  | badOperand
  | capacity
  deriving DecidableEq, Repr

/-- Why the machine stops. The hardware itself never does: every error is a `STATUS` code (R240). -/
inductive Fault where
  /-- Raised by HUF.CODES alone, in a state whose NODE memory is no tree. Only the hardware writes NODE, so no
  state reached from reset raises it (R39, R43, R151). Safe: the model stops where no rule gives an effect (log entry 5). -/
  | malformedTree
  deriving DecidableEq, Repr

/-- Why an instruction has no meaning. -/
inductive Refusal where
  /-- Raised by an arm of `exec` whose instruction the model does not give. No arm raises it now. Safe. -/
  | notModelled (mnemonic : String)
  deriving DecidableEq, Repr

/-- The machine. `CMD` has no field because it stores nothing (R23). Memories list only what differs from the
value an unlisted index reads as, which is the reset value 0 (R42); see `memWf` in Ops. -/
structure State where
  /-- `STATUS` (R25). -/
  status : Word
  /-- `CFG_K`, the Hamming data block size (R24). -/
  cfgK : Word
  /-- `ARG`, the scalar operand (R26). -/
  arg : Word
  /-- `ILEN`, valid elements of IBUF (R27). -/
  ilen : Word
  /-- `OLEN`, valid elements of OBUF (R28). -/
  olen : Word
  /-- `BITLEN`, meaningful bits of packed bytes (R29). -/
  bitlen : Word
  /-- `RES`, scalar result (R30). -/
  res : Word
  /-- `NNODES`, valid entries of NODE (R31). -/
  nnodes : Word
  /-- `ROOT`, index of the root (R32). -/
  root : Word
  /-- `IBUF` (R35). -/
  ibuf : List Host.Cell
  /-- `OBUF`, the elements at and above `OLEN` included (R36). -/
  obuf : List Host.Cell
  /-- `FREQ` (R37). -/
  freq : List (Nat × Word)
  /-- `CWT` (R38). -/
  cwt : List (Nat × CwEntry)
  /-- `NODE`, the entries at and above `NNODES` included (R39). -/
  node : List (Nat × Node)
  /-- The model's own: the capacities, parameters of R9 that no step changes (log entry 2). -/
  cfg : Config
  /-- The model's own: what the host will do, oldest first (log entry 1). -/
  pending : List HostAction
  /-- The model's own: what the last `MemRead` returned to the host (log entry 3). -/
  hostData : Word
  /-- The model's own: how many draws HAM.NOISE has made (log entry 4). -/
  draws : Nat
  deriving DecidableEq, Repr

/-- The machine of the given capacities right after reset: every register and every memory 0 (R42, R280). -/
def State.resetWith (c : Config) : State :=
  { status := 0, cfgK := 0, arg := 0, ilen := 0, olen := 0, bitlen := 0, res := 0, nnodes := 0, root := 0,
    ibuf := [], obuf := [], freq := [], cwt := [], node := [],
    cfg := c, pending := [], hostData := 0, draws := 0 }

/-- The machine right after reset (R42), with nothing for the host to do yet. -/
def State.reset : State := State.resetWith Config.atReset

/-- What the next host action comes to: nothing to do, a finished access, or a command to execute. -/
inductive Fetched where
  | idle
  | done (s : State)
  | command (i : Instr) (s : State)
  deriving DecidableEq, Repr

end Sys2Proof.Machine
end

