-- ==== Sys2Proof/Machine/Flags.lean ====
section
/-! DEFINITION. The fields of `STATUS` (R25) and the value a command writes to it. -/

namespace Sys2Proof.Machine

/-- The number of an error code (R241). -/
def errNum : ErrCode → BitVec 4
  | .ok => 0
  | .unknownSymbol => 1
  | .configMismatch => 2
  | .illegalCmd => 3
  | .badOperand => 4
  | .capacity => 5

/-- Sub-cause 1 of UNKNOWN_SYMBOL: the leftover bits begin a codeword (R155, R242). -/
def subTruncated : BitVec 2 := 1

/-- Sub-cause 2 of UNKNOWN_SYMBOL: the leftover bits begin no codeword (R155, R242). -/
def subDeadEnd : BitVec 2 := 2

/-- The whole of `STATUS` (R25): reserved 0, `SUB` [7:6], `SYNRANGE` [5], `ERRDET` [4], `ERR` [3:0]. -/
def statusWord (e : ErrCode) (errdet synrange : Bool) (sub : BitVec 2) : Word :=
  (0 : BitVec 24) ++ sub ++ BitVec.ofBool synrange ++ BitVec.ofBool errdet ++ errNum e

/-- `STATUS.ERR` (R25). -/
def statusErr (w : Word) : BitVec 4 := w.extractLsb' 0 4

/-- `STATUS.ERRDET` (R25). -/
def statusErrdet (w : Word) : Bool := w.getLsbD 4

/-- `STATUS.SYNRANGE` (R25). -/
def statusSynrange (w : Word) : Bool := w.getLsbD 5

/-- `STATUS.SUB` (R25). -/
def statusSub (w : Word) : BitVec 2 := w.extractLsb' 6 2

/-- `STATUS[31:8]`, reserved (R25). -/
def statusReserved (w : Word) : BitVec 24 := w.extractLsb' 8 24

end Sys2Proof.Machine
end

