-- ==== Sys2Proof/Machine/Ops.lean ====
section
/-! DEFINITION. The named operations: memories as canonical lists, and the frames every command ends in (R112, R113, R250). -/

namespace Sys2Proof.Machine

/-- One entry of a memory; `d` is what an unlisted index reads as. -/
def memRead {β : Type} (d : β) : List (Nat × β) → Nat → β
  | [], _ => d
  | (b, v) :: t, a => if b = a then v else memRead d t a

/-- A memory without its entry at `a`. -/
def memErase {β : Type} (m : List (Nat × β)) (a : Nat) : List (Nat × β) := m.filter fun c => decide (c.1 ≠ a)

/-- Place an entry before the first one of a greater index. -/
def memInsert {β : Type} (a : Nat) (v : β) : List (Nat × β) → List (Nat × β)
  | [] => [(a, v)]
  | (b, w) :: t => if b < a then (b, w) :: memInsert a v t else (a, v) :: (b, w) :: t

/-- Store one entry and keep the canonical form: storing `d` removes the entry. -/
def memWrite {β : Type} [DecidableEq β] (d : β) (m : List (Nat × β)) (a : Nat) (v : β) : List (Nat × β) :=
  if v = d then memErase m a else memInsert a v (memErase m a)

/-- Store a sequence at `base`, `base + 1`, ... (R67). -/
def memWriteSeq {β : Type} [DecidableEq β] (d : β) (m : List (Nat × β)) (base : Nat) : List β → List (Nat × β)
  | [] => m
  | v :: vs => memWriteSeq d (memWrite d m base v) (base + 1) vs

/-- The first `n` entries, from index 0 upward (R67). -/
def memSeq {β : Type} (d : β) (m : List (Nat × β)) (n : Nat) : List β :=
  (List.range n).map (memRead d m)

/-- The memory whose entries `0 .. n-1` are `f 0 .. f (n-1)` and whose others read as `d`. -/
def memTable {β : Type} [DecidableEq β] (d : β) (n : Nat) (f : Nat → β) : List (Nat × β) :=
  (List.range n).filterMap fun i => if f i = d then none else some (i, f i)

/-- The canonical form of a memory of `bound` entries, from the index `lo` on: indices strictly rising and below
`bound`, no entry equal to what an unlisted index reads as. -/
def memWfFrom {β : Type} [DecidableEq β] (d : β) (bound : Nat) : Nat → List (Nat × β) → Bool
  | _, [] => true
  | lo, (a, v) :: t => decide (lo ≤ a) && decide (a < bound) && decide (v ≠ d) && memWfFrom d bound (a + 1) t

/-- The canonical form of a memory of `bound` entries. -/
def memWf {β : Type} [DecidableEq β] (d : β) (bound : Nat) (m : List (Nat × β)) : Bool := memWfFrom d bound 0 m

/-- What an unwritten CWT entry reads as: absent, `CODE` all 0 (R42). -/
def cwEmpty : CwEntry := { len := 0, code := 0 }

/-- What an unwritten NODE entry reads as: all fields 0 (R42). -/
def nodeEmpty : Node := { leaf := false, sym := 0, left := 0, right := 0, weight := 0 }

/-- `IBUF[i]` as stored (R35). -/
def ibufAt (s : State) (i : Nat) : Byte := memRead 0 s.ibuf i

/-- `OBUF[i]` as stored, unmasked (R36). -/
def obufAt (s : State) (i : Nat) : Byte := memRead 0 s.obuf i

/-- `FREQ[i]` (R37). -/
def freqAt (s : State) (i : Nat) : Word := memRead 0 s.freq i

/-- `CWT[i]` (R38). -/
def cwtAt (s : State) (i : Nat) : CwEntry := memRead cwEmpty s.cwt i

/-- `NODE[i]` as stored, unmasked (R39). -/
def nodeAt (s : State) (i : Nat) : Node := memRead nodeEmpty s.node i

/-- The failure frame (R250): `STATUS` holds the error and its sub-cause, `RES` and `OLEN` are 0, and nothing else
changes. It is the hardware's whole "taking an exception"; there is no return from one (R251). -/
def failFrame (e : ErrCode) (sub : BitVec 2) (s : State) : State :=
  { s with status := statusWord e false false sub, res := 0, olen := 0 }

/-- `fail E(sub)` (R110, R250). -/
def failWith (e : ErrCode) (sub : BitVec 2) (s : State) : Host.Outcome State Fault Refusal :=
  .next (failFrame e sub s)

/-- The success frame (R112): `out` to OBUF from index 0, `OLEN`, `RES` (32 bits, R119) and `STATUS`. -/
def successFrame (out : List Byte) (res : Nat) (errdet synrange : Bool) (s : State) : State :=
  { s with
    obuf := memWriteSeq 0 s.obuf 0 out
    olen := BitVec.ofNat 32 out.length
    res := BitVec.ofNat 32 res
    status := statusWord .ok errdet synrange 0 }

/-- Steps 5 and 6 of R110: the capacity check (R113), then the success frame over the command's own writes.
`s` is the state before the step, `t` is `s` with the command's own writes. -/
def finish (s t : State) (out : List Byte) (res : Nat) (errdet synrange : Bool) :
    Host.Outcome State Fault Refusal :=
  if s.cfg.obufCap < out.length then failWith .capacity 0 s
  else .next (successFrame out res errdet synrange t)

/-- The input-length check fails: `ILEN > IBUF_CAP` (R111). -/
def inputTooLong (s : State) : Bool := decide (s.cfg.ibufCap < s.ilen.toNat)

/-- What reset does to a running machine (R280, R42): every register and memory 0. The capacities, and what is the
host's own (its actions to come, the value it read last, the draws made), are not the hardware's state. -/
def hardwareReset (s : State) : State :=
  { State.resetWith s.cfg with pending := s.pending, hostData := s.hostData, draws := s.draws }

end Sys2Proof.Machine
end

