-- ==== Sys2Proof/Machine/Operands.lean ====
section
/-! DEFINITION. The implicit operands of the commands (R93): the buffers as symbols or bits, the tables as functions. -/

namespace Sys2Proof.Machine

/-- The bit an element carries (R15): bit 0, the upper seven ignored. -/
def bitOf (e : Byte) : Bool := e.getLsbD 0

/-- The element a command writes for a bit (R15): 0x00 or 0x01. -/
def bitElem (b : Bool) : Byte := if b then 1 else 0

/-- `symsOf(IBUF)` (R15): the first `ILEN` elements. -/
def symsOf (s : State) : List Byte := memSeq 0 s.ibuf s.ilen.toNat

/-- `bitsOf(IBUF)` (R15): the bits of the first `ILEN` elements. -/
def bitsOf (s : State) : List Bool := (symsOf s).map bitOf

/-- `[OBUF[0], ..., OBUF[OLEN-1]]` (R36): the output sequence the host can read. -/
def outputOf (s : State) : List Byte := memSeq 0 s.obuf s.olen.toNat

/-- The frequency table held in FREQ, as a function on symbol values (R140). -/
def freqTableOf (s : State) (sym : Nat) : Nat := (freqAt s sym).toNat

/-- The codeword of a CWT entry (R38): `[CODE[0], ..., CODE[LEN-1]]`, empty when `LEN = 0` (absent). -/
def codewordOf (e : CwEntry) : List Bool := (List.range e.len.toNat).map fun i => e.code.getLsbD (255 - i)

/-- The codeword table held in CWT, as a function on symbol values (R140, R156). -/
def codeTableOf (s : State) (sym : Nat) : List Bool := codewordOf (cwtAt s sym)

/-- A bit string as a natural, its first bit the most significant. -/
def bitsToNat (b : List Bool) : Nat := b.foldl (fun acc x => 2 * acc + x.toNat) 0

/-- The CWT entry of a codeword (R151): `CODE[i]` is its bit `i`, and 0 from `LEN` on. -/
def cwEntryOf (b : List Bool) : CwEntry :=
  { len := BitVec.ofNat 8 b.length, code := BitVec.ofNat 256 (bitsToNat b * 2 ^ (256 - b.length)) }

/-- A tree node as NODE stores it (R39, R146). -/
def nodeOf : HNode → Node
  | .leaf s w => { leaf := true, sym := s, left := 0, right := 0, weight := BitVec.ofNat 40 w }
  | .internal a b w =>
    { leaf := false, sym := 0, left := BitVec.ofNat 9 a, right := BitVec.ofNat 9 b, weight := BitVec.ofNat 40 w }

/-- A NODE entry as a tree node (R39). -/
def hnodeOf (n : Node) : HNode :=
  if n.leaf then .leaf n.sym n.weight.toNat else .internal n.left.toNat n.right.toNat n.weight.toNat

/-- `[NODE[0], ..., NODE[NNODES-1]]` (R151). -/
def nodesOf (s : State) : List HNode := (memSeq nodeEmpty s.node s.nnodes.toNat).map hnodeOf

/-- `pb(t)`: bit `t` of a sequence, 0 beyond its end (R120, R200). -/
def bitAt (b : List Bool) (t : Nat) : Bool := b.getD t false

/-- `ceil(a / b)` for `b > 0` (R11). -/
def ceilDiv (a b : Nat) : Nat := (a + b - 1) / b

end Sys2Proof.Machine
end

