-- ==== Sys2Proof/Machine/Hamming.lean ====
section
/-! DEFINITION. The Hamming unit: parity count, positions, block and stream codec, noise, and its six commands (43_hamming.md). -/

namespace Sys2Proof.Machine

/-- The search of R190 from `r`, at most `fuel` further steps. -/
def calcRFrom (k : Nat) : Nat → Nat → Nat
  | 0, r => r
  | fuel + 1, r => if 2 ^ r < k + r + 1 then calcRFrom k fuel (r + 1) else r

/-- `calcR(k)` (R190): the least `r` with `2^r >= k + r + 1`, which is at most `k + 1`. -/
def calcR (k : Nat) : Nat := calcRFrom k (k + 1) 0

/-- The block length `n = k + r` (R191). -/
def blockLen (k : Nat) : Nat := k + calcR k

/-- The positions `1 .. n` of a block (R12, R191). -/
def positions (k : Nat) : List Nat := (List.range (blockLen k)).map (· + 1)

/-- `parPos(k)`: the reserved positions `2^0 .. 2^(r-1)` (R191). -/
def parPos (k : Nat) : List Nat := (List.range (calcR k)).map (2 ^ ·)

/-- `dataPos(k)`: every other position, ascending (R191). -/
def dataPos (k : Nat) : List Nat := (positions k).filter fun p => decide (p ∉ parPos k)

/-- The bit at position `p >= 1` of a block written as a list (R12, R67). -/
def posBit (c : List Bool) (p : Nat) : Bool := bitAt c (p - 1)

/-- `G(i)`: the positions whose bit `i` is set (R191). -/
def checkGroup (k i : Nat) : List Nat := (positions k).filter fun p => p.testBit i

/-- `XOR{ c[p] : p in G(i) }` (R193, R196). -/
def checkXor (k i : Nat) (c : Nat → Bool) : Bool := (checkGroup k i).foldl (fun acc p => acc ^^ c p) false

/-- The block before its parities (R193): data bit `j` at the `j`-th data position, 0 at the reserved ones. -/
def dataLayout (k : Nat) (d : List Bool) (p : Nat) : Bool :=
  match (dataPos k).idxOf? p with
  | some j => bitAt d j
  | none => false

/-- Position `p` of the encoded block (R193): the parity of its group at `2^i`, the data elsewhere. -/
def encodedBit (k : Nat) (d : List Bool) (p : Nat) : Bool :=
  match (parPos k).idxOf? p with
  | some i => checkXor k i (dataLayout k d)
  | none => dataLayout k d p

/-- `encodeBlock(k, d)` (R193). -/
def encodeBlock (k : Nat) (d : List Bool) : List Bool := (positions k).map (encodedBit k d)

/-- `syndrome(k, c)` (R196). -/
def syndrome (k : Nat) (c : List Bool) : Nat :=
  ((List.range (calcR k)).map fun i => (checkXor k i (posBit c)).toNat * 2 ^ i).sum

/-- What `decodeBlock` and `decodeStream` return (R197, R202); `info` is the syndrome, or the count of wrong blocks. -/
structure HamResult where
  data     : List Bool
  errdet   : Bool
  synrange : Bool
  info     : Nat
  deriving DecidableEq, Repr

/-- The bit at position `p` after correction: flipped when `p` is the syndrome (R197). -/
def correctedBit (s : Nat) (c : List Bool) (p : Nat) : Bool := if p = s then !posBit c p else posBit c p

/-- `decodeBlock(k, c)` (R197). A syndrome of 0 or above `n` names no position, so nothing is flipped. -/
def decodeBlock (k : Nat) (c : List Bool) : HamResult :=
  let s := syndrome k c
  { data := (dataPos k).map (correctedBit s c)
    errdet := decide (s ≠ 0)
    synrange := decide (blockLen k < s)
    info := s }

/-- `blk(t)` of R200: `k` bits from `t*k` on, zeros beyond the end. -/
def dataBlock (k : Nat) (b : List Bool) (t : Nat) : List Bool := (List.range k).map fun j => bitAt b (t * k + j)

/-- `code(k, b)` (R200). -/
def codeStream (k : Nat) (b : List Bool) : List Bool :=
  (List.range (ceilDiv b.length k)).flatMap fun t => encodeBlock k (dataBlock k b t)

/-- `c[t*n .. (t+1)*n]` (R202). -/
def codeBlock (k : Nat) (c : List Bool) (t : Nat) : List Bool := (c.drop (t * blockLen k)).take (blockLen k)

/-- The decoded blocks of a stream, in order (R202). -/
def decodedBlocks (k : Nat) (c : List Bool) : List HamResult :=
  (List.range (c.length / blockLen k)).map fun t => decodeBlock k (codeBlock k c t)

/-- `decodeStream(k, c)` (R202). -/
def decodeStream (k : Nat) (c : List Bool) : HamResult :=
  let rs := decodedBlocks k c
  { data := rs.flatMap (·.data)
    errdet := rs.any (·.errdet)
    synrange := rs.any (·.synrange)
    info := rs.countP (·.errdet) }

/-- `noise(b, pos)` (R230). -/
def noise (b : List Bool) (pos : List Nat) : List Bool :=
  (List.range b.length).map fun t => bitAt b t ^^ decide (pos.count t % 2 = 1)

/-- The positions HAM.NOISE draws (R231): free values in `0 .. L-1`, none when `L = 0` (R230). -/
def drawPositions (first count len : Nat) : List Nat :=
  if len = 0 then [] else (List.range count).map fun j => Config.draw (first + j) % len

/-- `HAM.CALCR` (R192). -/
def execHamCalcr (s : State) : Host.Outcome State Fault Refusal := finish s s [] (calcR s.arg.toNat) false false

/-- `HAM.ENCB` (R195, R204). -/
def execHamEncb (s : State) : Host.Outcome State Fault Refusal :=
  let k := s.cfgK.toNat
  if inputTooLong s then failWith .badOperand 0 s
  else if k = 0 ∨ s.ilen.toNat ≠ k then failWith .configMismatch 0 s
  else finish s s ((encodeBlock k (bitsOf s)).map bitElem) (calcR k) false false

/-- `HAM.DECB` (R198, R204). -/
def execHamDecb (s : State) : Host.Outcome State Fault Refusal :=
  let k := s.cfgK.toNat
  if inputTooLong s then failWith .badOperand 0 s
  else if k = 0 ∨ s.ilen.toNat ≠ blockLen k then failWith .configMismatch 0 s
  else
    let r := decodeBlock k (bitsOf s)
    finish s s (r.data.map bitElem) r.info r.errdet r.synrange

/-- `HAM.ENC` (R201, R204). The length `nb * n` is compared before the blocks are made, on naturals. -/
def execHamEnc (s : State) : Host.Outcome State Fault Refusal :=
  let k := s.cfgK.toNat
  let nb := ceilDiv s.ilen.toNat k
  if inputTooLong s then failWith .badOperand 0 s
  else if k = 0 then failWith .configMismatch 0 s
  else if s.cfg.obufCap < nb * blockLen k then failWith .capacity 0 s
  else finish s s ((codeStream k (bitsOf s)).map bitElem) nb false false

/-- `HAM.DEC` (R203, R204). -/
def execHamDec (s : State) : Host.Outcome State Fault Refusal :=
  let k := s.cfgK.toNat
  if inputTooLong s then failWith .badOperand 0 s
  else if k = 0 ∨ s.ilen.toNat % blockLen k ≠ 0 then failWith .configMismatch 0 s
  else
    let r := decodeStream k (bitsOf s)
    finish s s (r.data.map bitElem) r.info r.errdet r.synrange

/-- `HAM.NOISE` (R232). The draws it makes are numbered on from those made before (R231). -/
def execHamNoise (s : State) : Host.Outcome State Fault Refusal :=
  if inputTooLong s then failWith .badOperand 0 s
  else
    let pos := drawPositions s.draws s.arg.toNat s.ilen.toNat
    finish s { s with draws := s.draws + pos.length } ((noise (bitsOf s) pos).map bitElem) 0 false false

end Sys2Proof.Machine
end

