-- ==== Sys2Proof/Machine/Huffman.lean ====
section
/-! DEFINITION. The Huffman unit: frequency table, tree, codewords, serialization, decoding, and its five commands (42_huffman.md). -/

namespace Sys2Proof.Machine

/-- `freq(x)(s)` (R141). -/
def freqOf (x : List Byte) (sym : Nat) : Nat := x.countP fun e => e.toNat == sym

/-- The present symbols of a frequency table in ascending order (R141, R143). -/
def alphabet (F : Nat → Nat) : List Nat := (List.range 256).filter fun sym => decide (0 < F sym)

/-- `m(F)`, the alphabet size (R141). -/
def alphabetSize (F : Nat → Nat) : Nat := (alphabet F).length

/-- The leaves, in ascending order of symbol value (R143). -/
def leavesOf (F : Nat → Nat) : List HNode := (alphabet F).map fun sym => .leaf (BitVec.ofNat 8 sym) (F sym)

/-- The weight of a node (R140). -/
def hnodeWeight : HNode → Nat
  | .leaf _ w => w
  | .internal _ _ w => w

/-- `weight(nodes[i])`; 0 outside the sequence, where R144 never asks. -/
def weightAt (nodes : List HNode) (i : Nat) : Nat :=
  match nodes[i]? with
  | some n => hnodeWeight n
  | none => 0

/-- The pair `(weight(nodes[j]), j)` is smaller than that of `i`, lexicographically (R144). -/
def keyLess (nodes : List HNode) (j i : Nat) : Bool :=
  decide (weightAt nodes j < weightAt nodes i) || (weightAt nodes j == weightAt nodes i && decide (j < i))

/-- The index of smallest key among `i` and the list (R144). -/
def minKey (nodes : List HNode) : Nat → List Nat → Nat
  | i, [] => i
  | i, j :: t => minKey nodes (if keyLess nodes j i then j else i) t

/-- The merging loop of R144, at most `fuel` passes: the two live nodes of smallest key get a parent. -/
def mergeLoop : Nat → List HNode → List Nat → List HNode
  | 0, nodes, _ => nodes
  | _ + 1, nodes, [] => nodes
  | fuel + 1, nodes, i :: rest =>
    let a := minKey nodes i rest
    match (i :: rest).erase a with
    | [] => nodes
    | j :: rest' =>
      let b := minKey nodes j rest'
      mergeLoop fuel (nodes ++ [.internal a b (weightAt nodes a + weightAt nodes b)])
        ((j :: rest').erase b ++ [nodes.length])

/-- `tree(F)` (R143, R144, R145): the loop runs `m - 1` times. -/
def treeOf (F : Nat → Nat) : List HNode :=
  mergeLoop (alphabetSize F - 1) (leavesOf F) (List.range (alphabetSize F))

/-- How deep a walk may go: a leaf lies at depth at most `MAXCW = 255` (R8), so 256 levels. -/
def walkLevels : Nat := 256

/-- `walk(i, path)` of R148, with the levels left: the leaves below `i`, left before right, each with its path.
It ends without a leaf at an index outside the tree or below the last level, where no tree of R43 leads. -/
def walkTree (nodes : List HNode) : Nat → Nat → List Bool → List (Nat × List Bool)
  | 0, _, _ => []
  | fuel + 1, i, path =>
    match nodes[i]? with
    | some (.leaf s _) => [(s.toNat, path)]
    | some (.internal a b _) =>
      walkTree nodes fuel a (path ++ [false]) ++ walkTree nodes fuel b (path ++ [true])
    | none => []

/-- The walk of R148 from `i` ends at leaves only. -/
def walkable (nodes : List HNode) : Nat → Nat → Bool
  | 0, _ => false
  | fuel + 1, i =>
    match nodes[i]? with
    | some (.leaf _ _) => true
    | some (.internal a b _) => walkable nodes fuel a && walkable nodes fuel b
    | none => false

/-- The node sequence is empty or its last node is the root of a tree the walk of R148 terminates on. -/
def treeShaped (nodes : List HNode) : Bool :=
  nodes.isEmpty || walkable nodes walkLevels (nodes.length - 1)

/-- The assignments `codes` makes, in its order (R148); one symbol gets the codeword "0" (R149). -/
def codePairs (nodes : List HNode) : List (Nat × List Bool) :=
  match nodes.getLast? with
  | none => []
  | some (.leaf s _) => [(s.toNat, [false])]
  | some (.internal _ _ _) => walkTree nodes walkLevels (nodes.length - 1) []

/-- The codeword a list of assignments leaves a symbol with; empty when there is none (absent). -/
def lookupCode (pairs : List (Nat × List Bool)) (sym : Nat) : List Bool :=
  match pairs.reverse.find? fun p => p.1 == sym with
  | some p => p.2
  | none => []

/-- `codes(nodes)` (R148): the codeword of each symbol. -/
def codesOf (nodes : List HNode) (sym : Nat) : List Bool := lookupCode (codePairs nodes) sym

/-- The number of symbols a table has a codeword for (R151). -/
def presentCount (T : Nat → List Bool) : Nat := ((List.range 256).filter fun sym => decide (T sym ≠ [])).length

/-- `serialize(T, x)` (R152). -/
def serialize (T : Nat → List Bool) (x : List Byte) : List Bool := x.flatMap fun e => T e.toNat

/-- `min M` of R154: the smallest symbol whose codeword is the accumulator. -/
def matchSymbol (T : Nat → List Bool) (acc : List Bool) : Option Nat :=
  (List.range 256).find? fun sym => decide (T sym ≠ []) && decide (T sym = acc)

/-- The loop of R154: the leftover accumulator and the symbols emitted. -/
def decodeLoop (T : Nat → List Bool) : List Bool → List Bool → List Byte → List Bool × List Byte
  | [], acc, out => (acc, out)
  | b :: bits, acc, out =>
    match matchSymbol T (acc ++ [b]) with
    | some sym => decodeLoop T bits [] (out ++ [BitVec.ofNat 8 sym])
    | none => decodeLoop T bits (acc ++ [b]) out

/-- The sub-cause of a leftover accumulator (R155). -/
def leftoverCause (T : Nat → List Bool) (acc : List Bool) : BitVec 2 :=
  if (List.range 256).any fun sym => decide (T sym ≠ []) && acc.isPrefixOf (T sym) then subTruncated else subDeadEnd

/-- `decode(bits, T)` (R154, R155): the symbols, or the sub-cause of UNKNOWN_SYMBOL. -/
def decodeBits (T : Nat → List Bool) (bits : List Bool) : Except (BitVec 2) (List Byte) :=
  let r := decodeLoop T bits [] []
  if r.1 = [] then .ok r.2 else .error (leftoverCause T r.1)

/-- The FREQ memory of a frequency table (R142). -/
def freqMemOf (F : Nat → Nat) : List (Nat × Word) := memTable 0 256 fun sym => BitVec.ofNat 32 (F sym)

/-- The CWT memory of a codeword table (R151). -/
def cwtMemOf (T : Nat → List Bool) : List (Nat × CwEntry) := memTable cwEmpty 256 fun sym => cwEntryOf (T sym)

/-- The writes of HUF.FREQ besides its frame (R142). -/
def storeFreq (F : Nat → Nat) (s : State) : State := { s with freq := freqMemOf F }

/-- The writes of HUF.TREE besides its frame (R146). -/
def storeTree (nodes : List HNode) (s : State) : State :=
  { s with
    node := memWriteSeq nodeEmpty s.node 0 (nodes.map nodeOf)
    nnodes := BitVec.ofNat 32 nodes.length
    root := BitVec.ofNat 32 (nodes.length - 1) }

/-- The writes of HUF.CODES besides its frame (R151). -/
def storeCodes (T : Nat → List Bool) (s : State) : State := { s with cwt := cwtMemOf T }

/-- `HUF.FREQ` (R142). -/
def execHufFreq (s : State) : Host.Outcome State Fault Refusal :=
  if inputTooLong s then failWith .badOperand 0 s
  else
    let F := freqOf (symsOf s)
    finish s (storeFreq F s) [] (alphabetSize F) false false

/-- `HUF.TREE` (R146). -/
def execHufTree (s : State) : Host.Outcome State Fault Refusal :=
  let F := freqTableOf s
  finish s (storeTree (treeOf F) s) [] (alphabetSize F) false false

/-- `HUF.CODES` (R151). It stops by name on a NODE that is no tree, which no run reaches (log entry 5). -/
def execHufCodes (s : State) : Host.Outcome State Fault Refusal :=
  let nodes := nodesOf s
  if treeShaped nodes then
    let T := codesOf nodes
    finish s (storeCodes T s) [] (presentCount T) false false
  else .fault .malformedTree

/-- `HUF.ENC` (R153): on a failure FREQ, NODE and CWT keep their contents. -/
def execHufEnc (s : State) : Host.Outcome State Fault Refusal :=
  if inputTooLong s then failWith .badOperand 0 s
  else
    let x := symsOf s
    let F := freqOf x
    let nodes := treeOf F
    let T := codesOf nodes
    finish s (storeCodes T (storeTree nodes (storeFreq F s))) ((serialize T x).map bitElem) (alphabetSize F)
      false false

/-- `HUF.DEC` (R156). -/
def execHufDec (s : State) : Host.Outcome State Fault Refusal :=
  if inputTooLong s then failWith .badOperand 0 s
  else
    match decodeBits (codeTableOf s) (bitsOf s) with
    | .error sub => failWith .unknownSymbol sub s
    | .ok y => finish s s y 0 false false

end Sys2Proof.Machine
end

