-- ==== Sys2Proof/Machine/Pack.lean ====
section
/-! DEFINITION. The bit-packer, PACK.PACK and PACK.UNPACK (41_pack.md). -/

namespace Sys2Proof.Machine

/-- `B[j]` of R120: eight bits, the first the most significant, zeros beyond the end. -/
def packByte (b : List Bool) (j : Nat) : Byte :=
  BitVec.ofNat 8 ((List.range 8).map fun i => (bitAt b (8 * j + i)).toNat * 2 ^ (7 - i)).sum

/-- The bytes of `pack(b)` (R120). Its other component, the bit length, is the length of `b`. -/
def pack (b : List Bool) : List Byte := (List.range (ceilDiv b.length 8)).map (packByte b)

/-- `unpack(B, L)` (R122). -/
def unpack (bytes : List Byte) (len : Nat) : List Bool :=
  (List.range len).map fun t => (bytes.getD (t / 8) 0).getLsbD (7 - t % 8)

/-- `PACK.PACK` (R121). -/
def execPackPack (s : State) : Host.Outcome State Fault Refusal :=
  if inputTooLong s then failWith .badOperand 0 s
  else
    let out := pack (bitsOf s)
    finish s { s with bitlen := s.ilen } out (8 * out.length - s.ilen.toNat) false false

/-- `PACK.UNPACK` (R123). The comparison is on naturals; `RES` takes the low 32 bits (R119). -/
def execPackUnpack (s : State) : Host.Outcome State Fault Refusal :=
  if inputTooLong s then failWith .badOperand 0 s
  else if 8 * s.ilen.toNat < s.bitlen.toNat then failWith .badOperand 0 s
  else
    finish s s ((unpack (symsOf s) s.bitlen.toNat).map bitElem) (8 * s.ilen.toNat - s.bitlen.toNat) false false

end Sys2Proof.Machine
end

