-- ==== Sys2Proof/Machine/Sys.lean ====
section
/-! DEFINITION. The shell commands SYS.NOP and SYS.MOV (40_sys.md). -/

namespace Sys2Proof.Machine

/-- `SYS.NOP` (R114): the empty success frame. -/
def execSysNop (s : State) : Host.Outcome State Fault Refusal := finish s s [] 0 false false

/-- `SYS.MOV` (R115): the output becomes the input. Its capacity check is against `IBUF_CAP`. -/
def execSysMov (s : State) : Host.Outcome State Fault Refusal :=
  if s.cfg.ibufCap < s.olen.toNat then failWith .capacity 0 s
  else
    finish s { s with ibuf := memWriteSeq 0 s.ibuf 0 (outputOf s), ilen := s.olen } [] s.olen.toNat false false

end Sys2Proof.Machine
end

