-- ==== Sys2Proof/Machine/Dispatch.lean ====
section
/-! DEFINITION. One arm per command, each one call of its meaning. -/

namespace Sys2Proof.Machine

def exec (i : Instr) (s : State) : Host.Outcome State Fault Refusal :=
  match i with
  | .sysNop => Sys2Proof.Machine.execSysNop s
  | .sysMov => Sys2Proof.Machine.execSysMov s
  | .packPack => Sys2Proof.Machine.execPackPack s
  | .packUnpack => Sys2Proof.Machine.execPackUnpack s
  | .hufFreq => Sys2Proof.Machine.execHufFreq s
  | .hufTree => Sys2Proof.Machine.execHufTree s
  | .hufCodes => Sys2Proof.Machine.execHufCodes s
  | .hufEnc => Sys2Proof.Machine.execHufEnc s
  | .hufDec => Sys2Proof.Machine.execHufDec s
  | .hamCalcr => Sys2Proof.Machine.execHamCalcr s
  | .hamEncb => Sys2Proof.Machine.execHamEncb s
  | .hamDecb => Sys2Proof.Machine.execHamDecb s
  | .hamEnc => Sys2Proof.Machine.execHamEnc s
  | .hamDec => Sys2Proof.Machine.execHamDec s
  | .hamNoise => Sys2Proof.Machine.execHamNoise s

end Sys2Proof.Machine
end

