-- ==== Sys2Proof/Machine/HostPort.lean ====
section
/-! DEFINITION. The host's 32-bit accesses to the six spaces (20_memory.md) and what its next action comes to. -/

namespace Sys2Proof.Machine

/-- A host read of space `REG` (R22, R33): `CMD` reads 0, indices 10 and above do not exist (R64). -/
def readReg (s : State) (index : Nat) : Word :=
  match index with
  | 1 => s.status
  | 2 => s.cfgK
  | 3 => s.arg
  | 4 => s.ilen
  | 5 => s.olen
  | 6 => s.bitlen
  | 7 => s.res
  | 8 => s.nnodes
  | 9 => s.root
  | _ => 0

/-- Word `w` of a CWT entry (R38): `LEN` in word 0, `CODE` MSB first in words 1 to 8, no others (R64). -/
def readCwtWord (e : CwEntry) (w : Nat) : Word :=
  if w = 0 then e.len.setWidth 32
  else if w ≤ 8 then e.code.extractLsb' (256 - 32 * w) 32
  else 0

/-- Word `w` of a NODE entry (R39). -/
def readNodeWord (n : Node) (w : Nat) : Word :=
  match w with
  | 0 => BitVec.ofBool n.leaf ++ (0 : BitVec 23) ++ n.sym
  | 1 => (0 : BitVec 7) ++ n.right ++ (0 : BitVec 7) ++ n.left
  | 2 => n.weight.extractLsb' 0 32
  | 3 => (n.weight.extractLsb' 32 8).setWidth 32
  | _ => 0

/-- `MemRead(space, index)` (R62): masked by `OLEN` and `NNODES` (R63), 0 outside a space (R64). -/
def hostRead (s : State) (space index : Nat) : Word :=
  match space with
  | 0 => readReg s index
  | 1 => if index < s.cfg.ibufCap then (ibufAt s index).setWidth 32 else 0
  | 2 => if index < s.cfg.obufCap ∧ index < s.olen.toNat then (obufAt s index).setWidth 32 else 0
  | 3 => if index < 256 then freqAt s index else 0
  | 4 => if index / 16 < 256 then readCwtWord (cwtAt s (index / 16)) (index % 16) else 0
  | 5 =>
    if index / 4 < 511 ∧ index / 4 < s.nnodes.toNat then readNodeWord (nodeAt s (index / 4)) (index % 4) else 0
  | _ => 0

/-- A host write to a register other than `CMD` (R22, R33): read-only registers ignore it. -/
def writeReg (s : State) (index : Nat) (v : Word) : State :=
  match index with
  | 2 => { s with cfgK := v }
  | 3 => { s with arg := v }
  | 4 => { s with ilen := v }
  | 6 => { s with bitlen := v }
  | _ => s

/-- A 256-bit vector with 32 bits replaced: those of `CODE` word `w`, `1 <= w <= 8` (R38). -/
def replaceCodeWord (code : BitVec 256) (w : Nat) (v : Word) : BitVec 256 :=
  let mask : BitVec 256 := ((BitVec.allOnes 32).setWidth 256) <<< (256 - 32 * w)
  (code &&& ~~~mask) ||| (v.setWidth 256 <<< (256 - 32 * w))

/-- A CWT entry after a write of its word `w`, `w <= 8` (R38): bits [31:8] of word 0 are ignored. -/
def writeCwtWord (e : CwEntry) (w : Nat) (v : Word) : CwEntry :=
  if w = 0 then { e with len := v.setWidth 8 } else { e with code := replaceCodeWord e.code w v }

/-- `MemWrite(space, index, v)` to anything but `CMD` (R62): read-only spaces and indices outside a space
change nothing (R64); an IBUF write stores bits [7:0] (R61). -/
def hostWrite (s : State) (space index : Nat) (v : Word) : State :=
  match space with
  | 0 => writeReg s index v
  | 1 => if index < s.cfg.ibufCap then { s with ibuf := memWrite 0 s.ibuf index (v.setWidth 8) } else s
  | 3 => if index < 256 then { s with freq := memWrite 0 s.freq index v } else s
  | 4 =>
    if index / 16 < 256 ∧ index % 16 ≤ 8 then
      { s with cwt := memWrite cwEmpty s.cwt (index / 16) (writeCwtWord (cwtAt s (index / 16)) (index % 16) v) }
    else s
  | _ => s

/-- A write of `w` to `REG.CMD` (R23, R110): the command to execute, or the failure frame ILLEGAL_CMD (R94, R244). -/
def cmdWrite (s : State) (w : Word) : Fetched :=
  match decode w with
  | .ok i => .command i s
  | .illegal _ => .done (failFrame .illegalCmd 0 s)

/-- One host action on the hardware (R62, R280). -/
def hostAct (a : HostAction) (s : State) : Fetched :=
  match a with
  | .read space index => .done { s with hostData := hostRead s space index }
  | .write space index v => if space = 0 ∧ index = 0 then cmdWrite s v else .done (hostWrite s space index v)
  | .reset => .done (hardwareReset s)

/-- The host's next action, taken off its list (R72); with none, the hardware waits (R280). -/
def nextAction (s : State) : Fetched :=
  match s.pending with
  | [] => .idle
  | a :: rest => hostAct a { s with pending := rest }

end Sys2Proof.Machine
end

