-- ==== Sys2Proof/Machine/Step.lean ====
section
/-! DEFINITION. One step: the host's next action, and the command it starts if it writes `REG.CMD` (R72, R110). -/

namespace Sys2Proof.Machine

/-- One step (R72): a host access, or a whole command, or waiting when the host does nothing (R280). -/
def step (s : State) : Host.Outcome State Fault Refusal :=
  match nextAction s with
  | .idle => .next s
  | .done s' => .next s'
  | .command i s' => exec i s'

/-- The state in which the host's very next action is to write that word to `REG.CMD` (log entry 1). -/
def State.withFetchWord (s : State) (nbits w : Nat) : State :=
  { s with pending := .write 0 0 (tableWord nbits w) :: s.pending }

end Sys2Proof.Machine
end

