-- ==== Sys2Proof/Safety.lean ====
section
/-! DEFINITION. What counts as a good state and a safe step: the invariants of 10_state.md and 20_memory.md that claims use. -/

namespace Sys2Proof.Machine

/-- The five memories are in their canonical form and hold nothing outside their index range (R35 to R39, R60). -/
abbrev MemoriesWf (s : State) : Prop :=
  memWf 0 s.cfg.ibufCap s.ibuf = true ∧ memWf 0 s.cfg.obufCap s.obuf = true ∧ memWf 0 256 s.freq = true ∧
    memWf cwEmpty 256 s.cwt = true ∧ memWf nodeEmpty 511 s.node = true

/-- `STATUS` holds a value R25 allows: reserved bits 0, `ERR` at most 5, `SUB` 1 or 2 exactly with UNKNOWN_SYMBOL,
`ERRDET` and `SYNRANGE` only with OK, and `SYNRANGE` only with `ERRDET` (R197: a syndrome above `n` is nonzero). -/
abbrev StatusLegal (w : Word) : Prop :=
  statusReserved w = 0 ∧ statusErr w ≤ 5 ∧
    (statusErr w = 1 ↔ statusSub w = 1 ∨ statusSub w = 2) ∧ (statusErr w ≠ 1 → statusSub w = 0) ∧
    (statusErr w ≠ 0 → statusErrdet w = false) ∧ (statusSynrange w = true → statusErrdet w = true)

/-- The number of internal entries below `count` that have `j` as a child (R43). -/
def parentCount (s : State) (count j : Nat) : Nat :=
  (List.range count).countP fun i =>
    !(nodeAt s i).leaf && ((nodeAt s i).left.toNat == j || (nodeAt s i).right.toNat == j)

/-- Entries `0 .. m-1` are leaves with strictly increasing `SYM` and no children (R43, R39). -/
abbrev LeavesOk (s : State) (m : Nat) : Prop :=
  ∀ i < m, (nodeAt s i).leaf = true ∧ (nodeAt s i).left = 0 ∧ (nodeAt s i).right = 0 ∧
    (i + 1 < m → (nodeAt s i).sym.toNat < (nodeAt s (i + 1)).sym.toNat)

/-- Entries `m .. 2m-2` are internal, each over two different earlier entries, its weight their sum (R43). -/
abbrev InternalsOk (s : State) (m : Nat) : Prop :=
  ∀ i < 2 * m - 1, m ≤ i →
    (nodeAt s i).leaf = false ∧ (nodeAt s i).sym = 0 ∧ (nodeAt s i).left.toNat < i ∧ (nodeAt s i).right.toNat < i ∧
      (nodeAt s i).left ≠ (nodeAt s i).right ∧
      (nodeAt s i).weight.toNat =
        (nodeAt s (nodeAt s i).left.toNat).weight.toNat + (nodeAt s (nodeAt s i).right.toNat).weight.toNat

/-- NODE holds a strict binary tree with `m` leaves whose root is the last entry (R43). -/
abbrev TreeOk (s : State) (m : Nat) : Prop :=
  1 ≤ m ∧ m ≤ 256 ∧ s.nnodes.toNat = 2 * m - 1 ∧ s.root.toNat = 2 * m - 2 ∧ LeavesOk s m ∧ InternalsOk s m ∧
    ∀ j < 2 * m - 2, parentCount s (2 * m - 1) j = 1

/-- The invariant of NODE (R43, R32): nothing, with `ROOT` 0, or a tree. -/
abbrev NodeInvariant (s : State) : Prop :=
  (s.nnodes = 0 ∧ s.root = 0) ∨ TreeOk s ((s.nnodes.toNat + 1) / 2)

/-- `OLEN <= OBUF_CAP` (R28). -/
abbrev OutputFits (s : State) : Prop := s.olen.toNat ≤ s.cfg.obufCap

/-- A good state: everything the spec says always holds of the machine (R9, R25, R28, R43, R60). -/
abbrev Good (s : State) : Prop :=
  s.cfg.wf = true ∧ MemoriesWf s ∧ StatusLegal s.status ∧ OutputFits s ∧ NodeInvariant s

/-- The state a failing command leaves (R250): the given value in `STATUS`, `RES` and `OLEN` 0, all else as before. -/
abbrev Failed (status : Word) (s : State) : State := { s with status := status, res := 0, olen := 0 }

/-- The ten commands that read IBUF (R111). -/
abbrev readsIbuf : List Instr :=
  [.packPack, .packUnpack, .hufFreq, .hufEnc, .hufDec, .hamEncb, .hamDecb, .hamEnc, .hamDec, .hamNoise]

/-- A table in which no present codeword is a prefix of another symbol's (R17, R150). -/
abbrev PrefixFree (T : Nat → List Bool) : Prop :=
  ∀ a < 256, ∀ b < 256, T a ≠ [] → T b ≠ [] → T a <+: T b → a = b

/-- Node `j` exists before pass `i` makes node `i`, and no earlier node has it as a child (`live` of R144). -/
abbrev Live (nodes : List HNode) (i j : Nat) : Prop :=
  j < i ∧ ∀ i' < i, ∀ l r w, nodes[i']? = some (.internal l r w) → l ≠ j ∧ r ≠ j

/-- `(weight(nodes[i]), i)` is smaller than `(weight(nodes[j]), j)`, lexicographically (R144). -/
abbrev KeyBelow (nodes : List HNode) (i j : Nat) : Prop :=
  weightAt nodes i < weightAt nodes j ∨ (weightAt nodes i = weightAt nodes j ∧ i < j)

/-- The node a path of bits leads to from node `i` (R148: left = 0, right = 1). -/
def followPath (nodes : List HNode) (i : Nat) : List Bool → Option HNode
  | [] => nodes[i]?
  | b :: path =>
    match nodes[i]? with
    | some (.internal l r _) => followPath nodes (if b then r else l) path
    | _ => none

/-- A block with the bits at the positions of `E` flipped (R199). -/
def flipPositions (c : List Bool) (E : List Nat) : List Bool :=
  (List.range c.length).map fun t => bitAt c t ^^ decide (t + 1 ∈ E)

/-- A safe step: the machine neither faults nor refuses (R240: it "does not stop"). -/
def SafeStep (s : State) : Prop := ∃ t, step s = .next t

end Sys2Proof.Machine
end

