-- ==== Sys2Proof/Certificates/Slice0/Obligations.lean ====
section
/-! DEFINITION. The statements for the provers. Each docstring names the rule of the spec it formalises. -/

open Sys2Proof Sys2Proof.Machine

/-! ### The command word -/

/-- One word of each unit, and one illegal word of each kind, as 30_encoding.md writes them (R90, R92, R94). -/
def Obligations.SomeWordsDecodeAsTabulated : Prop :=
  decode 0x00000001 = .ok .sysMov ∧ decode 0x00000011 = .ok .packUnpack ∧ decode 0x00000024 = .ok .hufDec ∧
    decode 0x00000035 = .ok .hamNoise ∧ decode 0x00000100 = .illegal .zeroFieldNonzero ∧
    decode 0x00000040 = .illegal .unknownUnit ∧ decode 0x00000036 = .illegal .unknownFunction

/-- R91, R92: the whole word is compared with the fifteen of the table; and the encoder gives each command the table's
word, so that decoding inverts encoding and only the encoding of a command decodes to it. -/
def Obligations.DecodeAndEncodeAgreeWithTheTable : Prop :=
  ∀ (w : Word) (i : Instr),
    (decode w = .ok i ↔
      (i, w) ∈ ([(.sysNop, 0x00000000), (.sysMov, 0x00000001), (.packPack, 0x00000010), (.packUnpack, 0x00000011),
        (.hufFreq, 0x00000020), (.hufTree, 0x00000021), (.hufCodes, 0x00000022), (.hufEnc, 0x00000023),
        (.hufDec, 0x00000024), (.hamCalcr, 0x00000030), (.hamEncb, 0x00000031), (.hamDecb, 0x00000032),
        (.hamEnc, 0x00000033), (.hamDec, 0x00000034), (.hamNoise, 0x00000035)] : List (Instr × Word))) ∧
      (decode w = .ok i ↔ w = encode i)

/-- R94: a write of a word of the listed classes to `CMD` executes nothing and ends with the failure frame of
ILLEGAL_CMD; and these are all the words that decode to no command. -/
def Obligations.IllegalWordFailsAndChangesNothingElse : Prop :=
  ∀ (s : State) (w : Word) (rest : List HostAction), s.pending = .write 0 0 w :: rest →
    ((w.extractLsb' 8 24 ≠ 0 ∨ 4 ≤ (w.extractLsb' 4 4).toNat ∨
        ((w.extractLsb' 4 4).toNat = 0 ∧ 2 ≤ (w.extractLsb' 0 4).toNat) ∨
        ((w.extractLsb' 4 4).toNat = 1 ∧ 2 ≤ (w.extractLsb' 0 4).toNat) ∨
        ((w.extractLsb' 4 4).toNat = 2 ∧ 5 ≤ (w.extractLsb' 0 4).toNat) ∨
        ((w.extractLsb' 4 4).toNat = 3 ∧ 6 ≤ (w.extractLsb' 0 4).toNat)) ↔ ∀ i, decode w ≠ .ok i) ∧
      ((∀ i, decode w ≠ .ok i) → step s = .next { Failed 0x03 s with pending := rest })

/-! ### The step and the host's accesses -/

/-- R110: a write of a legal word to `CMD` is one step, the command's, with the write taken off the host's list. -/
def Obligations.StepRunsTheDecodedCommand : Prop :=
  ∀ (s : State) (w : Word) (rest : List HostAction) (i : Instr), s.pending = .write 0 0 w :: rest →
    decode w = .ok i → step s = exec i { s with pending := rest }

/-- The placed word is run by the very next step, on the state it was placed in (log entry 1). -/
def Obligations.PlacedWordRunsNext : Prop :=
  ∀ (s : State) (i : Instr), step (s.withFetchWord 32 (encode i).toNat) = exec i s

/-- R62, R72, R280: what a step does with nothing pending, with a read, with a write to anything but `CMD`, and with reset. -/
def Obligations.HostActionsStepAsDescribed : Prop :=
  (∀ s : State, s.pending = [] → step s = .next s) ∧
    (∀ (s : State) (rest : List HostAction) (space index : Nat), s.pending = .read space index :: rest →
      step s = .next { s with pending := rest, hostData := hostRead s space index }) ∧
    (∀ (s : State) (rest : List HostAction) (space index : Nat) (v : Word),
      s.pending = .write space index v :: rest → ¬(space = 0 ∧ index = 0) →
      step s = .next { hostWrite s space index v with pending := rest }) ∧
    (∀ (s : State) (rest : List HostAction), s.pending = .reset :: rest →
      step s = .next { s with
        pending := rest, status := 0, cfgK := 0, arg := 0, ilen := 0, olen := 0, bitlen := 0, res := 0, nnodes := 0,
        root := 0, ibuf := [], obuf := [], freq := [], cwt := [], node := [] })

/-- R42: after reset every register holds 0, every entry of every memory is 0, and every host read returns 0. -/
def Obligations.ResetLeavesEverythingZero : Prop :=
  (State.reset.status = 0 ∧ State.reset.cfgK = 0 ∧ State.reset.arg = 0 ∧ State.reset.ilen = 0 ∧
    State.reset.olen = 0 ∧ State.reset.bitlen = 0 ∧ State.reset.res = 0 ∧ State.reset.nnodes = 0 ∧
    State.reset.root = 0) ∧
    (∀ i, ibufAt State.reset i = 0 ∧ obufAt State.reset i = 0 ∧ freqAt State.reset i = 0 ∧
      cwtAt State.reset i = { len := 0, code := 0 } ∧
      nodeAt State.reset i = { leaf := false, sym := 0, left := 0, right := 0, weight := 0 }) ∧
    ∀ space index, hostRead State.reset space index = 0

/-- R281: with `CFG_K = 0` after reset the four Hamming block and stream commands fail with CONFIG_MISMATCH; HUF.DEC
succeeds on the empty input and fails with DEAD_END on anything else; HUF.TREE and HUF.CODES succeed. -/
def Obligations.FirstCommandsAfterReset : Prop :=
  (∀ i ∈ ([.hamEncb, .hamDecb, .hamEnc, .hamDec] : List Instr), ∀ n : Nat, n ≤ State.reset.cfg.ibufCap →
      exec i { State.reset with ilen := BitVec.ofNat 32 n } =
        .next (Failed 0x02 { State.reset with ilen := BitVec.ofNat 32 n })) ∧
    (∀ i ∈ ([.hufDec, .hufTree, .hufCodes] : List Instr), exec i State.reset = .next State.reset) ∧
    ∀ (m : List Host.Cell) (n : Nat), 1 ≤ n → n ≤ State.reset.cfg.ibufCap →
      exec .hufDec { State.reset with ibuf := m, ilen := BitVec.ofNat 32 n } =
        .next (Failed 0x81 { State.reset with ibuf := m, ilen := BitVec.ofNat 32 n })

/-- R22, R64: a host read of space REG, index by index. -/
def Obligations.RegistersReadByIndex : Prop :=
  ∀ s : State, hostRead s 0 0 = 0 ∧ hostRead s 0 1 = s.status ∧ hostRead s 0 2 = s.cfgK ∧ hostRead s 0 3 = s.arg ∧
    hostRead s 0 4 = s.ilen ∧ hostRead s 0 5 = s.olen ∧ hostRead s 0 6 = s.bitlen ∧ hostRead s 0 7 = s.res ∧
    hostRead s 0 8 = s.nnodes ∧ hostRead s 0 9 = s.root ∧ ∀ index, 10 ≤ index → hostRead s 0 index = 0

/-- R33: read-only registers ignore host writes, `CMD` reads 0, reserved `STATUS` bits read 0 (in a state whose
`STATUS` is legal, which `StepKeepsStatusAndOutputLegal` keeps), and the four others hold all 32 bits written. -/
def Obligations.RegisterAccessRules : Prop :=
  ∀ (s : State) (v : Word),
    (∀ index ∈ [1, 5, 7, 8, 9], hostWrite s 0 index v = s) ∧
      hostRead s 0 0 = 0 ∧
      (StatusLegal s.status → (hostRead s 0 1).extractLsb' 8 24 = 0) ∧
      hostWrite s 0 2 v = { s with cfgK := v } ∧ hostWrite s 0 3 v = { s with arg := v } ∧
      hostWrite s 0 4 v = { s with ilen := v } ∧ hostWrite s 0 6 v = { s with bitlen := v } ∧
      ∀ index ∈ [2, 3, 4, 6], hostRead (hostWrite s 0 index v) 0 index = v

/-- R63: OBUF reads are masked by `OLEN`, NODE reads by `NNODES`, the other memories by no length. -/
def Obligations.ReadsMaskedByLength : Prop :=
  ∀ (s : State) (i w : Nat),
    (s.olen.toNat ≤ i → hostRead s 2 i = 0) ∧
      (i < s.olen.toNat → i < s.cfg.obufCap → hostRead s 2 i = (obufAt s i).setWidth 32) ∧
      (w < 4 → s.nnodes.toNat ≤ i → hostRead s 5 (4 * i + w) = 0) ∧
      (i < s.cfg.ibufCap → hostRead s 1 i = (ibufAt s i).setWidth 32) ∧
      (i < 256 → hostRead s 3 i = freqAt s i) ∧
      (i < 256 → w ≤ 8 → hostRead s 4 (16 * i + w) = readCwtWord (cwtAt s i) w)

/-- R64: outside a space a read returns 0 and a write changes nothing; a write to OBUF or NODE changes nothing. -/
def Obligations.AccessesOutsideASpace : Prop :=
  ∀ (s : State) (space index : Nat) (v : Word),
    ((space = 0 ∧ 10 ≤ index) ∨ (space = 1 ∧ s.cfg.ibufCap ≤ index) ∨ (space = 2 ∧ s.cfg.obufCap ≤ index) ∨
        (space = 3 ∧ 256 ≤ index) ∨ (space = 4 ∧ (256 ≤ index / 16 ∨ 9 ≤ index % 16)) ∨
        (space = 5 ∧ 511 ≤ index / 4) ∨ 6 ≤ space →
      hostRead s space index = 0 ∧ hostWrite s space index v = s) ∧
      (space = 2 ∨ space = 5 → hostWrite s space index v = s)

/-- R61, R37: an IBUF write stores bits [7:0] and a read returns them with zeros above; a FREQ write stores the word;
nothing else changes. -/
def Obligations.BufferAndFrequencyWrites : Prop :=
  ∀ (s : State) (i : Nat) (v : Word),
    (i < s.cfg.ibufCap →
      hostWrite s 1 i v = { s with ibuf := (hostWrite s 1 i v).ibuf } ∧
        ibufAt (hostWrite s 1 i v) i = v.extractLsb' 0 8 ∧
        hostRead (hostWrite s 1 i v) 1 i = (0 : BitVec 24) ++ v.extractLsb' 0 8 ∧
        ∀ j, j ≠ i → ibufAt (hostWrite s 1 i v) j = ibufAt s j) ∧
      (i < 256 →
        hostWrite s 3 i v = { s with freq := (hostWrite s 3 i v).freq } ∧
          freqAt (hostWrite s 3 i v) i = v ∧ hostRead (hostWrite s 3 i v) 3 i = v ∧
          ∀ j, j ≠ i → freqAt (hostWrite s 3 i v) j = freqAt s j)

/-- R38: the words of a CWT entry. Word 0 keeps bits [7:0] only; `CODE[i]` is bit `31 - (i mod 32)` of word
`1 + (i div 32)`; a write of one word changes that word alone. -/
def Obligations.CodewordTableWords : Prop :=
  ∀ (s : State) (sym : Nat) (v : Word), sym < 256 →
    (hostRead s 4 (16 * sym) = (cwtAt s sym).len.setWidth 32 ∧
      ∀ i < 256, (cwtAt s sym).code.getLsbD (255 - i) =
        (hostRead s 4 (16 * sym + (1 + i / 32))).getLsbD (31 - i % 32)) ∧
      hostRead (hostWrite s 4 (16 * sym) v) 4 (16 * sym) = v &&& 0xFF ∧
      (∀ w, 1 ≤ w → w ≤ 8 → hostRead (hostWrite s 4 (16 * sym + w) v) 4 (16 * sym + w) = v) ∧
      (∀ w w', w ≤ 8 → w' ≤ 8 → w' ≠ w →
        hostRead (hostWrite s 4 (16 * sym + w) v) 4 (16 * sym + w') = hostRead s 4 (16 * sym + w')) ∧
      (∀ w ≤ 8, ∀ sym', sym' ≠ sym → cwtAt (hostWrite s 4 (16 * sym + w) v) sym' = cwtAt s sym') ∧
      ∀ w, hostWrite s 4 (16 * sym + w) v = { s with cwt := (hostWrite s 4 (16 * sym + w) v).cwt }

/-- R39: the four words of a valid NODE entry, every bit not named reading 0. -/
def Obligations.NodeEntryWords : Prop :=
  ∀ (s : State) (i : Nat), i < s.nnodes.toNat → i < 511 →
    ((hostRead s 5 (4 * i)).getLsbD 31 = (nodeAt s i).leaf ∧ (hostRead s 5 (4 * i)).extractLsb' 8 23 = 0 ∧
      (hostRead s 5 (4 * i)).extractLsb' 0 8 = (nodeAt s i).sym) ∧
      ((hostRead s 5 (4 * i + 1)).extractLsb' 0 9 = (nodeAt s i).left ∧
        (hostRead s 5 (4 * i + 1)).extractLsb' 9 7 = 0 ∧
        (hostRead s 5 (4 * i + 1)).extractLsb' 16 9 = (nodeAt s i).right ∧
        (hostRead s 5 (4 * i + 1)).extractLsb' 25 7 = 0) ∧
      (hostRead s 5 (4 * i + 2) = (nodeAt s i).weight.extractLsb' 0 32 ∧
        (hostRead s 5 (4 * i + 3)).extractLsb' 0 8 = (nodeAt s i).weight.extractLsb' 32 8 ∧
        (hostRead s 5 (4 * i + 3)).extractLsb' 8 24 = 0)

/-! ### The commands, one by one: where each completes, what it writes, what it leaves -/

/-- R114: SYS.NOP writes `OLEN`, `RES` and `STATUS` with 0 and nothing else, in every state. -/
def Obligations.NopWritesTheEmptyFrame : Prop :=
  ∀ s : State, exec .sysNop s = .next { s with status := 0, res := 0, olen := 0 }

/-- R115: SYS.MOV. -/
def Obligations.MovHandsOutputToInput : Prop :=
  ∀ s : State,
    (s.cfg.ibufCap < s.olen.toNat → exec .sysMov s = .next (Failed 0x05 s)) ∧
      (s.olen.toNat ≤ s.cfg.ibufCap → ∃ t, exec .sysMov s = .next t ∧
        t = { s with status := 0, res := s.olen, olen := 0, ilen := s.olen, ibuf := t.ibuf } ∧
        (∀ i < s.olen.toNat, ibufAt t i = obufAt s i) ∧ ∀ i, s.olen.toNat ≤ i → ibufAt t i = ibufAt s i)

/-- R120, R121: PACK.PACK. Bit `8j + i` of the input is bit `7 - i` of byte `j`; beyond the input the bits are 0. -/
def Obligations.PackWritesBytesMsbFirst : Prop :=
  ∀ s : State,
    (s.cfg.ibufCap < s.ilen.toNat → exec .packPack s = .next (Failed 0x04 s)) ∧
      (s.ilen.toNat ≤ s.cfg.ibufCap → s.cfg.obufCap < (s.ilen.toNat + 7) / 8 →
        exec .packPack s = .next (Failed 0x05 s)) ∧
      (s.ilen.toNat ≤ s.cfg.ibufCap → (s.ilen.toNat + 7) / 8 ≤ s.cfg.obufCap → ∃ t, exec .packPack s = .next t ∧
        t = { s with
          status := 0, res := BitVec.ofNat 32 (8 * ((s.ilen.toNat + 7) / 8) - s.ilen.toNat),
          olen := BitVec.ofNat 32 ((s.ilen.toNat + 7) / 8), bitlen := s.ilen, obuf := t.obuf } ∧
        (∀ j < (s.ilen.toNat + 7) / 8, ∀ i < 8, (obufAt t j).getLsbD (7 - i) =
          (decide (8 * j + i < s.ilen.toNat) && (ibufAt s (8 * j + i)).getLsbD 0)) ∧
        ∀ j, (s.ilen.toNat + 7) / 8 ≤ j → obufAt t j = obufAt s j)

/-- R122, R123: PACK.UNPACK. -/
def Obligations.UnpackWritesTheFirstBits : Prop :=
  ∀ s : State,
    (s.cfg.ibufCap < s.ilen.toNat ∨ 8 * s.ilen.toNat < s.bitlen.toNat →
      exec .packUnpack s = .next (Failed 0x04 s)) ∧
      (s.ilen.toNat ≤ s.cfg.ibufCap → s.bitlen.toNat ≤ 8 * s.ilen.toNat → s.cfg.obufCap < s.bitlen.toNat →
        exec .packUnpack s = .next (Failed 0x05 s)) ∧
      (s.ilen.toNat ≤ s.cfg.ibufCap → s.bitlen.toNat ≤ 8 * s.ilen.toNat → s.bitlen.toNat ≤ s.cfg.obufCap →
        ∃ t, exec .packUnpack s = .next t ∧
          t = { s with
            status := 0, res := BitVec.ofNat 32 ((8 * s.ilen.toNat - s.bitlen.toNat) % 2 ^ 32), olen := s.bitlen,
            obuf := t.obuf } ∧
          (∀ i < s.bitlen.toNat,
            obufAt t i = if (ibufAt s (i / 8)).getLsbD (7 - i % 8) then 0x01 else 0x00) ∧
          ∀ i, s.bitlen.toNat ≤ i → obufAt t i = obufAt s i)

/-- R141, R142: HUF.FREQ. -/
def Obligations.FreqCountsEverySymbol : Prop :=
  ∀ s : State,
    (s.cfg.ibufCap < s.ilen.toNat → exec .hufFreq s = .next (Failed 0x04 s)) ∧
      (s.ilen.toNat ≤ s.cfg.ibufCap → ∃ t, exec .hufFreq s = .next t ∧
        t = { s with
          status := 0, res := BitVec.ofNat 32 ((List.range 256).countP fun a => decide (freqAt t a ≠ 0)), olen := 0,
          freq := t.freq } ∧
        ∀ a < 256, (freqAt t a).toNat = (List.range s.ilen.toNat).countP fun i => (ibufAt s i).toNat == a)

/-- R146: HUF.TREE stores `tree(F)` of the frequency table in FREQ, in every state. -/
def Obligations.TreeStoresTheBuiltTree : Prop :=
  ∀ s : State, ∃ t, exec .hufTree s = .next t ∧
    t = { s with
      status := 0, res := BitVec.ofNat 32 ((List.range 256).countP fun a => decide (freqAt s a ≠ 0)), olen := 0,
      nnodes := BitVec.ofNat 32 (2 * ((List.range 256).countP fun a => decide (freqAt s a ≠ 0)) - 1),
      root := BitVec.ofNat 32 (2 * ((List.range 256).countP fun a => decide (freqAt s a ≠ 0)) - 2),
      node := t.node } ∧
    (treeOf (freqTableOf s)).length = 2 * ((List.range 256).countP fun a => decide (freqAt s a ≠ 0)) - 1 ∧
    (∀ i sym w, (treeOf (freqTableOf s))[i]? = some (.leaf sym w) →
      (nodeAt t i).leaf = true ∧ (nodeAt t i).sym = sym ∧ (nodeAt t i).left = 0 ∧ (nodeAt t i).right = 0 ∧
        (nodeAt t i).weight.toNat = w) ∧
    (∀ i a b w, (treeOf (freqTableOf s))[i]? = some (.internal a b w) →
      (nodeAt t i).leaf = false ∧ (nodeAt t i).sym = 0 ∧ (nodeAt t i).left.toNat = a ∧
        (nodeAt t i).right.toNat = b ∧ (nodeAt t i).weight.toNat = w) ∧
    ∀ i, (treeOf (freqTableOf s)).length ≤ i → nodeAt t i = nodeAt s i

/-- R143, R144: the leaves of `tree(F)` are the present symbols in ascending order; every later node is made of the two
live nodes of smallest (weight, index), the smallest on the left; weights of 32-bit counts fit 40 bits. -/
def Obligations.TreeMergesTheTwoLightest : Prop :=
  ∀ F : Nat → Nat,
    (treeOf F).take ((List.range 256).filter fun a => decide (0 < F a)).length =
        (((List.range 256).filter fun a => decide (0 < F a)).map fun a => HNode.leaf (BitVec.ofNat 8 a) (F a)) ∧
      (treeOf F).length = 2 * ((List.range 256).filter fun a => decide (0 < F a)).length - 1 ∧
      (∀ i, ((List.range 256).filter fun a => decide (0 < F a)).length ≤ i → i < (treeOf F).length →
        ∃ a b, (treeOf F)[i]? = some (.internal a b (weightAt (treeOf F) a + weightAt (treeOf F) b)) ∧
          Live (treeOf F) i a ∧ Live (treeOf F) i b ∧ a ≠ b ∧
          (∀ j, Live (treeOf F) i j → j ≠ a → KeyBelow (treeOf F) a j) ∧
          ∀ j, Live (treeOf F) i j → j ≠ a → j ≠ b → KeyBelow (treeOf F) b j) ∧
      ((∀ a, F a < 2 ^ 32) → ∀ n ∈ treeOf F, hnodeWeight n < 2 ^ 40)

/-- R148, R149, R151: HUF.CODES, in every state whose NODE holds nothing or a tree (R43, which
`StepKeepsTheTreeInvariant` keeps): a symbol's codeword is the path from the root to its leaf. -/
def Obligations.CodesAreRootToLeafPaths : Prop :=
  ∀ s : State, NodeInvariant s → ∃ t, exec .hufCodes s = .next t ∧
    t = { s with
      status := 0, res := BitVec.ofNat 32 ((List.range 256).countP fun a => decide (codeTableOf t a ≠ [])), olen := 0,
      cwt := t.cwt } ∧
    (s.nnodes.toNat = 0 → ∀ a < 256, codeTableOf t a = []) ∧
    (s.nnodes.toNat = 1 → ∀ a < 256, codeTableOf t a = if a = (nodeAt s 0).sym.toNat then [false] else []) ∧
    (1 < s.nnodes.toNat → ∀ a < 256, ∀ path, path ≠ [] →
      (codeTableOf t a = path ↔
        ∃ w, followPath (nodesOf s) s.root.toNat path = some (.leaf (BitVec.ofNat 8 a) w))) ∧
    ∀ a < 256, ∀ i < 256, (cwtAt t a).len.toNat ≤ i → (cwtAt t a).code.getLsbD (255 - i) = false

/-- R152, R153: HUF.ENC as one command. -/
def Obligations.HuffmanEncodeCompletes : Prop :=
  ∀ s : State,
    (s.cfg.ibufCap < s.ilen.toNat → exec .hufEnc s = .next (Failed 0x04 s)) ∧
      (s.ilen.toNat ≤ s.cfg.ibufCap →
        s.cfg.obufCap < (serialize (codesOf (treeOf (freqOf (symsOf s)))) (symsOf s)).length →
        exec .hufEnc s = .next (Failed 0x05 s)) ∧
      (s.ilen.toNat ≤ s.cfg.ibufCap →
        (serialize (codesOf (treeOf (freqOf (symsOf s)))) (symsOf s)).length ≤ s.cfg.obufCap →
        ∃ t, exec .hufEnc s = .next t ∧
          t = { s with
            status := 0, res := BitVec.ofNat 32 ((List.range 256).countP fun a => decide (freqAt t a ≠ 0)),
            olen := BitVec.ofNat 32 (serialize (codesOf (treeOf (freqOf (symsOf s)))) (symsOf s)).length,
            obuf := t.obuf, freq := t.freq, cwt := t.cwt, node := t.node, nnodes := t.nnodes, root := t.root } ∧
          (∀ i < (serialize (codesOf (treeOf (freqOf (symsOf s)))) (symsOf s)).length,
            obufAt t i =
              bitElem (bitAt (serialize (codesOf (treeOf (freqOf (symsOf s)))) (symsOf s)) i)) ∧
          ∀ i, (serialize (codesOf (treeOf (freqOf (symsOf s)))) (symsOf s)).length ≤ i → obufAt t i = obufAt s i)

/-- R153: HUF.ENC writes FREQ, NODE, `NNODES`, `ROOT` and CWT exactly as HUF.FREQ, HUF.TREE and HUF.CODES one after
another write them, and its output is the input serialized through the table they leave. -/
def Obligations.HuffmanEncodeIsTheThreeStages : Prop :=
  ∀ s t : State, s.ilen.toNat ≤ s.cfg.ibufCap → exec .hufEnc s = .next t → statusErr t.status = 0 →
    ∃ f g h, exec .hufFreq s = .next f ∧ exec .hufTree f = .next g ∧ exec .hufCodes g = .next h ∧
      t.freq = h.freq ∧ t.node = h.node ∧ t.nnodes = h.nnodes ∧ t.root = h.root ∧ t.cwt = h.cwt ∧ t.res = h.res ∧
      t.olen = BitVec.ofNat 32 ((symsOf s).flatMap fun e => codeTableOf h e.toNat).length ∧
      ∀ i < ((symsOf s).flatMap fun e => codeTableOf h e.toNat).length,
        obufAt t i = bitElem (bitAt ((symsOf s).flatMap fun e => codeTableOf h e.toNat) i)

/-- R156: HUF.DEC, by what `decode` (R154, R155) gives on the table in CWT. -/
def Obligations.HuffmanDecodeCompletes : Prop :=
  ∀ s : State,
    (s.cfg.ibufCap < s.ilen.toNat → exec .hufDec s = .next (Failed 0x04 s)) ∧
      (s.ilen.toNat ≤ s.cfg.ibufCap → decodeBits (codeTableOf s) (bitsOf s) = .error 1 →
        exec .hufDec s = .next (Failed 0x41 s)) ∧
      (s.ilen.toNat ≤ s.cfg.ibufCap → decodeBits (codeTableOf s) (bitsOf s) = .error 2 →
        exec .hufDec s = .next (Failed 0x81 s)) ∧
      ∀ y, s.ilen.toNat ≤ s.cfg.ibufCap → decodeBits (codeTableOf s) (bitsOf s) = .ok y →
        (s.cfg.obufCap < y.length → exec .hufDec s = .next (Failed 0x05 s)) ∧
          (y.length ≤ s.cfg.obufCap → ∃ t, exec .hufDec s = .next t ∧
            t = { s with status := 0, res := 0, olen := BitVec.ofNat 32 y.length, obuf := t.obuf } ∧
            y.length ≤ s.ilen.toNat ∧ (∀ i < y.length, obufAt t i = y.getD i 0) ∧
            ∀ i, y.length ≤ i → obufAt t i = obufAt s i)

/-- R154, R155, R157: what `decode` means for any table. The input is the codewords of the symbols found, each the
smallest symbol of its codeword and no other codeword a prefix of that, and on a failure a leftover no nonempty prefix of
which is a codeword; the sub-cause says whether the leftover begins one. -/
def Obligations.DecodeSplitsTheInput : Prop :=
  ∀ (T : Nat → List Bool) (bits : List Bool),
    (∀ y, decodeBits T bits = .ok y → (bits = y.flatMap fun e => T e.toNat) ∧
      ∀ e ∈ y, T e.toNat ≠ [] ∧
        ∀ a < 256, T a ≠ [] → T a <+: T e.toNat → T a = T e.toNat ∧ e.toNat ≤ a) ∧
      ∀ sub, decodeBits T bits = .error sub →
        ∃ (y : List Byte) (acc : List Bool), (bits = (y.flatMap fun e => T e.toNat) ++ acc) ∧ acc ≠ [] ∧
          (∀ e ∈ y, T e.toNat ≠ [] ∧
            ∀ a < 256, T a ≠ [] → T a <+: T e.toNat → T a = T e.toNat ∧ e.toNat ≤ a) ∧
          (∀ a < 256, T a ≠ [] → ¬T a <+: acc) ∧
          ((∃ a < 256, T a ≠ [] ∧ acc <+: T a) → sub = 1) ∧
          ((∀ a < 256, T a ≠ [] → ¬acc <+: T a) → sub = 2)

/-- R190, R192: `calcR(k)` is the least `r` with `2^r >= k + r + 1`, and HAM.CALCR writes that of `ARG` to `RES` and
nothing else, in every state. -/
def Obligations.CalcrGivesTheLeastParityCount : Prop :=
  (∀ k : Nat, k + calcR k + 1 ≤ 2 ^ calcR k ∧ ∀ r < calcR k, 2 ^ r < k + r + 1) ∧
    ∀ s : State, ∃ t, exec .hamCalcr s = .next t ∧ t = { s with status := 0, res := t.res, olen := 0 } ∧
      t.res.toNat = calcR s.arg.toNat

/-- R195, R204: HAM.ENCB. -/
def Obligations.BlockEncodeCompletes : Prop :=
  ∀ s : State,
    (s.cfg.ibufCap < s.ilen.toNat → exec .hamEncb s = .next (Failed 0x04 s)) ∧
      (s.ilen.toNat ≤ s.cfg.ibufCap → (s.cfgK = 0 ∨ s.ilen ≠ s.cfgK) → exec .hamEncb s = .next (Failed 0x02 s)) ∧
      (s.ilen.toNat ≤ s.cfg.ibufCap → s.cfgK ≠ 0 → s.ilen = s.cfgK →
        s.cfg.obufCap < s.cfgK.toNat + calcR s.cfgK.toNat → exec .hamEncb s = .next (Failed 0x05 s)) ∧
      (s.ilen.toNat ≤ s.cfg.ibufCap → s.cfgK ≠ 0 → s.ilen = s.cfgK →
        s.cfgK.toNat + calcR s.cfgK.toNat ≤ s.cfg.obufCap → ∃ t, exec .hamEncb s = .next t ∧
          t = { s with
            status := 0, res := BitVec.ofNat 32 (calcR s.cfgK.toNat),
            olen := BitVec.ofNat 32 (s.cfgK.toNat + calcR s.cfgK.toNat), obuf := t.obuf } ∧
          (∀ p, 1 ≤ p → p ≤ s.cfgK.toNat + calcR s.cfgK.toNat →
            obufAt t (p - 1) = bitElem (posBit (encodeBlock s.cfgK.toNat (bitsOf s)) p)) ∧
          ∀ i, s.cfgK.toNat + calcR s.cfgK.toNat ≤ i → obufAt t i = obufAt s i)

/-- R193, R194: an encoded block has its data bits at the data positions, ascending, and even parity over every check
group, so that its syndrome is 0. -/
def Obligations.EncodedBlockHasDataAndEvenParity : Prop :=
  ∀ (k : Nat) (d : List Bool), 1 ≤ k → d.length = k →
    (encodeBlock k d).length = k + calcR k ∧
      (∀ j < k, posBit (encodeBlock k d) ((dataPos k).getD j 0) = bitAt d j) ∧
      (∀ i < calcR k,
        (((List.range (k + calcR k)).filter fun q => (q + 1).testBit i).foldl
          (fun acc q => acc ^^ posBit (encodeBlock k d) (q + 1)) false) = false) ∧
      syndrome k (encodeBlock k d) = 0

/-- R198, R204: HAM.DECB. -/
def Obligations.BlockDecodeCompletes : Prop :=
  ∀ s : State,
    (s.cfg.ibufCap < s.ilen.toNat → exec .hamDecb s = .next (Failed 0x04 s)) ∧
      (s.ilen.toNat ≤ s.cfg.ibufCap → (s.cfgK = 0 ∨ s.ilen.toNat ≠ s.cfgK.toNat + calcR s.cfgK.toNat) →
        exec .hamDecb s = .next (Failed 0x02 s)) ∧
      (s.ilen.toNat ≤ s.cfg.ibufCap → s.cfgK ≠ 0 → s.ilen.toNat = s.cfgK.toNat + calcR s.cfgK.toNat →
        s.cfg.obufCap < s.cfgK.toNat → exec .hamDecb s = .next (Failed 0x05 s)) ∧
      (s.ilen.toNat ≤ s.cfg.ibufCap → s.cfgK ≠ 0 → s.ilen.toNat = s.cfgK.toNat + calcR s.cfgK.toNat →
        s.cfgK.toNat ≤ s.cfg.obufCap → ∃ t, exec .hamDecb s = .next t ∧
          t = { s with
            status := t.status, res := BitVec.ofNat 32 (syndrome s.cfgK.toNat (bitsOf s)), olen := s.cfgK,
            obuf := t.obuf } ∧
          t.res.toNat = syndrome s.cfgK.toNat (bitsOf s) ∧
          t.status = (if syndrome s.cfgK.toNat (bitsOf s) = 0 then 0x00
            else if syndrome s.cfgK.toNat (bitsOf s) ≤ s.cfgK.toNat + calcR s.cfgK.toNat then 0x10 else 0x30) ∧
          (∀ j < s.cfgK.toNat, obufAt t j = bitElem (
            if (dataPos s.cfgK.toNat).getD j 0 = syndrome s.cfgK.toNat (bitsOf s)
            then !posBit (bitsOf s) ((dataPos s.cfgK.toNat).getD j 0)
            else posBit (bitsOf s) ((dataPos s.cfgK.toNat).getD j 0))) ∧
          ∀ j, s.cfgK.toNat ≤ j → obufAt t j = obufAt s j)

/-- R200, R201, R204: HAM.ENC. Element `t*n + p - 1` of the output is position `p` of the encoding of block `t`, whose
data are the input's bits `t*k .. t*k + k - 1`, zeros beyond its end. -/
def Obligations.StreamEncodeCompletes : Prop :=
  ∀ s : State,
    (s.cfg.ibufCap < s.ilen.toNat → exec .hamEnc s = .next (Failed 0x04 s)) ∧
      (s.ilen.toNat ≤ s.cfg.ibufCap → s.cfgK = 0 → exec .hamEnc s = .next (Failed 0x02 s)) ∧
      (s.ilen.toNat ≤ s.cfg.ibufCap → s.cfgK ≠ 0 →
        s.cfg.obufCap < ceilDiv s.ilen.toNat s.cfgK.toNat * (s.cfgK.toNat + calcR s.cfgK.toNat) →
        exec .hamEnc s = .next (Failed 0x05 s)) ∧
      (s.ilen.toNat ≤ s.cfg.ibufCap → s.cfgK ≠ 0 →
        ceilDiv s.ilen.toNat s.cfgK.toNat * (s.cfgK.toNat + calcR s.cfgK.toNat) ≤ s.cfg.obufCap →
        ∃ t, exec .hamEnc s = .next t ∧
          t = { s with
            status := 0, res := BitVec.ofNat 32 (ceilDiv s.ilen.toNat s.cfgK.toNat),
            olen := BitVec.ofNat 32
              (ceilDiv s.ilen.toNat s.cfgK.toNat * (s.cfgK.toNat + calcR s.cfgK.toNat)),
            obuf := t.obuf } ∧
          (∀ u < ceilDiv s.ilen.toNat s.cfgK.toNat, ∀ q < s.cfgK.toNat + calcR s.cfgK.toNat,
            obufAt t (u * (s.cfgK.toNat + calcR s.cfgK.toNat) + q) =
              bitElem (posBit (encodeBlock s.cfgK.toNat ((List.range s.cfgK.toNat).map fun j =>
                bitAt (bitsOf s) (u * s.cfgK.toNat + j))) (q + 1))) ∧
          ∀ i, ceilDiv s.ilen.toNat s.cfgK.toNat * (s.cfgK.toNat + calcR s.cfgK.toNat) ≤ i →
            obufAt t i = obufAt s i)

/-- R202, R203, R204: HAM.DEC. Each block of `n` bits is decoded by itself; `RES` counts the blocks of nonzero syndrome. -/
def Obligations.StreamDecodeCompletes : Prop :=
  ∀ s : State,
    (s.cfg.ibufCap < s.ilen.toNat → exec .hamDec s = .next (Failed 0x04 s)) ∧
      (s.ilen.toNat ≤ s.cfg.ibufCap →
        (s.cfgK = 0 ∨ s.ilen.toNat % (s.cfgK.toNat + calcR s.cfgK.toNat) ≠ 0) →
        exec .hamDec s = .next (Failed 0x02 s)) ∧
      (s.ilen.toNat ≤ s.cfg.ibufCap → s.cfgK ≠ 0 →
        s.ilen.toNat % (s.cfgK.toNat + calcR s.cfgK.toNat) = 0 →
        s.cfg.obufCap < s.ilen.toNat / (s.cfgK.toNat + calcR s.cfgK.toNat) * s.cfgK.toNat →
        exec .hamDec s = .next (Failed 0x05 s)) ∧
      (s.ilen.toNat ≤ s.cfg.ibufCap → s.cfgK ≠ 0 →
        s.ilen.toNat % (s.cfgK.toNat + calcR s.cfgK.toNat) = 0 →
        s.ilen.toNat / (s.cfgK.toNat + calcR s.cfgK.toNat) * s.cfgK.toNat ≤ s.cfg.obufCap →
        ∃ t, exec .hamDec s = .next t ∧
          t = { s with
            status := t.status,
            res := BitVec.ofNat 32 ((List.range (s.ilen.toNat / (s.cfgK.toNat + calcR s.cfgK.toNat))).countP fun u =>
              decide (syndrome s.cfgK.toNat (codeBlock s.cfgK.toNat (bitsOf s) u) ≠ 0)),
            olen := BitVec.ofNat 32 (s.ilen.toNat / (s.cfgK.toNat + calcR s.cfgK.toNat) * s.cfgK.toNat),
            obuf := t.obuf } ∧
          statusErr t.status = 0 ∧ statusSub t.status = 0 ∧ statusReserved t.status = 0 ∧
          statusErrdet t.status = decide (t.res ≠ 0) ∧
          statusSynrange t.status =
            ((List.range (s.ilen.toNat / (s.cfgK.toNat + calcR s.cfgK.toNat))).any fun u =>
              decide (s.cfgK.toNat + calcR s.cfgK.toNat <
                syndrome s.cfgK.toNat (codeBlock s.cfgK.toNat (bitsOf s) u))) ∧
          (∀ u < s.ilen.toNat / (s.cfgK.toNat + calcR s.cfgK.toNat), ∀ j < s.cfgK.toNat,
            obufAt t (u * s.cfgK.toNat + j) =
              bitElem (bitAt (decodeBlock s.cfgK.toNat (codeBlock s.cfgK.toNat (bitsOf s) u)).data j)) ∧
          ∀ i, s.ilen.toNat / (s.cfgK.toNat + calcR s.cfgK.toNat) * s.cfgK.toNat ≤ i → obufAt t i = obufAt s i)

/-- R230, R231, R232: HAM.NOISE, whatever its draws are: `ARG` positions in range (none for an empty input), each output
bit flipped when it was drawn an odd number of times. Nothing is said of where the draws come from (log entry 4). -/
def Obligations.NoiseFlipsTheDrawnPositions : Prop :=
  ∀ s : State,
    (s.cfg.ibufCap < s.ilen.toNat → exec .hamNoise s = .next (Failed 0x04 s)) ∧
      (s.ilen.toNat ≤ s.cfg.ibufCap → s.cfg.obufCap < s.ilen.toNat → exec .hamNoise s = .next (Failed 0x05 s)) ∧
      (s.ilen.toNat ≤ s.cfg.ibufCap → s.ilen.toNat ≤ s.cfg.obufCap →
        ∃ (t : State) (pos : List Nat), exec .hamNoise s = .next t ∧
          pos.length = (if s.ilen = 0 then 0 else s.arg.toNat) ∧ (∀ p ∈ pos, p < s.ilen.toNat) ∧
          t = { s with status := 0, res := 0, olen := s.ilen, obuf := t.obuf, draws := t.draws } ∧
          (∀ i < s.ilen.toNat,
            obufAt t i = bitElem ((ibufAt s i).getLsbD 0 ^^ decide (pos.count i % 2 = 1))) ∧
          ∀ i, s.ilen.toNat ≤ i → obufAt t i = obufAt s i)

/-- R230: `noise` flips each position drawn an odd number of times; the set of flipped positions has at most as many
members as draws were made, and the same parity; and every such set occurs for some draws. -/
def Obligations.NoiseFlipsAnEvenlySmallerSet : Prop :=
  (∀ (b : List Bool) (pos : List Nat), (noise b pos).length = b.length ∧
    ∀ t < b.length, bitAt (noise b pos) t = (bitAt b t ^^ decide (pos.count t % 2 = 1))) ∧
  (∀ (b : List Bool) (pos : List Nat), (∀ p ∈ pos, p < b.length) →
    ((List.range b.length).filter fun t => bitAt (noise b pos) t != bitAt b t).length ≤ pos.length ∧
      (pos.length - ((List.range b.length).filter fun t => bitAt (noise b pos) t != bitAt b t).length) % 2 = 0) ∧
    ∀ (b : List Bool) (flips : List Nat) (e : Nat), b ≠ [] → flips.Nodup → (∀ p ∈ flips, p < b.length) →
      flips.length ≤ e → (e - flips.length) % 2 = 0 →
      ∃ pos : List Nat, pos.length = e ∧ (∀ p ∈ pos, p < b.length) ∧
        ∀ t < b.length, bitAt (noise b pos) t = (bitAt b t ^^ decide (t ∈ flips))

/-! ### Rules over all commands -/

/-- R111, R245: with `ILEN > IBUF_CAP` each command that reads IBUF fails with BAD_OPERAND before anything else it
might report. -/
def Obligations.InputTooLongIsBadOperand : Prop :=
  ∀ (i : Instr) (s : State), i ∈ readsIbuf → s.cfg.ibufCap < s.ilen.toNat → exec i s = .next (Failed 0x04 s)

/-- R250: a command that ends with a nonzero `ERR` has written the failure frame and nothing else, with one of the
listed values in `STATUS` (0x03 is left by illegal words alone, which are no command). -/
def Obligations.FailureWritesOnlyTheFrame : Prop :=
  ∀ (i : Instr) (s t : State), exec i s = .next t → statusErr t.status ≠ 0 →
    t = { s with status := t.status, res := 0, olen := 0 } ∧
      t.status ∈ ([0x41, 0x81, 0x02, 0x04, 0x05] : List Word)

/-- R34, R25, R241: flags are 0 but after a successful HAM.DECB or HAM.DEC; `SUB` is 0 but after UNKNOWN_SYMBOL, which
only HUF.DEC raises; CONFIG_MISMATCH comes from four Hamming commands only; no command reads `STATUS`; it is 0 at reset. -/
def Obligations.FlagsAndErrorsByCommand : Prop :=
  (∀ (i : Instr) (s t : State), exec i s = .next t →
    (statusErrdet t.status = true ∨ statusSynrange t.status = true →
      (i = .hamDecb ∨ i = .hamDec) ∧ statusErr t.status = 0) ∧
      (statusSub t.status ≠ 0 → statusErr t.status = 1) ∧
      (statusErr t.status = 1 → i = .hufDec ∧ (statusSub t.status = 1 ∨ statusSub t.status = 2)) ∧
      (statusErr t.status = 2 → i ∈ ([.hamEncb, .hamDecb, .hamEnc, .hamDec] : List Instr)) ∧
      (statusErr t.status = 4 → i ∈ readsIbuf) ∧
      statusErr t.status ≠ 3 ∧ statusErr t.status ≤ 5 ∧ statusReserved t.status = 0) ∧
    (∀ (i : Instr) (s : State) (v : Word), exec i { s with status := v } = exec i s) ∧
    State.reset.status = 0

/-- R76: what no command but the listed ones writes. The capacities, the host's list and the host's last read are the
model's own fields and no command writes them. -/
def Obligations.CommandsWriteOnlyTheirSpaces : Prop :=
  ∀ (i : Instr) (s t : State), exec i s = .next t →
    t.cfgK = s.cfgK ∧ t.arg = s.arg ∧
      (i ≠ .sysMov → t.ibuf = s.ibuf ∧ t.ilen = s.ilen) ∧
      (i ≠ .packPack → t.bitlen = s.bitlen) ∧
      (i ≠ .hufFreq → i ≠ .hufEnc → t.freq = s.freq) ∧
      (i ≠ .hufCodes → i ≠ .hufEnc → t.cwt = s.cwt) ∧
      (i ≠ .hufTree → i ≠ .hufEnc → t.node = s.node ∧ t.nnodes = s.nnodes ∧ t.root = s.root) ∧
      (i ∈ ([.sysNop, .sysMov, .hufFreq, .hufTree, .hufCodes, .hamCalcr] : List Instr) →
        t.obuf = s.obuf ∧ t.olen = 0) ∧
      t.cfg = s.cfg ∧ t.pending = s.pending ∧ t.hostData = s.hostData ∧ (i ≠ .hamNoise → t.draws = s.draws)

/-- R112, R250: a command stores to OBUF exactly below the `OLEN` it leaves: every byte from there on is as before.
The capacities are in their range (R9), so that `OLEN` holds the output's length. -/
def Obligations.OutputBeyondLengthIsKept : Prop :=
  ∀ (i : Instr) (s t : State), s.cfg.wf = true → exec i s = .next t →
    ∀ a, t.olen.toNat ≤ a → obufAt t a = obufAt s a

/-! ### Laws of the bit-packer -/

/-- R124: packing and unpacking. -/
def Obligations.PackAndUnpackLaws : Prop :=
  (∀ b : List Bool, unpack (pack b) b.length = b) ∧
    (∀ bytes : List Byte, pack (unpack bytes (8 * bytes.length)) = bytes ∧
      (unpack bytes (8 * bytes.length)).length = 8 * bytes.length) ∧
    (∀ b : List Bool, unpack (pack b) (8 * (pack b).length) =
      b ++ List.replicate (8 * (pack b).length - b.length) false) ∧
    ∀ b : List Bool, (pack b).length = ceilDiv b.length 8

/-- R124(a) on the machine: PACK.PACK, SYS.MOV, PACK.UNPACK give the bits back, the bit length travelling in `BITLEN`. -/
def Obligations.PackMoveUnpackRestoresTheBits : Prop :=
  ∀ s : State, s.ilen.toNat ≤ s.cfg.ibufCap → s.ilen.toNat ≤ s.cfg.obufCap →
    ∃ t₁ t₂ t₃, exec .packPack s = .next t₁ ∧ exec .sysMov t₁ = .next t₂ ∧ exec .packUnpack t₂ = .next t₃ ∧
      t₃.status = 0 ∧ outputOf t₃ = (bitsOf s).map bitElem

/-! ### Laws of the Huffman unit -/

/-- R141: the counts sum to the input's length, and a symbol of count 0 is absent from the input. -/
def Obligations.CountsSumToTheLength : Prop :=
  ∀ x : List Byte, ((List.range 256).map (freqOf x)).sum = x.length ∧
    ∀ a < 256, freqOf x a = 0 ↔ BitVec.ofNat 8 a ∉ x

/-- R150(a) to (d): the table made from a tree has a codeword for exactly the present symbols, is prefix-free and
injective, and its codewords have `1` to `max(1, m - 1)` bits, at most 255. -/
def Obligations.CodewordsArePrefixFree : Prop :=
  ∀ F : Nat → Nat,
    (∀ a < 256, codesOf (treeOf F) a ≠ [] ↔ 0 < F a) ∧ PrefixFree (codesOf (treeOf F)) ∧
      (∀ a < 256, ∀ b < 256, codesOf (treeOf F) a ≠ [] → codesOf (treeOf F) a = codesOf (treeOf F) b → a = b) ∧
      ∀ a < 256, 0 < F a → 1 ≤ (codesOf (treeOf F) a).length ∧
        (codesOf (treeOf F) a).length ≤ max 1 (((List.range 256).countP fun b => decide (0 < F b)) - 1) ∧
        (codesOf (treeOf F) a).length ≤ 255

/-- R150(e): the Kraft sum is exactly 1 for two symbols or more, 1/2 for one (here times `2^255`). -/
def Obligations.KraftSumIsExact : Prop :=
  ∀ F : Nat → Nat,
    (2 ≤ ((List.range 256).countP fun a => decide (0 < F a)) →
      (((List.range 256).filter fun a => decide (0 < F a)).map fun a =>
        2 ^ (255 - (codesOf (treeOf F) a).length)).sum = 2 ^ 255) ∧
      (((List.range 256).countP fun a => decide (0 < F a)) = 1 →
        (((List.range 256).filter fun a => decide (0 < F a)).map fun a =>
          2 ^ (255 - (codesOf (treeOf F) a).length)).sum = 2 ^ 254)

/-- R158(b): decoding what any prefix-free table serialized gives the symbols back. -/
def Obligations.DecodeInvertsSerialize : Prop :=
  ∀ (T : Nat → List Bool) (x : List Byte), PrefixFree T → (∀ e ∈ x, T e.toNat ≠ []) →
    decodeBits T (serialize T x) = .ok x

/-- R158(a) on the machine: HUF.ENC, SYS.MOV, HUF.DEC give the symbols back, for every input, empty and of one symbol
included. The capacities are in their range (R9). -/
def Obligations.HuffmanRoundTripOnTheMachine : Prop :=
  ∀ s t₁ : State, s.cfg.wf = true → s.ilen.toNat ≤ s.cfg.ibufCap → s.ilen.toNat ≤ s.cfg.obufCap →
    exec .hufEnc s = .next t₁ → statusErr t₁.status = 0 → t₁.olen.toNat ≤ s.cfg.ibufCap →
    ∃ t₂ t₃, exec .sysMov t₁ = .next t₂ ∧ exec .hufDec t₂ = .next t₃ ∧ t₃.status = 0 ∧ outputOf t₃ = symsOf s

/-! ### Laws of the Hamming unit -/

/-- R191: the facts about positions that follow from the minimality of `r`. -/
def Obligations.BlockPositionsFacts : Prop :=
  ∀ k : Nat, 1 ≤ k →
    2 ≤ calcR k ∧ 2 ^ (calcR k - 1) < k + calcR k ∧ k + calcR k < 2 ^ calcR k ∧
      parPos k = (List.range (calcR k)).map (2 ^ ·) ∧
      (dataPos k).length = k ∧ (dataPos k).Pairwise (· < ·) ∧
      (∀ p, p ∈ dataPos k ↔ 1 ≤ p ∧ p ≤ k + calcR k ∧ ∀ i, p ≠ 2 ^ i) ∧
      (∀ i p, p ∈ checkGroup k i ↔ 1 ≤ p ∧ p ≤ k + calcR k ∧ p.testBit i = true) ∧
      ∀ i < calcR k, ∀ j, 2 ^ i ∈ checkGroup k j ↔ j = i

/-- R199: the syndrome of an encoded block with the positions of `E` flipped is the exclusive-or of those positions. -/
def Obligations.SyndromeIsXorOfFlips : Prop :=
  ∀ (k : Nat) (d : List Bool) (E : List Nat), 1 ≤ k → d.length = k → E.Nodup →
    (∀ p ∈ E, 1 ≤ p ∧ p ≤ k + calcR k) →
    syndrome k (flipPositions (encodeBlock k d) E) = E.foldl (fun acc p => acc ^^^ p) 0

/-- R199(a), (b): a clean block decodes to its data with no error reported; a block with one wrong bit decodes to its
data, with the error reported and its position as syndrome. -/
def Obligations.SingleErrorIsCorrected : Prop :=
  ∀ (k : Nat) (d : List Bool), 1 ≤ k → d.length = k →
    decodeBlock k (encodeBlock k d) = { data := d, errdet := false, synrange := false, info := 0 } ∧
      ∀ e, 1 ≤ e → e ≤ k + calcR k →
        decodeBlock k (flipPositions (encodeBlock k d) [e]) =
          { data := d, errdet := true, synrange := false, info := e }

/-- R199(c): two wrong bits always give a nonzero syndrome, which is neither position. -/
def Obligations.DoubleErrorIsDetectedNotLocated : Prop :=
  ∀ (k : Nat) (d : List Bool) (e₁ e₂ : Nat), 1 ≤ k → d.length = k → 1 ≤ e₁ → e₁ ≤ k + calcR k → 1 ≤ e₂ →
    e₂ ≤ k + calcR k → e₁ ≠ e₂ →
    (decodeBlock k (flipPositions (encodeBlock k d) [e₁, e₂])).info = e₁ ^^^ e₂ ∧
      (decodeBlock k (flipPositions (encodeBlock k d) [e₁, e₂])).errdet = true ∧
      ((decodeBlock k (flipPositions (encodeBlock k d) [e₁, e₂])).synrange = true ↔ k + calcR k < e₁ ^^^ e₂) ∧
      e₁ ^^^ e₂ ≠ 0 ∧ e₁ ^^^ e₂ ≠ e₁ ∧ e₁ ^^^ e₂ ≠ e₂

/-- R205: a stream decodes to its bits and the pad, also when at most one bit of each block is wrong (`flips u` is the
position flipped in block `u`, 0 for none); then the count is the number of blocks with a wrong bit. -/
def Obligations.StreamRoundTripWithOneErrorPerBlock : Prop :=
  ∀ (k : Nat) (b : List Bool), 1 ≤ k →
    (codeStream k b).length = ceilDiv b.length k * (k + calcR k) ∧
      decodeStream k (codeStream k b) =
        { data := b ++ List.replicate (ceilDiv b.length k * k - b.length) false
          errdet := false, synrange := false, info := 0 } ∧
      ∀ flips : Nat → Nat, (∀ u, flips u ≤ k + calcR k) →
        (decodeStream k ((List.range (ceilDiv b.length k)).flatMap fun u =>
            flipPositions (codeBlock k (codeStream k b) u) (if flips u = 0 then [] else [flips u]))).data =
          b ++ List.replicate (ceilDiv b.length k * k - b.length) false ∧
        (decodeStream k ((List.range (ceilDiv b.length k)).flatMap fun u =>
            flipPositions (codeBlock k (codeStream k b) u) (if flips u = 0 then [] else [flips u]))).info =
          (List.range (ceilDiv b.length k)).countP fun u => decide (flips u ≠ 0)

/-- R205(b) on the machine, for every draw: HAM.ENC, SYS.MOV, HAM.NOISE with `ARG = 1`, SYS.MOV, HAM.DEC give the bits
back with the pad. It rests on no value of the draw (log entry 4). -/
def Obligations.OneNoiseFlipIsCorrectedOnTheMachine : Prop :=
  ∀ s : State, s.cfgK ≠ 0 → s.arg = 1 → s.ilen.toNat ≤ s.cfg.ibufCap →
    ceilDiv s.ilen.toNat s.cfgK.toNat * (s.cfgK.toNat + calcR s.cfgK.toNat) ≤ s.cfg.obufCap →
    ceilDiv s.ilen.toNat s.cfgK.toNat * (s.cfgK.toNat + calcR s.cfgK.toNat) ≤ s.cfg.ibufCap → s.cfg.wf = true →
    ∃ t₁ t₂ t₃ t₄ t₅, exec .hamEnc s = .next t₁ ∧ exec .sysMov t₁ = .next t₂ ∧ exec .hamNoise t₂ = .next t₃ ∧
      exec .sysMov t₃ = .next t₄ ∧ exec .hamDec t₄ = .next t₅ ∧ statusErr t₅.status = 0 ∧
      t₅.res = (if s.ilen = 0 then 0 else 1) ∧
      outputOf t₅ = (bitsOf s ++ List.replicate
        (ceilDiv s.ilen.toNat s.cfgK.toNat * s.cfgK.toNat - s.ilen.toNat) false).map bitElem

/-! ### Invariants and safety -/

/-- R9, R25, R28, R42, R43: the reset state is good. -/
def Obligations.ResetStateIsGood : Prop := Good State.reset

/-- Every step keeps the canonical form and the bounds of the five memories (R35 to R39, R60). -/
def Obligations.StepKeepsMemoriesCanonical : Prop :=
  ∀ s t : State, MemoriesWf s → step s = .next t → MemoriesWf t

/-- R25, R28: every step keeps `STATUS` a legal value and `OLEN` within OBUF. -/
def Obligations.StepKeepsStatusAndOutputLegal : Prop :=
  ∀ s t : State, step s = .next t →
    (StatusLegal s.status → StatusLegal t.status) ∧ (OutputFits s → OutputFits t)

/-- R43: NODE is empty or one strict binary tree, at reset and after every step from a state of which it is true. -/
def Obligations.StepKeepsTheTreeInvariant : Prop :=
  NodeInvariant State.reset ∧ ∀ s t : State, NodeInvariant s → step s = .next t → NodeInvariant t

/-- R240: in a state whose NODE is as R43 says, every step answers a next state: the hardware never stops. -/
def Obligations.GoodMachineNeverStops : Prop :=
  ∀ s : State, NodeInvariant s → SafeStep s
end

