-- ==== Sys2Proof/Laws/State.lean ====
section
/-! SUPPORT. One lemma per field of State for each named update, so that no proof unfolds a record update. -/

namespace Sys2Proof.Machine

@[simp] theorem failFrame_status (e : ErrCode) (sub : BitVec 2) (s : State) :
    (failFrame e sub s).status = statusWord e false false sub := rfl
@[simp] theorem failFrame_cfgK (e : ErrCode) (sub : BitVec 2) (s : State) : (failFrame e sub s).cfgK = s.cfgK := rfl
@[simp] theorem failFrame_arg (e : ErrCode) (sub : BitVec 2) (s : State) : (failFrame e sub s).arg = s.arg := rfl
@[simp] theorem failFrame_ilen (e : ErrCode) (sub : BitVec 2) (s : State) : (failFrame e sub s).ilen = s.ilen := rfl
@[simp] theorem failFrame_olen (e : ErrCode) (sub : BitVec 2) (s : State) : (failFrame e sub s).olen = 0 := rfl
@[simp] theorem failFrame_bitlen (e : ErrCode) (sub : BitVec 2) (s : State) :
    (failFrame e sub s).bitlen = s.bitlen := rfl
@[simp] theorem failFrame_res (e : ErrCode) (sub : BitVec 2) (s : State) : (failFrame e sub s).res = 0 := rfl
@[simp] theorem failFrame_nnodes (e : ErrCode) (sub : BitVec 2) (s : State) :
    (failFrame e sub s).nnodes = s.nnodes := rfl
@[simp] theorem failFrame_root (e : ErrCode) (sub : BitVec 2) (s : State) : (failFrame e sub s).root = s.root := rfl
@[simp] theorem failFrame_ibuf (e : ErrCode) (sub : BitVec 2) (s : State) : (failFrame e sub s).ibuf = s.ibuf := rfl
@[simp] theorem failFrame_obuf (e : ErrCode) (sub : BitVec 2) (s : State) : (failFrame e sub s).obuf = s.obuf := rfl
@[simp] theorem failFrame_freq (e : ErrCode) (sub : BitVec 2) (s : State) : (failFrame e sub s).freq = s.freq := rfl
@[simp] theorem failFrame_cwt (e : ErrCode) (sub : BitVec 2) (s : State) : (failFrame e sub s).cwt = s.cwt := rfl
@[simp] theorem failFrame_node (e : ErrCode) (sub : BitVec 2) (s : State) : (failFrame e sub s).node = s.node := rfl
@[simp] theorem failFrame_cfg (e : ErrCode) (sub : BitVec 2) (s : State) : (failFrame e sub s).cfg = s.cfg := rfl
@[simp] theorem failFrame_pending (e : ErrCode) (sub : BitVec 2) (s : State) :
    (failFrame e sub s).pending = s.pending := rfl
@[simp] theorem failFrame_hostData (e : ErrCode) (sub : BitVec 2) (s : State) :
    (failFrame e sub s).hostData = s.hostData := rfl
@[simp] theorem failFrame_draws (e : ErrCode) (sub : BitVec 2) (s : State) :
    (failFrame e sub s).draws = s.draws := rfl

@[simp] theorem successFrame_status (out : List Byte) (n : Nat) (ed sr : Bool) (s : State) :
    (successFrame out n ed sr s).status = statusWord .ok ed sr 0 := rfl
@[simp] theorem successFrame_cfgK (out : List Byte) (n : Nat) (ed sr : Bool) (s : State) :
    (successFrame out n ed sr s).cfgK = s.cfgK := rfl
@[simp] theorem successFrame_arg (out : List Byte) (n : Nat) (ed sr : Bool) (s : State) :
    (successFrame out n ed sr s).arg = s.arg := rfl
@[simp] theorem successFrame_ilen (out : List Byte) (n : Nat) (ed sr : Bool) (s : State) :
    (successFrame out n ed sr s).ilen = s.ilen := rfl
@[simp] theorem successFrame_olen (out : List Byte) (n : Nat) (ed sr : Bool) (s : State) :
    (successFrame out n ed sr s).olen = BitVec.ofNat 32 out.length := rfl
@[simp] theorem successFrame_bitlen (out : List Byte) (n : Nat) (ed sr : Bool) (s : State) :
    (successFrame out n ed sr s).bitlen = s.bitlen := rfl
@[simp] theorem successFrame_res (out : List Byte) (n : Nat) (ed sr : Bool) (s : State) :
    (successFrame out n ed sr s).res = BitVec.ofNat 32 n := rfl
@[simp] theorem successFrame_nnodes (out : List Byte) (n : Nat) (ed sr : Bool) (s : State) :
    (successFrame out n ed sr s).nnodes = s.nnodes := rfl
@[simp] theorem successFrame_root (out : List Byte) (n : Nat) (ed sr : Bool) (s : State) :
    (successFrame out n ed sr s).root = s.root := rfl
@[simp] theorem successFrame_ibuf (out : List Byte) (n : Nat) (ed sr : Bool) (s : State) :
    (successFrame out n ed sr s).ibuf = s.ibuf := rfl
@[simp] theorem successFrame_obuf (out : List Byte) (n : Nat) (ed sr : Bool) (s : State) :
    (successFrame out n ed sr s).obuf = memWriteSeq 0 s.obuf 0 out := rfl
@[simp] theorem successFrame_freq (out : List Byte) (n : Nat) (ed sr : Bool) (s : State) :
    (successFrame out n ed sr s).freq = s.freq := rfl
@[simp] theorem successFrame_cwt (out : List Byte) (n : Nat) (ed sr : Bool) (s : State) :
    (successFrame out n ed sr s).cwt = s.cwt := rfl
@[simp] theorem successFrame_node (out : List Byte) (n : Nat) (ed sr : Bool) (s : State) :
    (successFrame out n ed sr s).node = s.node := rfl
@[simp] theorem successFrame_cfg (out : List Byte) (n : Nat) (ed sr : Bool) (s : State) :
    (successFrame out n ed sr s).cfg = s.cfg := rfl
@[simp] theorem successFrame_pending (out : List Byte) (n : Nat) (ed sr : Bool) (s : State) :
    (successFrame out n ed sr s).pending = s.pending := rfl
@[simp] theorem successFrame_hostData (out : List Byte) (n : Nat) (ed sr : Bool) (s : State) :
    (successFrame out n ed sr s).hostData = s.hostData := rfl
@[simp] theorem successFrame_draws (out : List Byte) (n : Nat) (ed sr : Bool) (s : State) :
    (successFrame out n ed sr s).draws = s.draws := rfl

@[simp] theorem storeFreq_status (F : Nat → Nat) (s : State) : (storeFreq F s).status = s.status := rfl
@[simp] theorem storeFreq_cfgK (F : Nat → Nat) (s : State) : (storeFreq F s).cfgK = s.cfgK := rfl
@[simp] theorem storeFreq_arg (F : Nat → Nat) (s : State) : (storeFreq F s).arg = s.arg := rfl
@[simp] theorem storeFreq_ilen (F : Nat → Nat) (s : State) : (storeFreq F s).ilen = s.ilen := rfl
@[simp] theorem storeFreq_olen (F : Nat → Nat) (s : State) : (storeFreq F s).olen = s.olen := rfl
@[simp] theorem storeFreq_bitlen (F : Nat → Nat) (s : State) : (storeFreq F s).bitlen = s.bitlen := rfl
@[simp] theorem storeFreq_res (F : Nat → Nat) (s : State) : (storeFreq F s).res = s.res := rfl
@[simp] theorem storeFreq_nnodes (F : Nat → Nat) (s : State) : (storeFreq F s).nnodes = s.nnodes := rfl
@[simp] theorem storeFreq_root (F : Nat → Nat) (s : State) : (storeFreq F s).root = s.root := rfl
@[simp] theorem storeFreq_ibuf (F : Nat → Nat) (s : State) : (storeFreq F s).ibuf = s.ibuf := rfl
@[simp] theorem storeFreq_obuf (F : Nat → Nat) (s : State) : (storeFreq F s).obuf = s.obuf := rfl
@[simp] theorem storeFreq_freq (F : Nat → Nat) (s : State) : (storeFreq F s).freq = freqMemOf F := rfl
@[simp] theorem storeFreq_cwt (F : Nat → Nat) (s : State) : (storeFreq F s).cwt = s.cwt := rfl
@[simp] theorem storeFreq_node (F : Nat → Nat) (s : State) : (storeFreq F s).node = s.node := rfl
@[simp] theorem storeFreq_cfg (F : Nat → Nat) (s : State) : (storeFreq F s).cfg = s.cfg := rfl
@[simp] theorem storeFreq_pending (F : Nat → Nat) (s : State) : (storeFreq F s).pending = s.pending := rfl
@[simp] theorem storeFreq_hostData (F : Nat → Nat) (s : State) : (storeFreq F s).hostData = s.hostData := rfl
@[simp] theorem storeFreq_draws (F : Nat → Nat) (s : State) : (storeFreq F s).draws = s.draws := rfl

@[simp] theorem storeTree_status (nodes : List HNode) (s : State) : (storeTree nodes s).status = s.status := rfl
@[simp] theorem storeTree_cfgK (nodes : List HNode) (s : State) : (storeTree nodes s).cfgK = s.cfgK := rfl
@[simp] theorem storeTree_arg (nodes : List HNode) (s : State) : (storeTree nodes s).arg = s.arg := rfl
@[simp] theorem storeTree_ilen (nodes : List HNode) (s : State) : (storeTree nodes s).ilen = s.ilen := rfl
@[simp] theorem storeTree_olen (nodes : List HNode) (s : State) : (storeTree nodes s).olen = s.olen := rfl
@[simp] theorem storeTree_bitlen (nodes : List HNode) (s : State) : (storeTree nodes s).bitlen = s.bitlen := rfl
@[simp] theorem storeTree_res (nodes : List HNode) (s : State) : (storeTree nodes s).res = s.res := rfl
@[simp] theorem storeTree_nnodes (nodes : List HNode) (s : State) :
    (storeTree nodes s).nnodes = BitVec.ofNat 32 nodes.length := rfl
@[simp] theorem storeTree_root (nodes : List HNode) (s : State) :
    (storeTree nodes s).root = BitVec.ofNat 32 (nodes.length - 1) := rfl
@[simp] theorem storeTree_ibuf (nodes : List HNode) (s : State) : (storeTree nodes s).ibuf = s.ibuf := rfl
@[simp] theorem storeTree_obuf (nodes : List HNode) (s : State) : (storeTree nodes s).obuf = s.obuf := rfl
@[simp] theorem storeTree_freq (nodes : List HNode) (s : State) : (storeTree nodes s).freq = s.freq := rfl
@[simp] theorem storeTree_cwt (nodes : List HNode) (s : State) : (storeTree nodes s).cwt = s.cwt := rfl
@[simp] theorem storeTree_node (nodes : List HNode) (s : State) :
    (storeTree nodes s).node = memWriteSeq nodeEmpty s.node 0 (nodes.map nodeOf) := rfl
@[simp] theorem storeTree_cfg (nodes : List HNode) (s : State) : (storeTree nodes s).cfg = s.cfg := rfl
@[simp] theorem storeTree_pending (nodes : List HNode) (s : State) : (storeTree nodes s).pending = s.pending := rfl
@[simp] theorem storeTree_hostData (nodes : List HNode) (s : State) : (storeTree nodes s).hostData = s.hostData := rfl
@[simp] theorem storeTree_draws (nodes : List HNode) (s : State) : (storeTree nodes s).draws = s.draws := rfl

@[simp] theorem storeCodes_status (T : Nat → List Bool) (s : State) : (storeCodes T s).status = s.status := rfl
@[simp] theorem storeCodes_cfgK (T : Nat → List Bool) (s : State) : (storeCodes T s).cfgK = s.cfgK := rfl
@[simp] theorem storeCodes_arg (T : Nat → List Bool) (s : State) : (storeCodes T s).arg = s.arg := rfl
@[simp] theorem storeCodes_ilen (T : Nat → List Bool) (s : State) : (storeCodes T s).ilen = s.ilen := rfl
@[simp] theorem storeCodes_olen (T : Nat → List Bool) (s : State) : (storeCodes T s).olen = s.olen := rfl
@[simp] theorem storeCodes_bitlen (T : Nat → List Bool) (s : State) : (storeCodes T s).bitlen = s.bitlen := rfl
@[simp] theorem storeCodes_res (T : Nat → List Bool) (s : State) : (storeCodes T s).res = s.res := rfl
@[simp] theorem storeCodes_nnodes (T : Nat → List Bool) (s : State) : (storeCodes T s).nnodes = s.nnodes := rfl
@[simp] theorem storeCodes_root (T : Nat → List Bool) (s : State) : (storeCodes T s).root = s.root := rfl
@[simp] theorem storeCodes_ibuf (T : Nat → List Bool) (s : State) : (storeCodes T s).ibuf = s.ibuf := rfl
@[simp] theorem storeCodes_obuf (T : Nat → List Bool) (s : State) : (storeCodes T s).obuf = s.obuf := rfl
@[simp] theorem storeCodes_freq (T : Nat → List Bool) (s : State) : (storeCodes T s).freq = s.freq := rfl
@[simp] theorem storeCodes_cwt (T : Nat → List Bool) (s : State) : (storeCodes T s).cwt = cwtMemOf T := rfl
@[simp] theorem storeCodes_node (T : Nat → List Bool) (s : State) : (storeCodes T s).node = s.node := rfl
@[simp] theorem storeCodes_cfg (T : Nat → List Bool) (s : State) : (storeCodes T s).cfg = s.cfg := rfl
@[simp] theorem storeCodes_pending (T : Nat → List Bool) (s : State) : (storeCodes T s).pending = s.pending := rfl
@[simp] theorem storeCodes_hostData (T : Nat → List Bool) (s : State) : (storeCodes T s).hostData = s.hostData := rfl
@[simp] theorem storeCodes_draws (T : Nat → List Bool) (s : State) : (storeCodes T s).draws = s.draws := rfl

@[simp] theorem hardwareReset_status (s : State) : (hardwareReset s).status = 0 := rfl
@[simp] theorem hardwareReset_cfgK (s : State) : (hardwareReset s).cfgK = 0 := rfl
@[simp] theorem hardwareReset_arg (s : State) : (hardwareReset s).arg = 0 := rfl
@[simp] theorem hardwareReset_ilen (s : State) : (hardwareReset s).ilen = 0 := rfl
@[simp] theorem hardwareReset_olen (s : State) : (hardwareReset s).olen = 0 := rfl
@[simp] theorem hardwareReset_bitlen (s : State) : (hardwareReset s).bitlen = 0 := rfl
@[simp] theorem hardwareReset_res (s : State) : (hardwareReset s).res = 0 := rfl
@[simp] theorem hardwareReset_nnodes (s : State) : (hardwareReset s).nnodes = 0 := rfl
@[simp] theorem hardwareReset_root (s : State) : (hardwareReset s).root = 0 := rfl
@[simp] theorem hardwareReset_ibuf (s : State) : (hardwareReset s).ibuf = [] := rfl
@[simp] theorem hardwareReset_obuf (s : State) : (hardwareReset s).obuf = [] := rfl
@[simp] theorem hardwareReset_freq (s : State) : (hardwareReset s).freq = [] := rfl
@[simp] theorem hardwareReset_cwt (s : State) : (hardwareReset s).cwt = [] := rfl
@[simp] theorem hardwareReset_node (s : State) : (hardwareReset s).node = [] := rfl
@[simp] theorem hardwareReset_cfg (s : State) : (hardwareReset s).cfg = s.cfg := rfl
@[simp] theorem hardwareReset_pending (s : State) : (hardwareReset s).pending = s.pending := rfl
@[simp] theorem hardwareReset_hostData (s : State) : (hardwareReset s).hostData = s.hostData := rfl
@[simp] theorem hardwareReset_draws (s : State) : (hardwareReset s).draws = s.draws := rfl

@[simp] theorem withFetchWord_status (s : State) (nbits w : Nat) : (s.withFetchWord nbits w).status = s.status := rfl
@[simp] theorem withFetchWord_cfgK (s : State) (nbits w : Nat) : (s.withFetchWord nbits w).cfgK = s.cfgK := rfl
@[simp] theorem withFetchWord_arg (s : State) (nbits w : Nat) : (s.withFetchWord nbits w).arg = s.arg := rfl
@[simp] theorem withFetchWord_ilen (s : State) (nbits w : Nat) : (s.withFetchWord nbits w).ilen = s.ilen := rfl
@[simp] theorem withFetchWord_olen (s : State) (nbits w : Nat) : (s.withFetchWord nbits w).olen = s.olen := rfl
@[simp] theorem withFetchWord_bitlen (s : State) (nbits w : Nat) : (s.withFetchWord nbits w).bitlen = s.bitlen := rfl
@[simp] theorem withFetchWord_res (s : State) (nbits w : Nat) : (s.withFetchWord nbits w).res = s.res := rfl
@[simp] theorem withFetchWord_nnodes (s : State) (nbits w : Nat) : (s.withFetchWord nbits w).nnodes = s.nnodes := rfl
@[simp] theorem withFetchWord_root (s : State) (nbits w : Nat) : (s.withFetchWord nbits w).root = s.root := rfl
@[simp] theorem withFetchWord_ibuf (s : State) (nbits w : Nat) : (s.withFetchWord nbits w).ibuf = s.ibuf := rfl
@[simp] theorem withFetchWord_obuf (s : State) (nbits w : Nat) : (s.withFetchWord nbits w).obuf = s.obuf := rfl
@[simp] theorem withFetchWord_freq (s : State) (nbits w : Nat) : (s.withFetchWord nbits w).freq = s.freq := rfl
@[simp] theorem withFetchWord_cwt (s : State) (nbits w : Nat) : (s.withFetchWord nbits w).cwt = s.cwt := rfl
@[simp] theorem withFetchWord_node (s : State) (nbits w : Nat) : (s.withFetchWord nbits w).node = s.node := rfl
@[simp] theorem withFetchWord_cfg (s : State) (nbits w : Nat) : (s.withFetchWord nbits w).cfg = s.cfg := rfl
@[simp] theorem withFetchWord_pending (s : State) (nbits w : Nat) :
    (s.withFetchWord nbits w).pending = .write 0 0 (tableWord nbits w) :: s.pending := rfl
@[simp] theorem withFetchWord_hostData (s : State) (nbits w : Nat) :
    (s.withFetchWord nbits w).hostData = s.hostData := rfl
@[simp] theorem withFetchWord_draws (s : State) (nbits w : Nat) : (s.withFetchWord nbits w).draws = s.draws := rfl

end Sys2Proof.Machine
end

