-- ==== Sys2Proof/Laws/Frames.lean ====
section
/-! SUPPORT. What each shared operation can do, said once: the frames, the capacity check, one command, one step. -/

namespace Sys2Proof.Machine

theorem failWith_eq (e : ErrCode) (sub : BitVec 2) (s : State) : failWith e sub s = .next (failFrame e sub s) := rfl

theorem finish_of_fits {s : State} {out : List Byte} (h : out.length ≤ s.cfg.obufCap) (t : State) (n : Nat)
    (ed sr : Bool) : finish s t out n ed sr = .next (successFrame out n ed sr t) := by
  rw [finish, if_neg (by omega)]

theorem finish_of_overflow {s : State} {out : List Byte} (h : s.cfg.obufCap < out.length) (t : State) (n : Nat)
    (ed sr : Bool) : finish s t out n ed sr = .next (failFrame .capacity 0 s) := by
  rw [finish, if_pos h, failWith_eq]

theorem finish_nil (s t : State) (n : Nat) (ed sr : Bool) :
    finish s t [] n ed sr = .next (successFrame [] n ed sr t) :=
  finish_of_fits (Nat.zero_le _) ..

/-- `finish` answers a next state: the capacity failure, or the success frame over the command's own writes. -/
theorem finish_cases {s t t' : State} {out : List Byte} {n : Nat} {ed sr : Bool}
    (h : finish s t out n ed sr = .next t') :
    t' = failFrame .capacity 0 s ∨ (out.length ≤ s.cfg.obufCap ∧ t' = successFrame out n ed sr t) := by
  by_cases hc : s.cfg.obufCap < out.length
  · rw [finish_of_overflow hc] at h
    exact .inl (by injection h with h; exact h.symm)
  · rw [finish_of_fits (by omega)] at h
    exact .inr ⟨by omega, by injection h with h; exact h.symm⟩

theorem inputTooLong_eq_false {s : State} (h : s.ilen.toNat ≤ s.cfg.ibufCap) : inputTooLong s = false := by
  simp [inputTooLong]; omega

theorem inputTooLong_eq_true {s : State} (h : s.cfg.ibufCap < s.ilen.toNat) : inputTooLong s = true := by
  simp [inputTooLong, h]

/-- The writes of a command besides its success frame (R112, the last column of R76). -/
def ownWrites (i : Instr) (s : State) : State :=
  match i with
  | .sysMov => { s with ibuf := memWriteSeq 0 s.ibuf 0 (outputOf s), ilen := s.olen }
  | .packPack => { s with bitlen := s.ilen }
  | .hufFreq => storeFreq (freqOf (symsOf s)) s
  | .hufTree => storeTree (treeOf (freqTableOf s)) s
  | .hufCodes => storeCodes (codesOf (nodesOf s)) s
  | .hufEnc =>
    storeCodes (codesOf (treeOf (freqOf (symsOf s))))
      (storeTree (treeOf (freqOf (symsOf s))) (storeFreq (freqOf (symsOf s)) s))
  | .hamNoise => { s with draws := s.draws + (drawPositions s.draws s.arg.toNat s.ilen.toNat).length }
  | .sysNop | .packUnpack | .hufDec | .hamCalcr | .hamEncb | .hamDecb | .hamEnc | .hamDec => s

/-- The failures a command may end in, with their sub-causes (R241, R242). -/
def FailureLegal (e : ErrCode) (sub : BitVec 2) : Prop :=
  (e = .unknownSymbol ∧ (sub = subTruncated ∨ sub = subDeadEnd)) ∨
    ((e = .configMismatch ∨ e = .badOperand ∨ e = .capacity) ∧ sub = 0)

theorem decodeStream_synrange_errdet (k : Nat) (c : List Bool) :
    (decodeStream k c).synrange = true → (decodeStream k c).errdet = true := by
  simp only [decodeStream, List.any_eq_true]
  rintro ⟨r, hr, h⟩
  refine ⟨r, hr, ?_⟩
  simp only [decodedBlocks, List.mem_map] at hr
  obtain ⟨t, -, rfl⟩ := hr
  simp only [decodeBlock, decide_eq_true_eq] at h ⊢
  omega

theorem decodeBits_error {T : Nat → List Bool} {bits : List Bool} {sub : BitVec 2}
    (h : decodeBits T bits = .error sub) : sub = subTruncated ∨ sub = subDeadEnd := by
  simp only [decodeBits] at h
  split at h
  · cases h
  · injection h with h
    subst h
    unfold leftoverCause
    split <;> simp

/-- All a command can do: a legal failure frame over the unchanged state, or a success frame whose output fits,
over the command's own writes. Flags come from HAM.DECB and HAM.DEC alone, `SYNRANGE` only with `ERRDET`. -/
theorem exec_cases {i : Instr} {s t : State} (h : exec i s = .next t) :
    (∃ e sub, FailureLegal e sub ∧ t = failFrame e sub s) ∨
      ∃ out n ed sr, out.length ≤ s.cfg.obufCap ∧ t = successFrame out n ed sr (ownWrites i s) ∧
        (i ≠ .hamDecb → i ≠ .hamDec → ed = false) ∧ (sr = true → ed = true) := by
  have fail : ∀ {e : ErrCode} {sub : BitVec 2}, FailureLegal e sub → failWith e sub s = .next t →
      ∃ e sub, FailureLegal e sub ∧ t = failFrame e sub s := by
    intro e sub hl hf
    rw [failWith_eq] at hf
    injection hf with hf
    exact ⟨e, sub, hl, hf.symm⟩
  have done : ∀ {out : List Byte} {n : Nat} {ed sr : Bool}, finish s (ownWrites i s) out n ed sr = .next t →
      (i ≠ .hamDecb → i ≠ .hamDec → ed = false) → (sr = true → ed = true) →
      (∃ e sub, FailureLegal e sub ∧ t = failFrame e sub s) ∨
        ∃ out n ed sr, out.length ≤ s.cfg.obufCap ∧ t = successFrame out n ed sr (ownWrites i s) ∧
          (i ≠ .hamDecb → i ≠ .hamDec → ed = false) ∧ (sr = true → ed = true) := by
    intro out n ed sr hf h1 h2
    rcases finish_cases hf with hc | ⟨hl, hs⟩
    · exact .inl ⟨.capacity, 0, .inr ⟨.inr (.inr rfl), rfl⟩, hc⟩
    · exact .inr ⟨out, n, ed, sr, hl, hs, h1, h2⟩
  have bad : FailureLegal .badOperand 0 := .inr ⟨.inr (.inl rfl), rfl⟩
  have mis : FailureLegal .configMismatch 0 := .inr ⟨.inl rfl, rfl⟩
  have cap : FailureLegal .capacity 0 := .inr ⟨.inr (.inr rfl), rfl⟩
  cases i with
  | sysNop =>
    simp only [exec, execSysNop] at h
    exact done h (fun _ _ => rfl) id
  | sysMov =>
    simp only [exec, execSysMov] at h
    split at h
    · exact .inl (fail cap h)
    · exact done h (fun _ _ => rfl) id
  | packPack =>
    simp only [exec, execPackPack] at h
    split at h
    · exact .inl (fail bad h)
    · exact done h (fun _ _ => rfl) id
  | packUnpack =>
    simp only [exec, execPackUnpack] at h
    split at h
    · exact .inl (fail bad h)
    · split at h
      · exact .inl (fail bad h)
      · exact done h (fun _ _ => rfl) id
  | hufFreq =>
    simp only [exec, execHufFreq] at h
    split at h
    · exact .inl (fail bad h)
    · exact done h (fun _ _ => rfl) id
  | hufTree =>
    simp only [exec, execHufTree] at h
    exact done h (fun _ _ => rfl) id
  | hufCodes =>
    simp only [exec, execHufCodes] at h
    split at h
    · exact done h (fun _ _ => rfl) id
    · cases h
  | hufEnc =>
    simp only [exec, execHufEnc] at h
    split at h
    · exact .inl (fail bad h)
    · exact done h (fun _ _ => rfl) id
  | hufDec =>
    simp only [exec, execHufDec] at h
    split at h
    · exact .inl (fail bad h)
    · split at h
      · next he => exact .inl (fail (.inl ⟨rfl, decodeBits_error he⟩) h)
      · exact done h (fun _ _ => rfl) id
  | hamCalcr =>
    simp only [exec, execHamCalcr] at h
    exact done h (fun _ _ => rfl) id
  | hamEncb =>
    simp only [exec, execHamEncb] at h
    split at h
    · exact .inl (fail bad h)
    · split at h
      · exact .inl (fail mis h)
      · exact done h (fun _ _ => rfl) id
  | hamDecb =>
    simp only [exec, execHamDecb] at h
    split at h
    · exact .inl (fail bad h)
    · split at h
      · exact .inl (fail mis h)
      · refine done h (fun h1 _ => absurd rfl h1) fun hs => ?_
        simp only [decodeBlock, decide_eq_true_eq] at hs ⊢
        omega
  | hamEnc =>
    simp only [exec, execHamEnc] at h
    split at h
    · exact .inl (fail bad h)
    · split at h
      · exact .inl (fail mis h)
      · split at h
        · exact .inl (fail cap h)
        · exact done h (fun _ _ => rfl) id
  | hamDec =>
    simp only [exec, execHamDec] at h
    split at h
    · exact .inl (fail bad h)
    · split at h
      · exact .inl (fail mis h)
      · exact done h (fun _ h2 => absurd rfl h2) (decodeStream_synrange_errdet _ _)
  | hamNoise =>
    simp only [exec, execHamNoise] at h
    split at h
    · exact .inl (fail bad h)
    · exact done h (fun _ _ => rfl) id

theorem step_of_idle {s : State} (h : s.pending = []) : step s = .next s := by simp [step, nextAction, h]

theorem step_of_pending {s : State} {a : HostAction} {rest : List HostAction} (h : s.pending = a :: rest) :
    step s = match hostAct a { s with pending := rest } with
      | .idle => .next s
      | .done s' => .next s'
      | .command i s' => exec i s' := by
  have e : nextAction s = hostAct a { s with pending := rest } := by simp only [nextAction, h]
  exact congrArg (fun f : Fetched => match f with
    | .idle => Host.Outcome.next s
    | .done s' => .next s'
    | .command i s' => exec i s') e

/-- All a step can do: wait, or take the host's next action, which is a read, a write to anything but `CMD`, a write
of an illegal word to `CMD`, a command, or reset. -/
theorem step_cases {s t : State} (h : step s = .next t) :
    (s.pending = [] ∧ t = s) ∨
      ∃ a rest, s.pending = a :: rest ∧
        ((∃ space index, a = .read space index ∧
            t = { s with pending := rest, hostData := hostRead { s with pending := rest } space index }) ∨
          (∃ space index v, a = .write space index v ∧ ¬(space = 0 ∧ index = 0) ∧
            t = hostWrite { s with pending := rest } space index v) ∨
          (∃ v why, a = .write 0 0 v ∧ decode v = .illegal why ∧
            t = failFrame .illegalCmd 0 { s with pending := rest }) ∨
          (∃ v i, a = .write 0 0 v ∧ decode v = .ok i ∧ exec i { s with pending := rest } = .next t) ∨
          (a = .reset ∧ t = hardwareReset { s with pending := rest })) := by
  rcases hp : s.pending with _ | ⟨a, rest⟩
  · rw [step_of_idle hp] at h
    injection h with h
    exact .inl ⟨rfl, h.symm⟩
  · refine .inr ⟨a, rest, rfl, ?_⟩
    rw [step_of_pending hp] at h
    cases a with
    | read space index =>
      injection h with h
      exact .inl ⟨space, index, rfl, h.symm⟩
    | write space index v =>
      by_cases hc : space = 0 ∧ index = 0
      · obtain ⟨rfl, rfl⟩ := hc
        simp only [hostAct, and_self, if_true, cmdWrite] at h
        cases hd : decode v with
        | ok i =>
          rw [hd] at h
          exact .inr (.inr (.inr (.inl ⟨v, i, rfl, hd, h⟩)))
        | illegal why =>
          rw [hd] at h
          injection h with h
          exact .inr (.inr (.inl ⟨v, why, rfl, hd, h.symm⟩))
      · simp only [hostAct, if_neg hc] at h
        injection h with h
        exact .inr (.inl ⟨space, index, v, rfl, hc, h.symm⟩)
    | reset =>
      injection h with h
      exact .inr (.inr (.inr (.inr ⟨rfl, h.symm⟩)))

end Sys2Proof.Machine
end

