-- ==== Sys2Proof/Laws/Memory.lean ====
section
/-! SUPPORT. The laws of the memories: a read after a write, and that every operation keeps the canonical form. -/

namespace Sys2Proof.Machine

variable {β : Type}

@[simp] theorem memRead_nil (d : β) (a : Nat) : memRead d [] a = d := rfl

theorem memErase_cons (x : Nat) (v : β) (t : List (Nat × β)) (a : Nat) :
    memErase ((x, v) :: t) a = if x = a then memErase t a else (x, v) :: memErase t a := by
  by_cases h : x = a <;> simp [memErase, h]

theorem memRead_memErase (d : β) (m : List (Nat × β)) (a b : Nat) :
    memRead d (memErase m a) b = if b = a then d else memRead d m b := by
  induction m with
  | nil => simp [memErase]
  | cons c t ih =>
    obtain ⟨x, v⟩ := c
    rw [memErase_cons]
    by_cases hx : x = a
    · subst hx
      by_cases hb : b = x
      · simpa [hb] using ih
      · simp [ih, hb, memRead, Ne.symm hb]
    · by_cases hb : b = a
      · subst hb; simp [ih, hx, memRead]
      · simp [ih, hx, hb, memRead]

theorem memRead_memInsert (d : β) (m : List (Nat × β)) (a : Nat) (v : β) (b : Nat) :
    memRead d (memInsert a v (memErase m a)) b = if b = a then v else memRead d (memErase m a) b := by
  have key : ∀ l : List (Nat × β), (∀ c ∈ l, c.1 ≠ a) →
      memRead d (memInsert a v l) b = if b = a then v else memRead d l b := by
    intro l
    induction l with
    | nil => intro _; simp [memInsert, memRead, eq_comm]
    | cons c t ih =>
      intro h
      obtain ⟨x, w⟩ := c
      have hx : x ≠ a := h _ (List.mem_cons_self ..)
      have ih := ih fun c hc => h c (List.mem_cons_of_mem _ hc)
      simp only [memInsert]
      split
      · by_cases hb : x = b
        · simp [memRead, hb ▸ hx, hb]
        · simp [memRead, hb, ih]
      · by_cases hb : a = b
        · simp [memRead, hb]
        · simp [memRead, hb, Ne.symm hb]
  exact key _ fun c hc => by simpa using (List.mem_filter.mp hc).2

/-- A read after a write: the value written at its place, the old value at every other. It holds of every list. -/
theorem memRead_memWrite [DecidableEq β] (d : β) (m : List (Nat × β)) (a : Nat) (v : β) (b : Nat) :
    memRead d (memWrite d m a v) b = if b = a then v else memRead d m b := by
  unfold memWrite
  split
  · next h => rw [memRead_memErase, h]
  · rw [memRead_memInsert, memRead_memErase]
    split <;> rfl

/-- A read after a sequence of writes: inside it the element, outside it the old value. -/
theorem memRead_memWriteSeq [DecidableEq β] (d : β) (vs : List β) (m : List (Nat × β)) (base b : Nat) :
    memRead d (memWriteSeq d m base vs) b =
      if base ≤ b ∧ b < base + vs.length then vs.getD (b - base) d else memRead d m b := by
  induction vs generalizing m base with
  | nil =>
    rw [memWriteSeq, if_neg]
    simp only [List.length_nil]
    omega
  | cons v vs ih =>
    rw [memWriteSeq, ih, memRead_memWrite]
    by_cases h0 : b = base
    · subst h0
      simp
    · by_cases h1 : base + 1 ≤ b ∧ b < base + 1 + vs.length
      · obtain ⟨k, rfl⟩ : ∃ k, b = base + 1 + k := ⟨b - (base + 1), by omega⟩
        have h2 : base ≤ base + 1 + k ∧ base + 1 + k < base + (v :: vs).length := by
          simp only [List.length_cons]; omega
        have e1 : base + 1 + k - (base + 1) = k := by omega
        have e2 : base + 1 + k - base = k + 1 := by omega
        rw [if_pos h1, if_pos h2, e1, e2, List.getD_cons_succ]
      · have h2 : ¬(base ≤ b ∧ b < base + (v :: vs).length) := by
          simp only [List.length_cons]; omega
        rw [if_neg h1, if_neg h2, if_neg h0]

@[simp] theorem memSeq_length (d : β) (m : List (Nat × β)) (n : Nat) : (memSeq d m n).length = n := by
  simp [memSeq]

theorem memSeq_getD (d e : β) (m : List (Nat × β)) {n i : Nat} (h : i < n) :
    (memSeq d m n).getD i e = memRead d m i := by
  simp [memSeq, h]

/-- Reading back a sequence stored from index 0. -/
theorem memSeq_memWriteSeq [DecidableEq β] (d : β) (m : List (Nat × β)) (vs : List β) :
    memSeq d (memWriteSeq d m 0 vs) vs.length = vs := by
  apply List.ext_getElem
  · simp
  · intro i h1 h2
    simp only [memSeq, List.getElem_map, List.getElem_range, memRead_memWriteSeq]
    simp [h2]

/-- A read of a tabulated memory. -/
theorem memRead_memTable [DecidableEq β] (d : β) (n : Nat) (f : Nat → β) (a : Nat) :
    memRead d (memTable d n f) a = if a < n then f a else d := by
  have key : ∀ l : List Nat, memRead d (l.filterMap fun i => if f i = d then none else some (i, f i)) a =
      if a ∈ l then f a else d := by
    intro l
    induction l with
    | nil => rfl
    | cons x t ih =>
      by_cases hx : x = a
      · subst hx
        by_cases hd : f x = d
        · simp [hd, ih]
        · simp [hd, memRead]
      · by_cases hd : f x = d
        · simp [hd, ih, Ne.symm hx]
        · simp [hd, memRead, hx, ih, Ne.symm hx]
  rw [memTable, key]
  simp

variable [DecidableEq β]

theorem memWfFrom_mono {d : β} {bound lo lo' : Nat} {m : List (Nat × β)} (h : memWfFrom d bound lo m = true)
    (hlo : lo' ≤ lo) : memWfFrom d bound lo' m = true := by
  cases m with
  | nil => rfl
  | cons c t =>
    simp only [memWfFrom, Bool.and_eq_true, decide_eq_true_eq] at h ⊢
    exact ⟨⟨⟨by omega, h.1.1.2⟩, h.1.2⟩, h.2⟩

theorem memWfFrom_memErase {d : β} {bound : Nat} (a : Nat) (m : List (Nat × β)) (lo : Nat)
    (h : memWfFrom d bound lo m = true) : memWfFrom d bound lo (memErase m a) = true := by
  induction m generalizing lo with
  | nil => rfl
  | cons c t ih =>
    obtain ⟨x, v⟩ := c
    simp only [memWfFrom, Bool.and_eq_true, decide_eq_true_eq] at h
    rw [memErase_cons]
    split
    · exact memWfFrom_mono (ih _ h.2) (by omega)
    · simp only [memWfFrom, Bool.and_eq_true, decide_eq_true_eq]
      exact ⟨h.1, ih _ h.2⟩

theorem memWfFrom_memInsert {d : β} {bound a : Nat} {v : β} (ha : a < bound) (hv : v ≠ d) (m : List (Nat × β))
    (lo : Nat) (hlo : lo ≤ a) (hm : ∀ c ∈ m, c.1 ≠ a) (h : memWfFrom d bound lo m = true) :
    memWfFrom d bound lo (memInsert a v m) = true := by
  induction m generalizing lo with
  | nil => simp [memInsert, memWfFrom, ha, hv, hlo]
  | cons c t ih =>
    obtain ⟨x, w⟩ := c
    have hx : x ≠ a := hm _ (List.mem_cons_self ..)
    simp only [memWfFrom, Bool.and_eq_true, decide_eq_true_eq] at h
    simp only [memInsert]
    split
    · simp only [memWfFrom, Bool.and_eq_true, decide_eq_true_eq]
      exact ⟨h.1, ih _ (by omega) (fun c hc => hm c (List.mem_cons_of_mem _ hc)) h.2⟩
    · simp only [memWfFrom, Bool.and_eq_true, decide_eq_true_eq]
      exact ⟨⟨⟨hlo, ha⟩, hv⟩, ⟨⟨by omega, h.1.1.2⟩, h.1.2⟩, h.2⟩

/-- A write keeps the canonical form. -/
theorem memWf_memWrite {d : β} {bound a : Nat} {v : β} {m : List (Nat × β)} (ha : a < bound)
    (h : memWf d bound m = true) : memWf d bound (memWrite d m a v) = true := by
  have he := memWfFrom_memErase a m 0 h
  unfold memWrite
  split
  · exact he
  · next hv =>
    exact memWfFrom_memInsert ha hv _ 0 (Nat.zero_le _)
      (fun c hc => by simpa using (List.mem_filter.mp hc).2) he

/-- A sequence of writes keeps the canonical form. -/
theorem memWf_memWriteSeq {d : β} {bound base : Nat} {vs : List β} {m : List (Nat × β)}
    (hb : base + vs.length ≤ bound) (h : memWf d bound m = true) :
    memWf d bound (memWriteSeq d m base vs) = true := by
  induction vs generalizing m base with
  | nil => exact h
  | cons v vs ih =>
    simp only [List.length_cons] at hb
    exact ih (by omega) (memWf_memWrite (by omega) h)

/-- A tabulated memory is in canonical form. -/
theorem memWf_memTable (d : β) (n : Nat) (f : Nat → β) : memWf d n (memTable d n f) = true := by
  have key : ∀ (l : List Nat) (lo : Nat), (∀ i ∈ l, lo ≤ i ∧ i < n) → l.Pairwise (· < ·) →
      memWfFrom d n lo (l.filterMap fun i => if f i = d then none else some (i, f i)) = true := by
    intro l
    induction l with
    | nil => intro _ _ _; rfl
    | cons x t ih =>
      intro lo hl hp
      have hx := hl x (List.mem_cons_self ..)
      rw [List.pairwise_cons] at hp
      have ht : ∀ i ∈ t, x + 1 ≤ i ∧ i < n := fun i hi =>
        ⟨hp.1 i hi, (hl i (List.mem_cons_of_mem _ hi)).2⟩
      by_cases hd : f x = d
      · simpa [hd] using memWfFrom_mono (ih _ ht hp.2) (by omega)
      · simp only [List.filterMap_cons, hd, if_false, memWfFrom, Bool.and_eq_true, decide_eq_true_eq]
        exact ⟨⟨⟨hx.1, hx.2⟩, hd⟩, ih _ ht hp.2⟩
  exact key _ 0 (fun i hi => ⟨Nat.zero_le _, by simpa using hi⟩) List.pairwise_lt_range

/-- Every memory of `State.reset` is in canonical form. -/
theorem reset_memories_wf :
    memWf 0 State.reset.cfg.ibufCap State.reset.ibuf = true ∧ memWf 0 State.reset.cfg.obufCap State.reset.obuf = true ∧
      memWf 0 256 State.reset.freq = true ∧ memWf cwEmpty 256 State.reset.cwt = true ∧
      memWf nodeEmpty 511 State.reset.node = true :=
  ⟨rfl, rfl, rfl, rfl, rfl⟩

end Sys2Proof.Machine
end

