-- ==== Sys2Proof/Laws/Operands.lean ====
section
/-! SUPPORT. The small laws of the operand forms: bits and elements, lengths, codewords and nodes as stored. -/

namespace Sys2Proof.Machine

@[simp] theorem bitOf_bitElem (b : Bool) : bitOf (bitElem b) = b := by cases b <;> rfl

@[simp] theorem symsOf_length (s : State) : (symsOf s).length = s.ilen.toNat := by simp [symsOf]

@[simp] theorem bitsOf_length (s : State) : (bitsOf s).length = s.ilen.toNat := by simp [bitsOf]

@[simp] theorem outputOf_length (s : State) : (outputOf s).length = s.olen.toNat := by simp [outputOf]

theorem bitAt_bitsOf {s : State} {i : Nat} (h : i < s.ilen.toNat) : bitAt (bitsOf s) i = bitOf (ibufAt s i) := by
  simp [bitAt, bitsOf, symsOf, memSeq, h, ibufAt]

theorem bitsToNat_append (a b : List Bool) : bitsToNat (a ++ b) = bitsToNat a * 2 ^ b.length + bitsToNat b := by
  induction b using List.reverseRecOn with
  | nil => simp [bitsToNat]
  | append_singleton b x ih =>
    rw [← List.append_assoc]
    simp only [bitsToNat, List.foldl_append, List.foldl_cons, List.foldl_nil, List.length_append,
      List.length_singleton] at ih ⊢
    rw [ih, pow_succ]
    ring

theorem bitsToNat_lt (b : List Bool) : bitsToNat b < 2 ^ b.length := by
  induction b with
  | nil => simp [bitsToNat]
  | cons x b ih =>
    have h := bitsToNat_append [x] b
    have hx : bitsToNat [x] ≤ 1 := by cases x <;> decide
    rw [List.singleton_append] at h
    rw [h, List.length_cons, pow_succ]
    nlinarith [Nat.two_pow_pos b.length]

/-- Bit `i` of the string, the first bit the most significant. -/
theorem bitsToNat_testBit (b : List Bool) {i : Nat} (h : i < b.length) :
    (bitsToNat b).testBit (b.length - 1 - i) = b[i] := by
  induction b generalizing i with
  | nil => simp at h
  | cons x b ih =>
    have hc := bitsToNat_append [x] b
    have hx : bitsToNat [x] = x.toNat := by cases x <;> rfl
    rw [List.singleton_append, hx] at hc
    have hlt := bitsToNat_lt b
    rw [hc, mul_comm, Nat.testBit_two_pow_mul_add _ hlt, List.length_cons]
    cases i with
    | zero =>
      rw [if_neg (by omega)]
      simp only [Nat.add_sub_cancel, Nat.sub_zero, Nat.sub_self, List.getElem_cons_zero]
      cases x <;> rfl
    | succ i =>
      have hi : i < b.length := by simpa using h
      rw [if_pos (by omega), List.getElem_cons_succ, ← ih hi]
      congr 1
      omega

/-- A codeword of at most 255 bits is what CWT gives back of it (R38, R151). -/
theorem codewordOf_cwEntryOf {b : List Bool} (h : b.length ≤ 255) : codewordOf (cwEntryOf b) = b := by
  have hl : (BitVec.ofNat 8 b.length).toNat = b.length := by
    simp only [BitVec.toNat_ofNat]
    omega
  have hlt : bitsToNat b * 2 ^ (256 - b.length) < 2 ^ 256 := by
    calc _ < 2 ^ b.length * 2 ^ (256 - b.length) :=
          Nat.mul_lt_mul_of_pos_right (bitsToNat_lt b) (Nat.two_pow_pos _)
      _ = 2 ^ 256 := by rw [← pow_add]; congr 1; omega
  apply List.ext_getElem
  · simp [codewordOf, cwEntryOf, hl]
  · intro i h1 h2
    simp only [codewordOf, cwEntryOf, List.getElem_map, List.getElem_range, BitVec.getLsbD_ofNat]
    have e : 255 - i = (256 - b.length) + (b.length - 1 - i) := by omega
    rw [e, mul_comm, Nat.testBit_two_pow_mul]
    simp only [show 256 - b.length + (b.length - 1 - i) < 256 by omega, decide_true, Bool.true_and,
      show 256 - b.length + (b.length - 1 - i) ≥ 256 - b.length by omega, Nat.add_sub_cancel_left]
    exact bitsToNat_testBit b h2

/-- The bits of `CODE` from `LEN` on are 0 (R38, R151). -/
theorem cwEntryOf_code_tail {b : List Bool} {i : Nat} (hi : b.length ≤ i) (h : i < 256) :
    (cwEntryOf b).code.getLsbD (255 - i) = false := by
  simp only [cwEntryOf, BitVec.getLsbD_ofNat]
  rw [mul_comm, Nat.testBit_two_pow_mul]
  simp only [show ¬(255 - i ≥ 256 - b.length) by omega, decide_false, Bool.false_and, Bool.and_false]

/-- A tree node whose fields fit is what NODE gives back of it (R39). -/
theorem hnodeOf_nodeOf_leaf (sym : Byte) {w : Nat} (h : w < 2 ^ 40) : hnodeOf (nodeOf (.leaf sym w)) = .leaf sym w := by
  simpa [hnodeOf, nodeOf] using h

theorem hnodeOf_nodeOf_internal {a b w : Nat} (ha : a < 512) (hb : b < 512) (h : w < 2 ^ 40) :
    hnodeOf (nodeOf (.internal a b w)) = .internal a b w := by
  simpa [hnodeOf, nodeOf] using And.intro ha (And.intro hb h)

@[simp] theorem positions_length (k : Nat) : (positions k).length = blockLen k := by simp [positions]

theorem mem_positions {k p : Nat} : p ∈ positions k ↔ 1 ≤ p ∧ p ≤ blockLen k := by
  simp only [positions, List.mem_map, List.mem_range]
  constructor
  · rintro ⟨a, ha, rfl⟩
    omega
  · intro h
    exact ⟨p - 1, by omega, by omega⟩

@[simp] theorem encodeBlock_length (k : Nat) (d : List Bool) : (encodeBlock k d).length = blockLen k := by
  simp [encodeBlock]

@[simp] theorem noise_length (b : List Bool) (pos : List Nat) : (noise b pos).length = b.length := by simp [noise]

@[simp] theorem unpack_length (bytes : List Byte) (n : Nat) : (unpack bytes n).length = n := by simp [unpack]

end Sys2Proof.Machine
end

