-- ==== Sys2Proof/Laws/PerInstr.lean ====
section
/-! SUPPORT. The per-instruction family Encoding: the fields of each command's word and what the decoder makes of it. -/

namespace Sys2Proof.Laws.Encoding

/-- The word of a command has legal fields (R90, R91) and decodes to the command. -/
def Statement (i : Instr) : Prop := (cmdFields (encode i)).wf = true ∧ decode (encode i) = .ok i

theorem sysNop : Statement .sysNop := ⟨rfl, rfl⟩

theorem sysMov : Statement .sysMov := ⟨rfl, rfl⟩

theorem packPack : Statement .packPack := ⟨rfl, rfl⟩

theorem packUnpack : Statement .packUnpack := ⟨rfl, rfl⟩

theorem hufFreq : Statement .hufFreq := ⟨rfl, rfl⟩

theorem hufTree : Statement .hufTree := ⟨rfl, rfl⟩

theorem hufCodes : Statement .hufCodes := ⟨rfl, rfl⟩

theorem hufEnc : Statement .hufEnc := ⟨rfl, rfl⟩

theorem hufDec : Statement .hufDec := ⟨rfl, rfl⟩

theorem hamCalcr : Statement .hamCalcr := ⟨rfl, rfl⟩

theorem hamEncb : Statement .hamEncb := ⟨rfl, rfl⟩

theorem hamDecb : Statement .hamDecb := ⟨rfl, rfl⟩

theorem hamEnc : Statement .hamEnc := ⟨rfl, rfl⟩

theorem hamDec : Statement .hamDec := ⟨rfl, rfl⟩

theorem hamNoise : Statement .hamNoise := ⟨rfl, rfl⟩

end Sys2Proof.Laws.Encoding
end

