-- ==== Sys2Proof/Tests/Slice0.lean ====
section
/-! SUPPORT. Named tests: words written out from the encoding, ill-formed terms, the spec's test vectors (95_test_vectors.md),
and for every obligation with hypotheses a theorem whose concrete values meet them, clause by clause. -/

-- Each theorem here is elaborated in turn: many waiting at once would each hold a thread.
set_option Elab.async false

namespace Sys2Proof.Tests

open Sys2Proof.Machine

/-! ### Helpers -/

/-- A machine of the given capacities, as after reset, with `input` in IBUF. -/
def loaded (ib ob : Nat) (input : List Byte) : State :=
  { State.resetWith { ibufCap := ib, obufCap := ob } with
    ibuf := memWriteSeq 0 [] 0 input, ilen := BitVec.ofNat 32 input.length }

/-- The same with bits as input, given as zeros and ones. -/
def loadedBits (ib ob : Nat) (input : List Nat) : State := loaded ib ob (input.map (BitVec.ofNat 8))

/-- The next state of a command, if it answers one. -/
def answer (i : Instr) (s : State) : Option State :=
  match exec i s with
  | .next t => some t
  | _ => none

/-- The next state of a step, if it answers one. -/
def stepAnswer (s : State) : Option State :=
  match step s with
  | .next t => some t
  | _ => none

theorem exec_of_answer {i : Instr} {s t : State} (h : answer i s = some t) : exec i s = .next t := by
  unfold answer at h
  split at h
  · next u hu => injection h with h; rw [hu, h]
  · cases h

theorem exists_of_answer {i : Instr} {s : State} {p : State → Bool} (h : (answer i s).any p = true) :
    ∃ t, exec i s = .next t ∧ p t = true := by
  rcases ha : answer i s with _ | t
  · rw [ha] at h; cases h
  · rw [ha] at h; exact ⟨t, exec_of_answer ha, h⟩

/-! ### Decoding, each constructor by its word written out bit by bit (R90: 24 zeros, UNIT, FN) -/

theorem test_decode_sysNop : decode 0b00000000000000000000000000000000#32 = .ok .sysNop := by decide
theorem test_decode_sysMov : decode 0b00000000000000000000000000000001#32 = .ok .sysMov := by decide
theorem test_decode_packPack : decode 0b00000000000000000000000000010000#32 = .ok .packPack := by decide
theorem test_decode_packUnpack : decode 0b00000000000000000000000000010001#32 = .ok .packUnpack := by decide
theorem test_decode_hufFreq : decode 0b00000000000000000000000000100000#32 = .ok .hufFreq := by decide
theorem test_decode_hufTree : decode 0b00000000000000000000000000100001#32 = .ok .hufTree := by decide
theorem test_decode_hufCodes : decode 0b00000000000000000000000000100010#32 = .ok .hufCodes := by decide
theorem test_decode_hufEnc : decode 0b00000000000000000000000000100011#32 = .ok .hufEnc := by decide
theorem test_decode_hufDec : decode 0b00000000000000000000000000100100#32 = .ok .hufDec := by decide
theorem test_decode_hamCalcr : decode 0b00000000000000000000000000110000#32 = .ok .hamCalcr := by decide
theorem test_decode_hamEncb : decode 0b00000000000000000000000000110001#32 = .ok .hamEncb := by decide
theorem test_decode_hamDecb : decode 0b00000000000000000000000000110010#32 = .ok .hamDecb := by decide
theorem test_decode_hamEnc : decode 0b00000000000000000000000000110011#32 = .ok .hamEnc := by decide
theorem test_decode_hamDec : decode 0b00000000000000000000000000110100#32 = .ok .hamDec := by decide
theorem test_decode_hamNoise : decode 0b00000000000000000000000000110101#32 = .ok .hamNoise := by decide

/-- V-ERR-1: the illegal words the spec lists. -/
theorem test_illegal_words :
    ([0x36, 0x02, 0x12, 0x25, 0x40, 0xFF, 0x100, 0x80000000, 0xFFFFFFFF] : List Word).all
      (fun w => match decode w with | .illegal _ => true | .ok _ => false) = true := by decide

/-- The opcode table's numbering is the word itself. -/
theorem test_tableWord_hufDec : decodeTableWord 32 0x24 = some .hufDec := by decide

/-! ### Ill-formed terms, one for each check -/

theorem test_illformed_zero : CmdFields.zeroOk { zero := 1, unit := 0, fn := 0 } = false := by decide
theorem test_illformed_unit : CmdFields.unitOk { zero := 0, unit := 4, fn := 0 } = false := by decide
theorem test_illformed_fn : CmdFields.fnOk { zero := 0, unit := 3, fn := 6 } = false := by decide
theorem test_illformed_ibuf_capacity : Config.ibufOk { ibufCap := 0, obufCap := 1 } = false := by decide
theorem test_illformed_obuf_capacity : Config.obufOk { ibufCap := 1, obufCap := 2 ^ 32 } = false := by decide
theorem test_wellformed_fields : CmdFields.wf { zero := 0, unit := 2, fn := 4 } = true := by decide
theorem test_wellformed_config : Config.atReset.wf = true := by decide

/-! ### The spec's test vectors, one step each -/

/-- V-SYS-2. -/
theorem test_nop_clears_status :
    (answer .sysNop { State.reset with status := 0x81, res := 3, olen := 7 }).map
      (fun t => (t.status, t.res, t.olen)) = some (0, 0, 0) := by decide

/-- V-SYS-3. -/
theorem test_mov_moves :
    (answer .sysMov { loaded 16 16 [9, 9, 9, 9] with obuf := memWriteSeq 0 [] 0 [0, 1, 1], olen := 3 }).map
      (fun t => (memSeq 0 t.ibuf 4, t.ilen, t.olen, t.res)) = some ([0, 1, 1, 9], 3, 0, 3) := by decide

/-- V-SYS-5. -/
theorem test_mov_capacity :
    (answer .sysMov { loadedBits 4 8 [1, 0, 1, 1] with obuf := memWriteSeq 0 [] 0 [0, 1, 1, 0, 0, 1, 1], olen := 7 }).map
      (fun t => (t.status, memSeq 0 t.ibuf 4, t.ilen, t.olen)) = some (0x05, [1, 0, 1, 1], 4, 0) := by decide

/-- V-PACK-1. -/
theorem test_pack_nine_bits :
    (answer .packPack (loadedBits 16 16 [1, 0, 1, 1, 0, 0, 1, 1, 1])).map
      (fun t => (outputOf t, t.bitlen, t.res)) = some ([0xB3, 0x80], 9, 7) := by decide +kernel

/-- V-PACK-5: only bit 0 of an element counts. -/
theorem test_pack_ignores_upper_bits :
    (answer .packPack (loaded 16 16 [0xFF, 0xFE, 0x03, 0x02, 0x01, 0x01, 0x00, 0x80])).map
      (fun t => (outputOf t, t.res)) = some ([0xAC], 0) := by decide +kernel

/-- V-PACK-8: the pad is not examined. -/
theorem test_unpack_ignores_pad :
    (answer .packUnpack { loaded 16 16 [0xB3, 0xFF] with bitlen := 9 }).map
      (fun t => (outputOf t, t.res)) = some ([1, 0, 1, 1, 0, 0, 1, 1, 1], 7) := by decide +kernel

/-- V-PACK-10. -/
theorem test_unpack_bitlen_too_large :
    (answer .packUnpack { loaded 16 16 [0xB3] with bitlen := 9 }).map
      (fun t => (t.status, t.bitlen)) = some (0x04, 9) := by decide +kernel

/-- "abracadabra" in ASCII (G1). -/
def abracadabra : List Byte := [97, 98, 114, 97, 99, 97, 100, 97, 98, 114, 97]

/-- V-HUF-2. -/
theorem test_freq_abracadabra :
    (answer .hufFreq (loaded 32 32 abracadabra)).map
      (fun t => ([97, 98, 99, 100, 114, 101].map (freqAt t), t.res)) = some ([5, 2, 1, 1, 2, 0], 5) := by
  decide +kernel

/-- The reference weights of V-HUF-1. -/
def referenceWeights : List (Nat × Word) := [(97, 5), (98, 9), (99, 12), (100, 13), (101, 16), (102, 45)]

/-- V-HUF-1: the second words of entries 5 to 10 hold the children, as the host reads them. -/
theorem test_tree_reference_weights :
    (answer .hufTree { State.reset with freq := referenceWeights }).map
      (fun t => ([21, 25, 29, 33, 37, 41].map (hostRead t 5), t.nnodes, t.root)) =
      some ([0, 0x00010000, 0x00030002, 0x00040006, 0x00080007, 0x00090005], 11, 10) := by decide +kernel

/-- The tree of V-HUF-1, written out from its table. -/
def referenceTree : State :=
  { State.reset with
    nnodes := 11, root := 10
    node := memWriteSeq nodeEmpty [] 0
      [⟨true, 97, 0, 0, 5⟩, ⟨true, 98, 0, 0, 9⟩, ⟨true, 99, 0, 0, 12⟩, ⟨true, 100, 0, 0, 13⟩, ⟨true, 101, 0, 0, 16⟩,
        ⟨true, 102, 0, 0, 45⟩, ⟨false, 0, 0, 1, 14⟩, ⟨false, 0, 2, 3, 25⟩, ⟨false, 0, 6, 4, 30⟩, ⟨false, 0, 7, 8, 55⟩,
        ⟨false, 0, 5, 9, 100⟩] }

/-- V-HUF-1: LEN and first CODE word of 'a' and 'e', as the host reads them. -/
theorem test_codes_reference_tree :
    (answer .hufCodes referenceTree).map
      (fun t => ([1552, 1553, 1616, 1617].map (hostRead t 4), t.res)) =
      some ([4, 0xC0000000, 3, 0xE0000000], 6) := by decide +kernel

/-- V-HUF-9: a leaf extracted second. -/
theorem test_enc_aabbc :
    (answer .hufEnc (loaded 32 32 [97, 97, 98, 98, 99])).map
      (fun t => (outputOf t, t.res, t.nnodes)) = some ([1, 1, 1, 1, 0, 0, 1, 0], 3, 5) := by decide +kernel

/-- V-HUF-6: the one-symbol alphabet. -/
theorem test_enc_one_symbol :
    (answer .hufEnc (loaded 32 32 [97, 97, 97])).map
      (fun t => (outputOf t, codeTableOf t 97, t.nnodes)) = some ([0, 0, 0], [false], 1) := by decide +kernel

/-- The table of V-HUF-13, as the host writes it. -/
def tableABC (s : State) : State :=
  { s with cwt := memWriteSeq cwEmpty [] 97 [cwEntryOf [false], cwEntryOf [true, false], cwEntryOf [true, true]] }

/-- V-HUF-13: a truncated stream outputs nothing. -/
theorem test_dec_truncated :
    (answer .hufDec (tableABC (loadedBits 32 32 [0, 1, 0, 1]))).map
      (fun t => (t.status, t.olen)) = some (0x41, 0) := by decide +kernel

/-- V-HUF-13. -/
theorem test_dec_abc :
    (answer .hufDec (tableABC (loadedBits 32 32 [0, 1, 0, 1, 1]))).map
      (fun t => (t.status, outputOf t)) = some (0, [97, 98, 99]) := by decide +kernel

/-- V-HAM-1. -/
theorem test_calcr_values :
    [0, 1, 2, 4, 5, 11, 12, 57, 58, 247, 248, 65535, 0xFFFFFFFF].map calcR =
      [0, 2, 3, 3, 4, 4, 5, 6, 7, 8, 9, 17, 33] := by decide +kernel

/-- V-HAM-2. -/
theorem test_encb_1011 :
    (answer .hamEncb { loadedBits 16 16 [1, 0, 1, 1] with cfgK := 4 }).map
      (fun t => (outputOf t, t.res)) = some ([0, 1, 1, 0, 0, 1, 1], 3) := by decide +kernel

/-- V-HAM-7: `k = 8`. -/
theorem test_encb_k8 :
    (answer .hamEncb { loadedBits 16 16 [1, 0, 1, 1, 0, 1, 0, 0] with cfgK := 8 }).map
      (fun t => (outputOf t, t.res)) = some ([0, 0, 1, 0, 0, 1, 1, 1, 0, 1, 0, 0], 4) := by decide +kernel

/-- V-HAM-8: position 10 flipped and corrected. -/
theorem test_decb_corrects :
    (answer .hamDecb { loadedBits 16 16 [0, 0, 1, 0, 0, 1, 1, 1, 0, 0, 0, 0] with cfgK := 8 }).map
      (fun t => (outputOf t, t.res, t.status)) = some ([1, 0, 1, 1, 0, 1, 0, 0], 10, 0x10) := by decide +kernel

/-- V-HAM-9: a syndrome beyond the block. -/
theorem test_decb_synrange :
    (answer .hamDecb { loadedBits 16 16 [0, 0, 1, 0, 1, 1, 1, 0, 0, 1, 0, 0] with cfgK := 8 }).map
      (fun t => (outputOf t, t.res, t.status)) = some ([1, 1, 1, 1, 0, 1, 0, 0], 13, 0x30) := by decide +kernel

/-- V-HAM-11. -/
theorem test_enc_pads_last_block :
    (answer .hamEnc { loadedBits 16 16 [1, 0, 1, 1, 0, 0, 1] with cfgK := 4 }).map
      (fun t => (outputOf t, t.res)) = some ([0, 1, 1, 0, 0, 1, 1, 0, 1, 0, 1, 0, 1, 0], 2) := by decide +kernel

/-- V-ERR-4. -/
theorem test_enc_capacity :
    (answer .hamEnc { loadedBits 16 8 [1, 1, 1, 1, 1, 1, 1, 1, 1] with cfgK := 4 }).map
      (fun t => (t.status, t.olen, t.res)) = some (0x05, 0, 0) := by decide +kernel

/-- V-HAM-12: one wrong bit in each of two blocks. -/
theorem test_dec_two_blocks :
    (answer .hamDec { loadedBits 16 16 [1, 1, 1, 0, 0, 1, 1, 0, 1, 0, 1, 0, 1, 1] with cfgK := 4 }).map
      (fun t => (outputOf t, t.res, t.status)) = some ([1, 0, 1, 1, 0, 0, 1, 0], 2, 0x10) := by decide +kernel

/-- V-ERR-2: 13 bits are no multiple of 7. -/
theorem test_dec_mismatch :
    (answer .hamDec { loadedBits 16 16 [0, 1, 1, 0, 0, 1, 1, 0, 1, 0, 1, 0, 1] with cfgK := 4 }).map
      (fun t => (t.status, t.olen)) = some (0x02, 0) := by decide +kernel

/-- V-HAM-13: no draws, so the bits alone are copied. -/
theorem test_noise_zero_copies :
    (answer .hamNoise (loaded 16 16 [0xFF, 0x02])).map
      (fun t => (outputOf t, t.res)) = some ([0x01, 0x00], 0) := by decide +kernel

/-- V-HAM-13: the draws of its example, two equal draws, two different ones. -/
theorem test_noise_draws :
    (noise [false, true, true, false, false, true, true] [4], noise [false, true] [1, 1], noise [false, true] [0, 1]) =
      ([false, true, true, false, true, true, true], [false, true], [true, false]) := by decide +kernel

/-- V-ERR-7: a read-only register, a write of LEN, a word that does not exist. -/
theorem test_host_accesses :
    (hostRead (hostWrite State.reset 0 1 0xFFFFFFFF) 0 1, hostRead (hostWrite State.reset 4 0 0x1FF) 4 0,
      hostRead (hostWrite State.reset 4 9 7) 4 9, hostRead (hostWrite State.reset 0 2 0xFFFFFFFF) 0 2) =
      (0, 0xFF, 0, 0xFFFFFFFF) := by decide +kernel

/-- V-ERR-1 as one step of the machine. -/
theorem test_step_illegal_word :
    (stepAnswer (State.reset.withFetchWord 32 0x36)).map (fun t => (t.status, t.pending)) = some (0x03, []) := by
  decide +kernel

/-- One step runs the command placed (V-HAM-1: `ARG = 4` gives 3). -/
theorem test_step_runs_calcr :
    (stepAnswer ({ State.reset with arg := 4 }.withFetchWord 32 0x30)).map (fun t => (t.res, t.pending)) =
      some (3, []) := by decide +kernel

/-! ### Witnesses: concrete values that meet the hypotheses of each obligation, clause by clause, at the edges -/

theorem witness_IllegalWordFailsAndChangesNothingElse :
    ([0x100, 0x40, 0xF0, 0x02, 0x0F, 0x12, 0x25, 0x36, 0x80000000] : List Word).all (fun w =>
      decide ((State.reset.withFetchWord 32 w.toNat).pending = [.write 0 0 w]) &&
        decide (w.extractLsb' 8 24 ≠ 0 ∨ 4 ≤ (w.extractLsb' 4 4).toNat ∨
          ((w.extractLsb' 4 4).toNat = 0 ∧ 2 ≤ (w.extractLsb' 0 4).toNat) ∨
          ((w.extractLsb' 4 4).toNat = 1 ∧ 2 ≤ (w.extractLsb' 0 4).toNat) ∨
          ((w.extractLsb' 4 4).toNat = 2 ∧ 5 ≤ (w.extractLsb' 0 4).toNat) ∨
          ((w.extractLsb' 4 4).toNat = 3 ∧ 6 ≤ (w.extractLsb' 0 4).toNat))) = true := by decide +kernel

/-- The second clause's hypothesis, that no instruction is decoded, for a word of `FN` 6 in unit 3. -/
theorem witness_IllegalWord_no_instruction : ∀ i, decode 0x36 ≠ .ok i := by
  have h : decode 0x36 = .illegal .unknownFunction := by decide
  intro i hi
  rw [h] at hi
  cases hi

theorem witness_StepRunsTheDecodedCommand :
    (State.reset.withFetchWord 32 0x35).pending = [.write 0 0 0x35] ∧ decode 0x35 = .ok .hamNoise := by decide

theorem witness_HostActionsStepAsDescribed :
    State.reset.pending = [] ∧
      { State.reset with pending := [.read 5 2043, .reset] }.pending = .read 5 2043 :: [.reset] ∧
      { State.reset with pending := [.write 0 1 7] }.pending = [.write 0 1 7] ∧ ¬((0 : Nat) = 0 ∧ (1 : Nat) = 0) ∧
      { State.reset with pending := [.write 1 0 7] }.pending = [.write 1 0 7] ∧ ¬((1 : Nat) = 0 ∧ (0 : Nat) = 0) ∧
      { State.reset with pending := [.reset] }.pending = [.reset] := by decide

theorem witness_FirstCommandsAfterReset :
    (0 : Nat) ≤ State.reset.cfg.ibufCap ∧ 4096 ≤ State.reset.cfg.ibufCap ∧ (1 : Nat) ≤ 4096 ∧
      .hamDec ∈ ([.hamEncb, .hamDecb, .hamEnc, .hamDec] : List Instr) ∧
      .hufCodes ∈ ([.hufDec, .hufTree, .hufCodes] : List Instr) := by decide

theorem witness_RegistersReadByIndex : 10 ≤ (10 : Nat) := by decide

theorem witness_RegisterAccessRules :
    9 ∈ [1, 5, 7, 8, 9] ∧ 6 ∈ [2, 3, 4, 6] ∧ StatusLegal 0x00 ∧ StatusLegal 0x10 ∧ StatusLegal 0x30 ∧
      StatusLegal 0x05 ∧ StatusLegal 0x41 ∧ StatusLegal 0x81 ∧ ¬StatusLegal 0x01 ∧ ¬StatusLegal 0x20 :=
  ⟨by decide, by decide, by decide, by decide, by decide, by decide, by decide, by decide, by decide, by decide⟩

theorem witness_ReadsMaskedByLength :
    { State.reset with olen := 1 }.olen.toNat ≤ 1 ∧ 0 < { State.reset with olen := 1 }.olen.toNat ∧
      0 < State.reset.cfg.obufCap ∧ (3 : Nat) < 4 ∧ referenceTree.nnodes.toNat ≤ 11 ∧
      4095 < State.reset.cfg.ibufCap ∧ (255 : Nat) < 256 ∧ (8 : Nat) ≤ 8 := by decide +kernel

theorem witness_AccessesOutsideASpace :
    (10 : Nat) ≤ 10 ∧ State.reset.cfg.ibufCap ≤ 4096 ∧ State.reset.cfg.obufCap ≤ 4096 ∧ (256 : Nat) ≤ 256 ∧
      256 ≤ (4096 : Nat) / 16 ∧ 9 ≤ (25 : Nat) % 16 ∧ 511 ≤ (2044 : Nat) / 4 ∧ 6 ≤ (6 : Nat) := by decide

theorem witness_BufferAndFrequencyWrites :
    4095 < State.reset.cfg.ibufCap ∧ (255 : Nat) < 256 ∧ (0 : Nat) ≠ 4095 := by decide

theorem witness_CodewordTableWords :
    (255 : Nat) < 256 ∧ 1 ≤ (1 : Nat) ∧ (8 : Nat) ≤ 8 ∧ (0 : Nat) ≠ 8 ∧ (254 : Nat) ≠ 255 := by decide

theorem witness_NodeEntryWords :
    10 < referenceTree.nnodes.toNat ∧ (10 : Nat) < 511 ∧
      510 < { State.reset with nnodes := 511 }.nnodes.toNat ∧ (510 : Nat) < 511 := by decide +kernel

theorem witness_MovHandsOutputToInput :
    (loaded 4 8 []).cfg.ibufCap < { loaded 4 8 [] with olen := 5 }.olen.toNat ∧
      { loaded 4 8 [] with olen := 4 }.olen.toNat ≤ (loaded 4 8 []).cfg.ibufCap := by decide

/-- Nine bits need two bytes: a machine of two output elements completes, one of one does not, and one of eight input
elements refuses the length. -/
theorem witness_PackWritesBytesMsbFirst :
    ∀ ob ∈ [1, 2],
      (loadedBits 8 ob [1, 0, 1, 1, 0, 0, 1, 1, 1]).cfg.ibufCap <
          (loadedBits 8 ob [1, 0, 1, 1, 0, 0, 1, 1, 1]).ilen.toNat ∧
        (loadedBits 9 ob [1, 0, 1, 1, 0, 0, 1, 1, 1]).ilen.toNat ≤
          (loadedBits 9 ob [1, 0, 1, 1, 0, 0, 1, 1, 1]).cfg.ibufCap ∧
        (if ob = 1 then (loadedBits 9 ob []).cfg.obufCap < (9 + 7) / 8
          else (9 + 7) / 8 ≤ (loadedBits 9 ob []).cfg.obufCap) := by decide +kernel

theorem witness_UnpackWritesTheFirstBits :
    (loaded 1 8 [0xB3, 0x80]).cfg.ibufCap < (loaded 1 8 [0xB3, 0x80]).ilen.toNat ∧
      8 * (loaded 2 8 [0xB3]).ilen.toNat < { loaded 2 8 [0xB3] with bitlen := 9 }.bitlen.toNat ∧
      (loaded 2 8 [0xB3, 0x80]).ilen.toNat ≤ (loaded 2 8 [0xB3, 0x80]).cfg.ibufCap ∧
      { loaded 2 8 [0xB3, 0x80] with bitlen := 16 }.bitlen.toNat ≤ 8 * (loaded 2 8 [0xB3, 0x80]).ilen.toNat ∧
      (loaded 2 8 [0xB3, 0x80]).cfg.obufCap < { loaded 2 8 [0xB3, 0x80] with bitlen := 9 }.bitlen.toNat ∧
      { loaded 2 16 [0xB3, 0x80] with bitlen := 16 }.bitlen.toNat ≤ (loaded 2 16 [0xB3, 0x80]).cfg.obufCap := by
  decide +kernel

theorem witness_FreqCountsEverySymbol :
    (loaded 2 8 [97, 97, 98]).cfg.ibufCap < (loaded 2 8 [97, 97, 98]).ilen.toNat ∧
      (loaded 3 8 [97, 97, 98]).ilen.toNat ≤ (loaded 3 8 [97, 97, 98]).cfg.ibufCap := by decide +kernel

theorem witness_TreeMergesTheTwoLightest :
    (2 : Nat) ≤ 2 ∧ 2 < (treeOf (freqOf [98, 97])).length ∧ (alphabetSize (freqOf [98, 97])) = 2 ∧
      Live (treeOf (freqOf [98, 97])) 2 0 := by
  refine ⟨le_refl _, by decide +kernel, by decide +kernel, by omega, ?_⟩
  have h : treeOf (freqOf [98, 97]) = [.leaf 97 1, .leaf 98 1, .internal 0 1 2] := by decide +kernel
  intro i' hi' l r w hw
  rw [h] at hw
  interval_cases i' <;> simp at hw

/-- The last clause of the same: counts of 32 bits. -/
theorem witness_TreeMergesTheTwoLightest_weights :
    (∀ a, freqOf [98, 97] a < 2 ^ 32) ∧ treeOf (freqOf [98, 97]) ≠ [] := by
  refine ⟨fun a => lt_of_le_of_lt List.countP_le_length (by decide), by decide +kernel⟩

theorem witness_CodesAreRootToLeafPaths :
    NodeInvariant State.reset ∧ NodeInvariant referenceTree ∧ State.reset.nnodes.toNat = 0 ∧
      1 < referenceTree.nnodes.toNat :=
  ⟨by decide +kernel, by decide +kernel, by decide, by decide⟩

/-- The third clause of the same: a tree of one leaf. -/
theorem witness_CodesAreRootToLeafPaths_one_symbol :
    ((answer .hufEnc (loaded 32 32 [97, 97, 97])).any fun t =>
      decide (NodeInvariant t) && decide (t.nnodes.toNat = 1)) = true := by decide +kernel

theorem witness_HuffmanEncodeCompletes :
    (loaded 1 8 [98, 97]).cfg.ibufCap < (loaded 1 8 [98, 97]).ilen.toNat ∧
      (loaded 2 1 [98, 97]).ilen.toNat ≤ (loaded 2 1 [98, 97]).cfg.ibufCap ∧
      (serialize (codesOf (treeOf (freqOf (symsOf (loaded 2 1 [98, 97]))))) (symsOf (loaded 2 1 [98, 97]))).length = 2 ∧
      (loaded 2 1 [98, 97]).cfg.obufCap < 2 ∧ 2 ≤ (loaded 2 2 [98, 97]).cfg.obufCap := by decide +kernel

theorem witness_HuffmanEncodeIsTheThreeStages :
    (loaded 2 2 [98, 97]).ilen.toNat ≤ (loaded 2 2 [98, 97]).cfg.ibufCap ∧
      ∃ t, exec .hufEnc (loaded 2 2 [98, 97]) = .next t ∧ decide (statusErr t.status = 0) = true :=
  ⟨by decide, exists_of_answer (by decide +kernel)⟩

theorem witness_HuffmanDecodeCompletes :
    (loadedBits 1 8 [0, 1]).cfg.ibufCap < (loadedBits 1 8 [0, 1]).ilen.toNat ∧
      (loadedBits 2 8 [0, 1]).ilen.toNat ≤ (loadedBits 2 8 [0, 1]).cfg.ibufCap ∧
      (match decodeBits (codeTableOf (tableABC (loadedBits 2 8 [0, 1]))) (bitsOf (tableABC (loadedBits 2 8 [0, 1]))) with
        | .error sub => sub == 1
        | .ok _ => false) = true ∧
      (match decodeBits (codeTableOf (loadedBits 2 8 [0, 1])) (bitsOf (loadedBits 2 8 [0, 1])) with
        | .error sub => sub == 2
        | .ok _ => false) = true ∧
      (match decodeBits (codeTableOf (tableABC (loadedBits 2 1 [0, 0]))) (bitsOf (tableABC (loadedBits 2 1 [0, 0]))) with
        | .ok y => y == [97, 97] && decide ((loadedBits 2 1 [0, 0]).cfg.obufCap < y.length) &&
            decide (y.length ≤ (loadedBits 2 2 [0, 0]).cfg.obufCap)
        | .error _ => false) = true := by decide +kernel

theorem witness_DecodeSplitsTheInput :
    (match decodeBits (codeTableOf (tableABC State.reset)) [false, true, false] with
        | .ok y => y == [97, 98]
        | .error _ => false) = true ∧
      (match decodeBits (codeTableOf (tableABC State.reset)) [false, true] with
        | .error sub => sub == 1
        | .ok _ => false) = true ∧
      (match decodeBits (codeTableOf State.reset) [false] with
        | .error sub => sub == 2
        | .ok _ => false) = true := by decide +kernel

theorem witness_BlockEncodeCompletes :
    (loadedBits 3 8 [1, 0, 1, 1]).cfg.ibufCap < (loadedBits 3 8 [1, 0, 1, 1]).ilen.toNat ∧
      (loadedBits 4 7 [1, 0, 1, 1]).ilen.toNat ≤ (loadedBits 4 7 [1, 0, 1, 1]).cfg.ibufCap ∧
      (loadedBits 4 7 [1, 0, 1, 1]).cfgK = 0 ∧
      { loadedBits 4 7 [1, 0, 1, 1] with cfgK := 5 }.ilen ≠ { loadedBits 4 7 [1, 0, 1, 1] with cfgK := 5 }.cfgK ∧
      { loadedBits 4 7 [1, 0, 1, 1] with cfgK := 4 }.ilen = { loadedBits 4 7 [1, 0, 1, 1] with cfgK := 4 }.cfgK ∧
      (loadedBits 4 6 [1, 0, 1, 1]).cfg.obufCap < 4 + calcR 4 ∧
      4 + calcR 4 ≤ (loadedBits 4 7 [1, 0, 1, 1]).cfg.obufCap := by decide +kernel

theorem witness_EncodedBlockHasDataAndEvenParity :
    1 ≤ (1 : Nat) ∧ [true].length = 1 ∧ (0 : Nat) < 1 ∧ 1 < calcR 1 := by decide +kernel

theorem witness_BlockDecodeCompletes :
    (loadedBits 6 8 [0, 1, 1, 0, 0, 1, 1]).cfg.ibufCap < (loadedBits 6 8 [0, 1, 1, 0, 0, 1, 1]).ilen.toNat ∧
      (loadedBits 7 4 [0, 1, 1, 0, 0, 1, 1]).ilen.toNat ≤ (loadedBits 7 4 [0, 1, 1, 0, 0, 1, 1]).cfg.ibufCap ∧
      (loadedBits 7 4 [0, 1, 1, 0, 0, 1, 1]).ilen.toNat ≠ 5 + calcR 5 ∧
      (loadedBits 7 4 [0, 1, 1, 0, 0, 1, 1]).ilen.toNat = 4 + calcR 4 ∧
      (loadedBits 7 3 [0, 1, 1, 0, 0, 1, 1]).cfg.obufCap < 4 ∧
      4 ≤ (loadedBits 7 4 [0, 1, 1, 0, 0, 1, 1]).cfg.obufCap := by decide +kernel

theorem witness_StreamEncodeCompletes :
    (loadedBits 4 8 [1, 0, 1, 1, 0]).cfg.ibufCap < (loadedBits 4 8 [1, 0, 1, 1, 0]).ilen.toNat ∧
      (loadedBits 5 14 [1, 0, 1, 1, 0]).ilen.toNat ≤ (loadedBits 5 14 [1, 0, 1, 1, 0]).cfg.ibufCap ∧
      (loadedBits 5 14 [1, 0, 1, 1, 0]).cfgK = 0 ∧ { loadedBits 5 14 [1, 0, 1, 1, 0] with cfgK := 4 }.cfgK ≠ 0 ∧
      (loadedBits 5 13 []).cfg.obufCap < ceilDiv 5 4 * (4 + calcR 4) ∧
      ceilDiv 5 4 * (4 + calcR 4) ≤ (loadedBits 5 14 []).cfg.obufCap := by decide +kernel

theorem witness_StreamDecodeCompletes :
    (loadedBits 2 8 [1, 1, 1]).cfg.ibufCap < (loadedBits 2 8 [1, 1, 1]).ilen.toNat ∧
      (loadedBits 3 1 [1, 1, 1]).ilen.toNat ≤ (loadedBits 3 1 [1, 1, 1]).cfg.ibufCap ∧
      (loadedBits 3 1 [1, 1, 1]).cfgK = 0 ∧ (loadedBits 3 1 [1, 1, 1]).ilen.toNat % (4 + calcR 4) ≠ 0 ∧
      { loadedBits 3 1 [1, 1, 1] with cfgK := 1 }.cfgK ≠ 0 ∧
      (loadedBits 3 1 [1, 1, 1]).ilen.toNat % (1 + calcR 1) = 0 ∧
      (loadedBits 6 1 [1, 1, 1, 0, 0, 0]).cfg.obufCap <
        (loadedBits 6 1 [1, 1, 1, 0, 0, 0]).ilen.toNat / (1 + calcR 1) * 1 ∧
      (loadedBits 3 1 [1, 1, 1]).ilen.toNat / (1 + calcR 1) * 1 ≤ (loadedBits 3 1 [1, 1, 1]).cfg.obufCap := by
  decide +kernel

theorem witness_NoiseFlipsTheDrawnPositions :
    (loadedBits 1 8 [1, 0]).cfg.ibufCap < (loadedBits 1 8 [1, 0]).ilen.toNat ∧
      (loadedBits 2 1 [1, 0]).ilen.toNat ≤ (loadedBits 2 1 [1, 0]).cfg.ibufCap ∧
      (loadedBits 2 1 [1, 0]).cfg.obufCap < (loadedBits 2 1 [1, 0]).ilen.toNat ∧
      (loadedBits 2 2 [1, 0]).ilen.toNat ≤ (loadedBits 2 2 [1, 0]).cfg.obufCap := by decide +kernel

theorem witness_NoiseFlipsAnEvenlySmallerSet :
    (∀ p ∈ [0, 1, 1], p < [true, false].length) ∧ [true, false] ≠ [] ∧ [1].Nodup ∧ (∀ p ∈ [1], p < [true, false].length) ∧
      [1].length ≤ 3 ∧ (3 - [1].length) % 2 = 0 := by decide

theorem witness_InputTooLongIsBadOperand :
    .hamNoise ∈ readsIbuf ∧ (loaded 16 16 []).cfg.ibufCap < { loaded 16 16 [] with ilen := 17 }.ilen.toNat := by
  decide

theorem witness_FailureWritesOnlyTheFrame :
    ∃ t, exec .hufDec (loadedBits 2 2 [0]) = .next t ∧ decide (statusErr t.status ≠ 0) = true :=
  exists_of_answer (by decide +kernel)

theorem witness_FlagsAndErrorsByCommand :
    (∃ t, exec .hamDecb { loadedBits 4 4 [1, 1, 0] with cfgK := 1 } = .next t ∧ statusErrdet t.status = true) ∧
      (∃ t, exec .hamDecb { loadedBits 8 8 [1, 0, 1, 1, 0] with cfgK := 2 } = .next t ∧
        statusSynrange t.status = true) ∧
      (∃ t, exec .hufDec (loadedBits 2 2 [0]) = .next t ∧ decide (statusErr t.status = 1) = true) ∧
      (∃ t, exec .hamEnc (loadedBits 2 2 [0]) = .next t ∧ decide (statusErr t.status = 2) = true) ∧
      ∃ t, exec .packPack (loadedBits 1 2 [0, 1]) = .next t ∧ decide (statusErr t.status = 4) = true :=
  ⟨exists_of_answer (by decide +kernel), exists_of_answer (by decide +kernel), exists_of_answer (by decide +kernel),
    exists_of_answer (by decide +kernel), exists_of_answer (by decide +kernel)⟩

theorem witness_CommandsWriteOnlyTheirSpaces :
    ∃ t, exec .hufEnc (loaded 8 8 [98, 97]) = .next t ∧ decide (t.nnodes = 3) = true :=
  exists_of_answer (by decide +kernel)

theorem witness_OutputBeyondLengthIsKept :
    (loadedBits 9 2 [1, 0, 1]).cfg.wf = true ∧
      ∃ t, exec .packPack (loadedBits 9 2 [1, 0, 1]) = .next t ∧ decide (t.olen.toNat ≤ 1) = true :=
  ⟨by decide +kernel, exists_of_answer (by decide +kernel)⟩

theorem witness_PackMoveUnpackRestoresTheBits :
    (loadedBits 9 9 [1, 0, 1, 1, 0, 0, 1, 1, 1]).ilen.toNat ≤ (loadedBits 9 9 []).cfg.ibufCap ∧
      (loadedBits 9 9 [1, 0, 1, 1, 0, 0, 1, 1, 1]).ilen.toNat ≤ (loadedBits 9 9 []).cfg.obufCap := by decide +kernel

theorem witness_CodewordsArePrefixFree :
    (255 : Nat) < 256 ∧ 0 < freqOf [255, 97] 255 ∧ codesOf (treeOf (freqOf [255, 97])) 255 ≠ [] := by decide +kernel

theorem witness_KraftSumIsExact :
    2 ≤ ((List.range 256).countP fun a => decide (0 < freqOf [98, 97] a)) ∧
      ((List.range 256).countP fun a => decide (0 < freqOf [97, 97] a)) = 1 := by decide +kernel

theorem witness_DecodeInvertsSerialize :
    PrefixFree (fun a => if a = 97 then [false] else if a = 98 then [true, false] else []) ∧
      ∀ e ∈ ([98, 97] : List Byte),
        (fun a : Nat => if a = 97 then [false] else if a = 98 then [true, false] else []) e.toNat ≠ [] := by
  refine ⟨?_, by decide⟩
  intro a _ b _ ha hb hp
  by_cases h1 : a = 97 <;> by_cases h2 : b = 97 <;> by_cases h3 : a = 98 <;> by_cases h4 : b = 98 <;>
    simp_all

theorem witness_HuffmanRoundTripOnTheMachine :
    (loaded 2 2 [98, 97]).cfg.wf = true ∧ (loaded 2 2 [98, 97]).ilen.toNat ≤ (loaded 2 2 [98, 97]).cfg.ibufCap ∧
      (loaded 2 2 [98, 97]).ilen.toNat ≤ (loaded 2 2 [98, 97]).cfg.obufCap ∧
      ∃ t, exec .hufEnc (loaded 2 2 [98, 97]) = .next t ∧
        (decide (statusErr t.status = 0) && decide (t.olen.toNat ≤ (loaded 2 2 [98, 97]).cfg.ibufCap)) = true :=
  ⟨by decide +kernel, by decide +kernel, by decide +kernel, exists_of_answer (by decide +kernel)⟩

theorem witness_BlockPositionsFacts : 1 ≤ (1 : Nat) ∧ 1 < calcR 1 := by decide +kernel

theorem witness_SyndromeIsXorOfFlips :
    1 ≤ (4 : Nat) ∧ [true, false, true, true].length = 4 ∧ [1, 2, 7].Nodup ∧
      ∀ p ∈ [1, 2, 7], 1 ≤ p ∧ p ≤ 4 + calcR 4 := by decide +kernel

theorem witness_SingleErrorIsCorrected :
    1 ≤ (4 : Nat) ∧ [true, false, true, true].length = 4 ∧ 1 ≤ (1 : Nat) ∧ 7 ≤ 4 + calcR 4 := by decide +kernel

theorem witness_DoubleErrorIsDetectedNotLocated :
    1 ≤ (8 : Nat) ∧ (List.replicate 8 true).length = 8 ∧ 1 ≤ (5 : Nat) ∧ 5 ≤ 8 + calcR 8 ∧ 1 ≤ (8 : Nat) ∧
      8 ≤ 8 + calcR 8 ∧ (5 : Nat) ≠ 8 := by decide +kernel

theorem witness_StreamRoundTripWithOneErrorPerBlock :
    1 ≤ (4 : Nat) ∧ ∀ u : Nat, (if u = 0 then 4 + calcR 4 else 0) ≤ 4 + calcR 4 := by
  refine ⟨by decide, fun u => ?_⟩
  split <;> omega

theorem witness_OneNoiseFlipIsCorrectedOnTheMachine :
    { loadedBits 14 14 [1, 0, 1, 1, 0, 0, 1] with cfgK := 4, arg := 1 }.cfgK ≠ 0 ∧
      { loadedBits 14 14 [1, 0, 1, 1, 0, 0, 1] with cfgK := 4, arg := 1 }.arg = 1 ∧
      (loadedBits 14 14 [1, 0, 1, 1, 0, 0, 1]).ilen.toNat ≤ (loadedBits 14 14 []).cfg.ibufCap ∧
      ceilDiv (loadedBits 14 14 [1, 0, 1, 1, 0, 0, 1]).ilen.toNat 4 * (4 + calcR 4) ≤
        (loadedBits 14 14 []).cfg.obufCap ∧
      ceilDiv (loadedBits 14 14 [1, 0, 1, 1, 0, 0, 1]).ilen.toNat 4 * (4 + calcR 4) ≤
        (loadedBits 14 14 []).cfg.ibufCap ∧
      (loadedBits 14 14 []).cfg.wf = true := by decide +kernel

theorem witness_StepKeepsMemoriesCanonical :
    MemoriesWf (loaded 8 8 [98, 97]) ∧ stepAnswer ((loaded 8 8 [98, 97]).withFetchWord 32 0x23) ≠ none := by
  decide +kernel

theorem witness_StepKeepsStatusAndOutputLegal :
    StatusLegal 0x81 ∧ OutputFits { loaded 8 8 [] with olen := 8 } ∧
      stepAnswer ({ loaded 8 8 [] with olen := 8, status := 0x81 }.withFetchWord 32 0x01) ≠ none := by decide +kernel

theorem witness_StepKeepsTheTreeInvariant :
    NodeInvariant referenceTree ∧ stepAnswer (referenceTree.withFetchWord 32 0x21) ≠ none := by decide +kernel

theorem witness_GoodMachineNeverStops : NodeInvariant referenceTree := by decide +kernel

end Sys2Proof.Tests
end

section
/-! The machine right after reset meets every invariant, whatever its capacities (R42, log entry 2). -/

namespace Sys2Proof.Proofs.ResetIsGood

open Sys2Proof Sys2Proof.Machine

/-- The capacities chosen for reset lie in the range of R9. -/
theorem atReset_wf : Config.atReset.wf = true := by decide

theorem memWf_nil {α : Type} [DecidableEq α] (d : α) (bound : Nat) : memWf d bound [] = true := rfl

theorem memoriesWf_resetWith (c : Config) : MemoriesWf (State.resetWith c) :=
  ⟨memWf_nil .., memWf_nil .., memWf_nil .., memWf_nil .., memWf_nil ..⟩

/-- `STATUS` is 0 after reset, and 0 is OK with no flag set (R25). -/
theorem statusLegal_zero : StatusLegal 0 := by decide

theorem outputFits_resetWith (c : Config) : OutputFits (State.resetWith c) := Nat.zero_le _

/-- Reset leaves NODE with no entry, the first alternative of R43. -/
theorem nodeInvariant_resetWith (c : Config) : NodeInvariant (State.resetWith c) := .inl ⟨rfl, rfl⟩

/-- Only the range of the capacities depends on which machine is reset. -/
theorem good_resetWith {c : Config} (hc : c.wf = true) : Good (State.resetWith c) :=
  ⟨hc, memoriesWf_resetWith c, statusLegal_zero, outputFits_resetWith c, nodeInvariant_resetWith c⟩

/-- Settles O54: `State.reset` is the reset machine of the capacities of `Config.atReset`, which are in range. -/
theorem resetStateIsGood : Obligations.ResetStateIsGood := good_resetWith atReset_wf

end Sys2Proof.Proofs.ResetIsGood
end

section
/-! The merging loop of R144 as a forest that shrinks by one tree a pass, and what `tree(F)` is when one is left. -/

namespace Sys2Proof.Proofs.MergeForest

open Sys2Proof Sys2Proof.Machine

/-! ### Weights and children in a node sequence -/

theorem weightAt_of_getElem? {nodes : List HNode} {i : Nat} {n : HNode} (h : nodes[i]? = some n) :
    weightAt nodes i = hnodeWeight n := by simp only [weightAt, h]

theorem weightAt_append {nodes : List HNode} {i : Nat} (h : i < nodes.length) (more : List HNode) :
    weightAt (nodes ++ more) i = weightAt nodes i := by
  simp only [weightAt, List.getElem?_append_left h]

theorem weightAt_concat_length (nodes : List HNode) (n : HNode) :
    weightAt (nodes ++ [n]) nodes.length = hnodeWeight n :=
  weightAt_of_getElem? List.getElem?_concat_length

theorem map_weightAt_range (nodes : List HNode) :
    (List.range nodes.length).map (weightAt nodes) = nodes.map hnodeWeight := by
  apply List.ext_getElem (by simp)
  intro i h _
  have hi : i < nodes.length := by simpa using h
  simpa using weightAt_of_getElem? (List.getElem?_eq_getElem hi)

/-- The node is internal and `j` is one of its two children (R140). -/
def hasChild (j : Nat) : HNode → Bool
  | .leaf _ _ => false
  | .internal l r _ => l == j || r == j

/-- How many nodes of the sequence have `j` as a child (R43). -/
def childCount (nodes : List HNode) (j : Nat) : Nat := nodes.countP (hasChild j)

theorem childCount_concat_internal {a b : Nat} (hab : a ≠ b) (nodes : List HNode) (w j : Nat) :
    childCount (nodes ++ [.internal a b w]) j = childCount nodes j + [a, b].count j := by
  rw [childCount, List.countP_append, List.countP_singleton, hasChild]
  by_cases ha : a = j
  · have hb : b ≠ j := fun hb => hab (ha.trans hb.symm)
    simp [childCount, ha, hb]
  · simp [childCount, List.count_singleton, ha]

/-! ### The loop -/

theorem minKey_mem (nodes : List HNode) (i : Nat) (l : List Nat) : minKey nodes i l ∈ i :: l := by
  induction l generalizing i with
  | nil => exact List.mem_singleton.mpr rfl
  | cons j t ih =>
    rw [minKey]
    split
    · exact List.mem_cons_of_mem _ (ih j)
    · exact (List.Sublist.cons_cons i (List.sublist_cons_self j t)).subset (ih i)

/-- One pass: two of the live nodes leave the list, and the node made of them enters it at the end (R144). -/
theorem mergeLoop_pass {live : List Nat} (h : 2 ≤ live.length) (fuel : Nat) (nodes : List HNode) :
    ∃ a b rest, live.Perm (a :: b :: rest) ∧
      mergeLoop (fuel + 1) nodes live =
        mergeLoop fuel (nodes ++ [.internal a b (weightAt nodes a + weightAt nodes b)]) (rest ++ [nodes.length]) := by
  obtain _ | ⟨i, rest⟩ := live
  · simp at h
  have hp := List.perm_cons_erase (minKey_mem nodes i rest)
  rcases he : (i :: rest).erase (minKey nodes i rest) with _ | ⟨j, rest'⟩ <;> rw [he] at hp
  · rw [hp.length_eq] at h
    simp at h
  · exact ⟨_, _, _, hp.trans ((List.perm_cons_erase (minKey_mem nodes j rest')).cons _),
      by simp only [mergeLoop, he]⟩

/-- Nodes built over `leaves` so far, the roots of the trees among them being `live`: every node after the leaves has
two different earlier children and their weights' sum, a node has one parent or else stands once among the live ones,
and the live nodes carry the weight of all leaves (R43, R144). -/
structure Forest (leaves nodes : List HNode) (live : List Nat) : Prop where
  leaves_prefix : leaves <+: nodes
  internal : ∀ i, leaves.length ≤ i → i < nodes.length → ∃ l r,
    nodes[i]? = some (.internal l r (weightAt nodes l + weightAt nodes r)) ∧ l < i ∧ r < i ∧ l ≠ r
  parent_or_live : ∀ j, childCount nodes j + live.count j = if j < nodes.length then 1 else 0
  last_live : nodes.length - 1 ∈ live
  live_weight : (live.map (weightAt nodes)).sum = (leaves.map hnodeWeight).sum
  weight_le : ∀ n ∈ nodes, hnodeWeight n ≤ (leaves.map hnodeWeight).sum
  length_add : nodes.length + live.length = 2 * leaves.length

namespace Forest

variable {leaves nodes : List HNode} {live : List Nat}

theorem live_lt (h : Forest leaves nodes live) {j : Nat} (hj : j ∈ live) : j < nodes.length := by
  have hc := h.parent_or_live j
  have := List.count_pos_iff.mpr hj
  split at hc <;> omega

theorem live_nodup (h : Forest leaves nodes live) : live.Nodup := by
  rw [List.nodup_iff_count_le_one]
  intro j
  have hc := h.parent_or_live j
  split at hc <;> omega

theorem perm {live' : List Nat} (h : Forest leaves nodes live) (hp : live.Perm live') : Forest leaves nodes live' where
  leaves_prefix := h.leaves_prefix
  internal := h.internal
  parent_or_live j := by rw [← hp.count_eq, h.parent_or_live]
  last_live := hp.mem_iff.mp h.last_live
  live_weight := by rw [← h.live_weight, (hp.map _).sum_eq]
  weight_le := h.weight_le
  length_add := by rw [← hp.length_eq, h.length_add]

/-- A forest of leaves: no merge has been made yet (R143). -/
theorem of_leaves (hne : leaves ≠ []) (hleaf : ∀ n ∈ leaves, ∀ j, hasChild j n = false) :
    Forest leaves leaves (List.range leaves.length) where
  leaves_prefix := List.prefix_refl _
  internal i hi hlt := absurd hlt (by omega)
  parent_or_live j := by
    have h0 : childCount leaves j = 0 := List.countP_eq_zero.mpr fun n hn => by simp [hleaf n hn j]
    rw [h0, Nat.zero_add, List.nodup_range.count]
    simp only [List.mem_range]
  last_live := by
    have := List.length_pos_iff.mpr hne
    rw [List.mem_range]
    omega
  live_weight := by rw [map_weightAt_range]
  weight_le n hn := List.le_sum_of_mem (List.mem_map_of_mem hn)
  length_add := by rw [List.length_range]; omega

/-- Merging two live nodes keeps the forest. -/
theorem merge {a b : Nat} {rest : List Nat} (h : Forest leaves nodes (a :: b :: rest)) :
    Forest leaves (nodes ++ [.internal a b (weightAt nodes a + weightAt nodes b)]) (rest ++ [nodes.length]) := by
  have ha : a < nodes.length := h.live_lt (by simp)
  have hb : b < nodes.length := h.live_lt (by simp)
  have hab : a ≠ b := by
    rintro rfl
    exact (List.nodup_cons.mp h.live_nodup).1 (by simp)
  have hw := h.live_weight
  simp only [List.map_cons, List.sum_cons] at hw
  constructor
  case leaves_prefix => exact h.leaves_prefix.trans (List.prefix_append ..)
  case internal =>
    intro i hi hlt
    rw [List.length_append, List.length_singleton] at hlt
    rcases Nat.lt_or_ge i nodes.length with hold | hnew
    · obtain ⟨l, r, hget, hl, hr, hne⟩ := h.internal i hi hold
      refine ⟨l, r, ?_, hl, hr, hne⟩
      rw [List.getElem?_append_left hold, hget, weightAt_append (by omega), weightAt_append (by omega)]
    · obtain rfl : i = nodes.length := by omega
      refine ⟨a, b, ?_, ha, hb, hab⟩
      rw [List.getElem?_concat_length, weightAt_append ha, weightAt_append hb]
  case parent_or_live =>
    intro j
    have hc := h.parent_or_live j
    rw [childCount_concat_internal hab, List.length_append, List.length_singleton]
    simp only [List.count_append, List.count_cons, List.count_nil, beq_iff_eq] at hc ⊢
    split_ifs at hc ⊢ <;> omega
  case last_live => simp
  case live_weight =>
    have hmap : rest.map (weightAt (nodes ++ [.internal a b (weightAt nodes a + weightAt nodes b)])) =
        rest.map (weightAt nodes) :=
      List.map_congr_left fun j hj => weightAt_append (h.live_lt (by simp [hj])) _
    rw [List.map_append, List.sum_append, hmap, List.map_singleton, List.sum_singleton, weightAt_concat_length,
      hnodeWeight]
    omega
  case weight_le =>
    intro n hn
    rcases List.mem_append.mp hn with hn | hn
    · exact h.weight_le n hn
    · rw [List.mem_singleton.mp hn, hnodeWeight]
      omega
  case length_add =>
    have := h.length_add
    simp only [List.length_append, List.length_cons, List.length_nil] at this ⊢
    omega

/-- With a pass for every live node but one, the loop leaves a forest of one tree, whose root is the last node. -/
theorem mergeLoop {fuel : Nat} (h : Forest leaves nodes live) (hlen : live.length = fuel + 1) :
    Forest leaves (mergeLoop fuel nodes live) [(mergeLoop fuel nodes live).length - 1] := by
  induction fuel generalizing nodes live with
  | zero =>
    obtain ⟨r, rfl⟩ := List.length_eq_one_iff.mp hlen
    have := List.mem_singleton.mp h.last_live
    rwa [Machine.mergeLoop, this]
  | succ fuel ih =>
    obtain ⟨a, b, rest, hp, he⟩ := mergeLoop_pass (live := live) (by omega) fuel nodes
    rw [he]
    have := hp.length_eq
    simp only [List.length_cons] at this
    exact ih (h.perm hp).merge (by rw [List.length_append, List.length_singleton]; omega)

end Forest

/-! ### The tree of a frequency table -/

variable (F : Nat → Nat)

theorem alphabetSize_le : alphabetSize F ≤ 256 :=
  (List.length_filter_le ..).trans_eq List.length_range

theorem mem_alphabet {F : Nat → Nat} {sym : Nat} : sym ∈ alphabet F ↔ sym < 256 ∧ 0 < F sym := by
  simp [alphabet]

@[simp] theorem leavesOf_length : (leavesOf F).length = alphabetSize F := by simp [leavesOf, alphabetSize]

theorem treeOf_of_alphabetSize_eq_zero {F : Nat → Nat} (h : alphabetSize F = 0) : treeOf F = [] := by
  have : leavesOf F = [] := List.eq_nil_of_length_eq_zero ((leavesOf_length F).trans h)
  rw [treeOf, h, this, Machine.mergeLoop]

/-- A table with a present symbol has a tree: a forest over its leaves of which one tree is left. -/
theorem treeOf_forest {F : Nat → Nat} (h : 1 ≤ alphabetSize F) :
    Forest (leavesOf F) (treeOf F) [(treeOf F).length - 1] := by
  have hlen := leavesOf_length F
  have h0 : Forest (leavesOf F) (leavesOf F) (List.range (leavesOf F).length) :=
    .of_leaves (List.ne_nil_of_length_pos (by omega)) fun n hn j => by
      obtain ⟨sym, -, rfl⟩ := List.mem_map.mp hn
      rfl
  rw [hlen] at h0
  exact h0.mergeLoop (by rw [List.length_range]; omega)

theorem treeOf_length : (treeOf F).length = 2 * alphabetSize F - 1 := by
  rcases Nat.eq_zero_or_pos (alphabetSize F) with h0 | h1
  · rw [treeOf_of_alphabetSize_eq_zero h0, h0]
    rfl
  · have := (treeOf_forest h1).length_add
    simp only [List.length_singleton, leavesOf_length] at this
    omega

/-- NODE has room for every tree (R8, R39). -/
theorem treeOf_length_le : (treeOf F).length ≤ 511 := by
  have := alphabetSize_le F
  rw [treeOf_length]
  omega

/-- Weights of 32-bit counts fit 40 bits (R39). -/
theorem treeOf_weight_lt {F : Nat → Nat} (hF : ∀ sym, F sym < 2 ^ 32) {n : HNode} (hn : n ∈ treeOf F) :
    hnodeWeight n < 2 ^ 40 := by
  have hm := alphabetSize_le F
  rcases Nat.eq_zero_or_pos (alphabetSize F) with h0 | h1
  · rw [treeOf_of_alphabetSize_eq_zero h0] at hn
    cases hn
  · have hsum : ((leavesOf F).map hnodeWeight).sum ≤ alphabetSize F * (2 ^ 32 - 1) := by
      refine (List.sum_le_card_nsmul _ (2 ^ 32 - 1) fun w hw => ?_).trans_eq (by simp)
      simp only [leavesOf, List.mem_map] at hw
      obtain ⟨n, ⟨sym, -, rfl⟩, rfl⟩ := hw
      exact Nat.le_sub_one_of_lt (hF sym)
    have := (treeOf_forest h1).weight_le n hn
    omega

/-- The first nodes are the leaves, by the place of their symbol in the alphabet (R143). -/
theorem treeOf_getElem?_of_lt {F : Nat → Nat} {i : Nat} (h : i < (alphabet F).length) :
    (treeOf F)[i]? = some (.leaf (BitVec.ofNat 8 (alphabet F)[i]) (F (alphabet F)[i])) := by
  obtain ⟨inner, hf⟩ := (treeOf_forest (F := F) (Nat.one_le_of_lt h)).leaves_prefix
  rw [← hf, List.getElem?_append_left (by rwa [leavesOf_length])]
  simp [leavesOf, h]

/-- The children of a node come before it (R144). -/
theorem treeOf_child_lt {F : Nat → Nat} {i l r w : Nat} (h : (treeOf F)[i]? = some (.internal l r w)) :
    l < i ∧ r < i := by
  rcases Nat.lt_or_ge i (alphabetSize F) with hlt | hge
  · rw [treeOf_getElem?_of_lt hlt] at h
    cases h
  · obtain ⟨hi, -⟩ := List.getElem?_eq_some_iff.mp h
    have hlen := treeOf_length F
    obtain ⟨l', r', hget, hl, hr, -⟩ :=
      (treeOf_forest (F := F) (by omega)).internal i (by rwa [leavesOf_length]) hi
    cases hget.symm.trans h
    exact ⟨hl, hr⟩

theorem alphabet_getElem_lt_succ {F : Nat → Nat} {i : Nat} (h : i + 1 < (alphabet F).length) :
    (alphabet F)[i] < (alphabet F)[i + 1] :=
  have hp : (alphabet F).Pairwise (· < ·) := List.pairwise_lt_range.filter _
  List.pairwise_iff_getElem.mp hp i (i + 1) (by omega) h (by omega)

end Sys2Proof.Proofs.MergeForest
end

section
/-! What a host write leaves alone, and one rule for every invariant of the step (R62, R72, R76). -/

namespace Sys2Proof.Proofs.StepRule

open Sys2Proof Sys2Proof.Machine

/-! ### Host writes -/

/-- A host write changes at most the four read/write registers and the memories IBUF, FREQ and CWT (R33, R64). -/
theorem hostWrite_frame (s : State) (space index : Nat) (v : Word) :
    hostWrite s space index v = { s with
      cfgK := (hostWrite s space index v).cfgK, arg := (hostWrite s space index v).arg,
      ilen := (hostWrite s space index v).ilen, bitlen := (hostWrite s space index v).bitlen,
      ibuf := (hostWrite s space index v).ibuf, freq := (hostWrite s space index v).freq,
      cwt := (hostWrite s space index v).cwt } := by
  unfold hostWrite
  split
  · unfold writeReg
    split <;> rfl
  · split <;> rfl
  · split <;> rfl
  · split <;> rfl
  · rfl

section Fields

variable (s : State) (space index : Nat) (v : Word)

@[simp] theorem hostWrite_status : (hostWrite s space index v).status = s.status := by rw [hostWrite_frame]
@[simp] theorem hostWrite_olen : (hostWrite s space index v).olen = s.olen := by rw [hostWrite_frame]
@[simp] theorem hostWrite_nnodes : (hostWrite s space index v).nnodes = s.nnodes := by rw [hostWrite_frame]
@[simp] theorem hostWrite_root : (hostWrite s space index v).root = s.root := by rw [hostWrite_frame]
@[simp] theorem hostWrite_obuf : (hostWrite s space index v).obuf = s.obuf := by rw [hostWrite_frame]
@[simp] theorem hostWrite_node : (hostWrite s space index v).node = s.node := by rw [hostWrite_frame]
@[simp] theorem hostWrite_cfg : (hostWrite s space index v).cfg = s.cfg := by rw [hostWrite_frame]

end Fields

/-! ### Invariants of the step -/

/-- The capacities are parameters: no command's own writes touch them (R9). -/
theorem ownWrites_cfg (i : Instr) (s : State) : (ownWrites i s).cfg = s.cfg := by cases i <;> rfl

/-- A predicate that sees neither the host's list nor its last read is kept by every step when host writes, the
failure frame of an illegal word, commands and reset keep it. -/
theorem step_keeps {P : State → Prop}
    (hhost : ∀ s rest data, P s → P { s with pending := rest, hostData := data })
    (hwrite : ∀ s space index v, P s → P (hostWrite s space index v))
    (hillegal : ∀ s, P s → P (failFrame .illegalCmd 0 s))
    (hexec : ∀ i s t, P s → exec i s = .next t → P t)
    (hreset : ∀ s, P s → P (hardwareReset s)) {s t : State} (hs : P s) (h : step s = .next t) : P t := by
  rcases step_cases h with ⟨-, rfl⟩ | ⟨a, rest, -, hact⟩
  · exact hs
  · have hs' : P { s with pending := rest } := hhost s rest s.hostData hs
    rcases hact with ⟨space, index, -, rfl⟩ | ⟨space, index, v, -, -, rfl⟩ | ⟨v, why, -, -, rfl⟩ |
      ⟨v, i, -, -, hi⟩ | ⟨-, rfl⟩
    · exact hhost s rest _ hs
    · exact hwrite _ space index v hs'
    · exact hillegal _ hs'
    · exact hexec i _ t hs' hi
    · exact hreset _ hs'

end Sys2Proof.Proofs.StepRule
end

section
/-! NODE holds nothing or a tree, whatever the machine does (R43): storing `tree(F)` makes it so, and nothing else
than HUF.TREE, HUF.ENC and reset writes NODE, `NNODES` or `ROOT`. -/

namespace Sys2Proof.Proofs.TreeInvariant

open Sys2Proof Sys2Proof.Machine Sys2Proof.Proofs.MergeForest Sys2Proof.Proofs.StepRule
  Sys2Proof.Proofs.ResetIsGood

/-! ### NODE after a tree is stored -/

theorem nodeAt_storeTree {nodes : List HNode} {i : Nat} {n : HNode} (h : nodes[i]? = some n) (s : State) :
    nodeAt (storeTree nodes s) i = nodeOf n := by
  obtain ⟨hi, rfl⟩ := List.getElem?_eq_some_iff.mp h
  rw [nodeAt, storeTree_node, memRead_memWriteSeq, if_pos (by simpa using hi)]
  simp [hi]

theorem nodeOf_weight {n : HNode} (h : hnodeWeight n < 2 ^ 40) : (nodeOf n).weight.toNat = hnodeWeight n := by
  cases n <;> exact Nat.mod_eq_of_lt h

theorem nodeAt_storeTree_weight {nodes : List HNode} (hw : ∀ n ∈ nodes, hnodeWeight n < 2 ^ 40) {i : Nat}
    (hi : i < nodes.length) (s : State) : (nodeAt (storeTree nodes s) i).weight.toNat = weightAt nodes i := by
  have hget := List.getElem?_eq_getElem hi
  rw [nodeAt_storeTree hget, nodeOf_weight (hw _ (List.getElem_mem hi)), weightAt_of_getElem? hget]

/-- The parents R43 counts in NODE are those in the stored sequence, as long as child indices fit 9 bits. -/
theorem parentCount_storeTree {nodes : List HNode} {j : Nat}
    (hfit : ∀ l r w, .internal l r w ∈ nodes → l < 512 ∧ r < 512) (s : State) :
    parentCount (storeTree nodes s) nodes.length j = childCount nodes j := by
  have hseq : (List.range nodes.length).map (nodeAt (storeTree nodes s)) = nodes.map nodeOf := by
    have := memSeq_memWriteSeq nodeEmpty s.node (nodes.map nodeOf)
    rwa [List.length_map] at this
  have hcount : parentCount (storeTree nodes s) nodes.length j = (nodes.map nodeOf).countP fun n =>
      !n.leaf && (n.left.toNat == j || n.right.toNat == j) := by
    rw [← hseq, List.countP_map]
    rfl
  rw [hcount, List.countP_map, childCount]
  refine List.countP_congr fun n hn => ?_
  cases n with
  | leaf sym w => simp [nodeOf, hasChild]
  | internal l r w =>
    obtain ⟨hl, hr⟩ := hfit l r w hn
    simp [nodeOf, hasChild, Nat.mod_eq_of_lt hl, Nat.mod_eq_of_lt hr]

/-- Child indices of a tree are node indices, so they fit the 9 bits of `LEFT` and `RIGHT` (R39). -/
theorem treeOf_child_fits {F : Nat → Nat} {l r w : Nat} (h : .internal l r w ∈ treeOf F) : l < 512 ∧ r < 512 := by
  obtain ⟨i, hi⟩ := List.mem_iff_getElem?.mp h
  have hlt := treeOf_child_lt hi
  have := (List.getElem?_eq_some_iff.mp hi).1
  have := treeOf_length_le F
  omega

section Stored

variable {F : Nat → Nat} (hF : ∀ sym, F sym < 2 ^ 32) (s : State)

/-- R143 in NODE. -/
theorem leavesOk_storeTree : LeavesOk (storeTree (treeOf F) s) (alphabetSize F) := by
  intro i hi
  have hsym : ∀ j (hj : j < (alphabet F).length),
      (nodeAt (storeTree (treeOf F) s) j).sym.toNat = (alphabet F)[j] := fun j hj => by
    rw [nodeAt_storeTree (treeOf_getElem?_of_lt hj)]
    exact Nat.mod_eq_of_lt (mem_alphabet.mp (List.getElem_mem hj)).1
  refine ⟨?_, ?_, ?_, fun hsucc => ?_⟩
  · rw [nodeAt_storeTree (treeOf_getElem?_of_lt hi), nodeOf]
  · rw [nodeAt_storeTree (treeOf_getElem?_of_lt hi), nodeOf]
  · rw [nodeAt_storeTree (treeOf_getElem?_of_lt hi), nodeOf]
  · rw [hsym i hi, hsym (i + 1) hsucc]
    exact alphabet_getElem_lt_succ hsucc

include hF

/-- R144 in NODE: the parts of `InternalsOk` are those of the forest. -/
theorem internalsOk_storeTree (h : 1 ≤ alphabetSize F) :
    InternalsOk (storeTree (treeOf F) s) (alphabetSize F) := by
  intro i hi hm
  have hlen := treeOf_length F
  have hle := treeOf_length_le F
  obtain ⟨l, r, hget, hl, hr, hne⟩ := (treeOf_forest h).internal i (by rwa [leavesOf_length]) (by omega)
  have hleft : (BitVec.ofNat 9 l).toNat = l := Nat.mod_eq_of_lt (by omega)
  have hright : (BitVec.ofNat 9 r).toNat = r := Nat.mod_eq_of_lt (by omega)
  have hw : ∀ n ∈ treeOf F, hnodeWeight n < 2 ^ 40 := fun n hn => treeOf_weight_lt hF hn
  rw [nodeAt_storeTree_weight hw (by omega), weightAt_of_getElem? hget, nodeAt_storeTree hget]
  simp only [nodeOf, hleft, hright, hnodeWeight, true_and]
  refine ⟨hl, hr, fun he => hne ?_, ?_⟩
  · rw [← hleft, ← hright, he]
  · rw [nodeAt_storeTree_weight hw (by omega), nodeAt_storeTree_weight hw (by omega)]

/-- Storing the tree of a table of 32-bit counts leaves NODE as R43 says. -/
theorem nodeInvariant_storeTree : NodeInvariant (storeTree (treeOf F) s) := by
  have hlen := treeOf_length F
  have hle := alphabetSize_le F
  rcases Nat.eq_zero_or_pos (alphabetSize F) with h0 | h1
  · left
    simp [treeOf_of_alphabetSize_eq_zero h0]
  · right
    have hn : (storeTree (treeOf F) s).nnodes.toNat = 2 * alphabetSize F - 1 := by
      rw [storeTree_nnodes, hlen]
      exact Nat.mod_eq_of_lt (by omega)
    have hr : (storeTree (treeOf F) s).root.toNat = 2 * alphabetSize F - 2 := by
      rw [storeTree_root, hlen]
      exact Nat.mod_eq_of_lt (by omega)
    have hm : ((storeTree (treeOf F) s).nnodes.toNat + 1) / 2 = alphabetSize F := by omega
    rw [hm]
    refine ⟨h1, hle, hn, hr, leavesOk_storeTree s, internalsOk_storeTree hF s h1, fun j hj => ?_⟩
    have hone := (treeOf_forest h1).parent_or_live j
    rw [List.count_singleton, if_neg (by simpa using by omega), if_pos (by omega), Nat.add_zero] at hone
    rw [← hlen, parentCount_storeTree fun _ _ _ => treeOf_child_fits, hone]

end Stored

/-! ### Every step -/

/-- The invariant sees NODE, `NNODES` and `ROOT` only. -/
theorem nodeInvariant_congr {s t : State} (hnode : t.node = s.node) (hnnodes : t.nnodes = s.nnodes)
    (hroot : t.root = s.root) (h : NodeInvariant s) : NodeInvariant t := by
  simpa only [NodeInvariant, TreeOk, LeavesOk, InternalsOk, parentCount, nodeAt, hnode, hnnodes, hroot] using h

theorem freqTableOf_lt (s : State) (sym : Nat) : freqTableOf s sym < 2 ^ 32 := (freqAt s sym).isLt

theorem freqOf_symsOf_lt (s : State) (sym : Nat) : freqOf (symsOf s) sym < 2 ^ 32 :=
  List.countP_le_length.trans_lt (by rw [symsOf_length]; exact s.ilen.isLt)

theorem nodeInvariant_ownWrites (i : Instr) {s : State} (h : NodeInvariant s) : NodeInvariant (ownWrites i s) := by
  cases i with
  | hufTree => exact nodeInvariant_storeTree (freqTableOf_lt s) s
  | hufEnc => exact nodeInvariant_congr rfl rfl rfl (nodeInvariant_storeTree (freqOf_symsOf_lt s) (storeFreq _ s))
  | _ => exact nodeInvariant_congr rfl rfl rfl h

theorem nodeInvariant_exec {i : Instr} {s t : State} (h : NodeInvariant s) (he : exec i s = .next t) :
    NodeInvariant t := by
  rcases exec_cases he with ⟨e, sub, -, rfl⟩ | ⟨out, n, ed, sr, -, rfl, -⟩
  · exact nodeInvariant_congr rfl rfl rfl h
  · exact nodeInvariant_congr rfl rfl rfl (nodeInvariant_ownWrites i h)

/-- Settles O57: each step leaves NODE alone, stores a tree, or clears it. -/
theorem stepKeepsTheTreeInvariant : Obligations.StepKeepsTheTreeInvariant := by
  refine ⟨nodeInvariant_resetWith _, fun s t => step_keeps ?host ?write ?illegal ?exec ?reset⟩
  case host => exact fun _ _ _ => nodeInvariant_congr rfl rfl rfl
  case write => exact fun _ _ _ _ => nodeInvariant_congr (by simp) (by simp) (by simp)
  case illegal => exact fun _ => nodeInvariant_congr rfl rfl rfl
  case exec => exact fun _ _ _ => nodeInvariant_exec
  case reset => exact fun _ _ => .inl ⟨rfl, rfl⟩

end Sys2Proof.Proofs.TreeInvariant
end

section
/-! The five memories stay in canonical form and inside their spaces (R35 to R39, R60). -/

namespace Sys2Proof.Proofs.MemoriesCanonical

open Sys2Proof Sys2Proof.Machine Sys2Proof.Proofs.MergeForest Sys2Proof.Proofs.StepRule
  Sys2Proof.Proofs.ResetIsGood

/-- Each writable memory is changed by `memWrite` at an index the access has checked (R61, R64). -/
theorem memoriesWf_hostWrite (s : State) (space index : Nat) (v : Word) (h : MemoriesWf s) :
    MemoriesWf (hostWrite s space index v) := by
  obtain ⟨hibuf, hobuf, hfreq, hcwt, hnode⟩ := h
  unfold hostWrite
  split
  · unfold writeReg
    split <;> exact ⟨hibuf, hobuf, hfreq, hcwt, hnode⟩
  · split
    · next hi => exact ⟨memWf_memWrite hi hibuf, hobuf, hfreq, hcwt, hnode⟩
    · exact ⟨hibuf, hobuf, hfreq, hcwt, hnode⟩
  · split
    · next hi => exact ⟨hibuf, hobuf, memWf_memWrite hi hfreq, hcwt, hnode⟩
    · exact ⟨hibuf, hobuf, hfreq, hcwt, hnode⟩
  · split
    · next hi => exact ⟨hibuf, hobuf, hfreq, memWf_memWrite hi.1 hcwt, hnode⟩
    · exact ⟨hibuf, hobuf, hfreq, hcwt, hnode⟩
  · exact ⟨hibuf, hobuf, hfreq, hcwt, hnode⟩

theorem memWf_freqMemOf (F : Nat → Nat) : memWf 0 256 (freqMemOf F) = true := memWf_memTable ..

theorem memWf_cwtMemOf (T : Nat → List Bool) : memWf cwEmpty 256 (cwtMemOf T) = true := memWf_memTable ..

theorem memoriesWf_storeFreq (F : Nat → Nat) {s : State} (h : MemoriesWf s) : MemoriesWf (storeFreq F s) := by
  obtain ⟨hibuf, hobuf, -, hcwt, hnode⟩ := h
  exact ⟨hibuf, hobuf, memWf_freqMemOf F, hcwt, hnode⟩

theorem memoriesWf_storeTree (F : Nat → Nat) {s : State} (h : MemoriesWf s) :
    MemoriesWf (storeTree (treeOf F) s) := by
  obtain ⟨hibuf, hobuf, hfreq, hcwt, hnode⟩ := h
  have hfits : 0 + ((treeOf F).map nodeOf).length ≤ 511 := by simpa using treeOf_length_le F
  exact ⟨hibuf, hobuf, hfreq, hcwt, memWf_memWriteSeq hfits hnode⟩

theorem memoriesWf_storeCodes (T : Nat → List Bool) {s : State} (h : MemoriesWf s) :
    MemoriesWf (storeCodes T s) := by
  obtain ⟨hibuf, hobuf, hfreq, -, hnode⟩ := h
  exact ⟨hibuf, hobuf, hfreq, memWf_cwtMemOf T, hnode⟩

/-- An output that fits OBUF goes below its capacity (R112, R113). -/
theorem memoriesWf_successFrame {out : List Byte} {n : Nat} {ed sr : Bool} {s : State}
    (hout : out.length ≤ s.cfg.obufCap) (h : MemoriesWf s) : MemoriesWf (successFrame out n ed sr s) := by
  obtain ⟨hibuf, hobuf, hfreq, hcwt, hnode⟩ := h
  exact ⟨hibuf, memWf_memWriteSeq ((Nat.zero_add _).trans_le hout) hobuf, hfreq, hcwt, hnode⟩

/-- Every command's own writes but SYS.MOV's, whose input may be longer than IBUF. -/
theorem memoriesWf_ownWrites {i : Instr} (hi : i ≠ .sysMov) {s : State} (h : MemoriesWf s) :
    MemoriesWf (ownWrites i s) := by
  cases i with
  | sysMov => exact absurd rfl hi
  | hufFreq => exact memoriesWf_storeFreq _ h
  | hufTree => exact memoriesWf_storeTree _ h
  | hufCodes => exact memoriesWf_storeCodes _ h
  | hufEnc => exact memoriesWf_storeCodes _ (memoriesWf_storeTree _ (memoriesWf_storeFreq _ h))
  | _ => exact h

/-- SYS.MOV writes IBUF only after its check of `OLEN` against `IBUF_CAP` (R115). -/
theorem memoriesWf_sysMov {s t : State} (h : MemoriesWf s) (he : exec .sysMov s = .next t) : MemoriesWf t := by
  rw [exec, execSysMov] at he
  split at he
  · rw [failWith_eq] at he
    cases he
    exact h
  · next hcap =>
    rw [finish_nil] at he
    cases he
    obtain ⟨hibuf, hobuf, hfreq, hcwt, hnode⟩ := h
    have hfits : 0 + (outputOf s).length ≤ s.cfg.ibufCap := by rw [outputOf_length]; omega
    exact ⟨memWf_memWriteSeq hfits hibuf, hobuf, hfreq, hcwt, hnode⟩

theorem memoriesWf_exec {i : Instr} {s t : State} (h : MemoriesWf s) (he : exec i s = .next t) : MemoriesWf t := by
  by_cases hi : i = .sysMov
  · subst hi
    exact memoriesWf_sysMov h he
  · rcases exec_cases he with ⟨e, sub, -, rfl⟩ | ⟨out, n, ed, sr, hout, rfl, -⟩
    · exact h
    · exact memoriesWf_successFrame (by rwa [ownWrites_cfg]) (memoriesWf_ownWrites hi h)

/-- Settles O55: every store is at an index below its memory's bound, and replaced tables are canonical as made. -/
theorem stepKeepsMemoriesCanonical : Obligations.StepKeepsMemoriesCanonical := by
  intro s t
  refine step_keeps ?host ?write ?illegal ?exec ?reset
  case host => exact fun _ _ _ h => h
  case write => exact memoriesWf_hostWrite
  case illegal => exact fun _ h => h
  case exec => exact fun _ _ _ => memoriesWf_exec
  case reset => exact fun s _ => memoriesWf_resetWith s.cfg

end Sys2Proof.Proofs.MemoriesCanonical
end

section
/-! STATUS (R25, R34): which command reports which error, where flags come from, and that nothing reads it. -/

namespace Sys2Proof.Proofs.StatusRules

open Sys2Proof Sys2Proof.Machine Sys2Proof.Proofs.StepRule Sys2Proof.Proofs.ResetIsGood

/-! ### The fields of a written STATUS -/

section Fields

variable (e : ErrCode) (ed sr : Bool) (sub : BitVec 2)

@[simp] theorem statusErr_statusWord : statusErr (statusWord e ed sr sub) = errNum e := by
  cases e <;> revert ed sr sub <;> decide
@[simp] theorem statusErrdet_statusWord : statusErrdet (statusWord e ed sr sub) = ed := by
  cases e <;> revert ed sr sub <;> decide
@[simp] theorem statusSynrange_statusWord : statusSynrange (statusWord e ed sr sub) = sr := by
  cases e <;> revert ed sr sub <;> decide
@[simp] theorem statusSub_statusWord : statusSub (statusWord e ed sr sub) = sub := by
  cases e <;> revert ed sr sub <;> decide
@[simp] theorem statusReserved_statusWord : statusReserved (statusWord e ed sr sub) = 0 := by
  cases e <;> revert ed sr sub <;> decide

end Fields

theorem errNum_injective : Function.Injective errNum := by
  intro a b h
  revert h
  cases a <;> cases b <;> decide

/-! ### STATUS stays legal and OLEN within OBUF (R25, R28) -/

theorem statusLegal_failFrame {e : ErrCode} {sub : BitVec 2} (h : FailureLegal e sub) (s : State) :
    StatusLegal (failFrame e sub s).status := by
  rcases h with ⟨rfl, rfl | rfl⟩ | ⟨rfl | rfl | rfl, rfl⟩ <;>
    simp [StatusLegal, errNum, subTruncated, subDeadEnd]

/-- ILLEGAL_CMD comes from no command, so `FailureLegal` leaves it out (R94, R244). -/
theorem statusLegal_illegalCmd (s : State) : StatusLegal (failFrame .illegalCmd 0 s).status := by
  simp [StatusLegal, errNum]

theorem statusLegal_successFrame {ed sr : Bool} (h : sr = true → ed = true) (out : List Byte) (n : Nat) (s : State) :
    StatusLegal (successFrame out n ed sr s).status := by
  simpa [StatusLegal, errNum] using h

theorem statusLegal_exec {i : Instr} {s t : State} (h : exec i s = .next t) : StatusLegal t.status := by
  rcases exec_cases h with ⟨e, sub, hl, rfl⟩ | ⟨out, n, ed, sr, -, rfl, -, hflags⟩
  · exact statusLegal_failFrame hl s
  · exact statusLegal_successFrame hflags out n _

theorem outputFits_exec {i : Instr} {s t : State} (h : exec i s = .next t) : OutputFits t := by
  rcases exec_cases h with ⟨e, sub, -, rfl⟩ | ⟨out, n, ed, sr, hout, rfl, -⟩
  · exact Nat.zero_le _
  · rw [OutputFits, successFrame_olen, successFrame_cfg, ownWrites_cfg]
    exact (Nat.mod_le ..).trans hout

/-- Settles O56: a command writes a legal `STATUS` and an `OLEN` that fits, and so do an illegal word and reset. -/
theorem stepKeepsStatusAndOutputLegal : Obligations.StepKeepsStatusAndOutputLegal := by
  refine fun s t h => ⟨fun hs => ?_, fun hs => ?_⟩
  · refine step_keeps (P := fun s => StatusLegal s.status) ?host ?write ?illegal ?exec ?reset hs h
    case host => exact fun _ _ _ h => h
    case write => exact fun s space index v h => by rwa [hostWrite_status]
    case illegal => exact fun s _ => statusLegal_illegalCmd s
    case exec => exact fun _ _ _ _ => statusLegal_exec
    case reset => exact fun _ _ => statusLegal_zero
  · refine step_keeps (P := OutputFits) ?host ?write ?illegal ?exec ?reset hs h
    case host => exact fun _ _ _ h => h
    case write => exact fun s space index v h => by rwa [OutputFits, hostWrite_olen, hostWrite_cfg]
    case illegal => exact fun _ _ => Nat.zero_le _
    case exec => exact fun _ _ _ _ => outputFits_exec
    case reset => exact fun _ _ => Nat.zero_le _

/-! ### Errors by command (R241) -/

/-- The errors a command may report besides CAPACITY, which is the common check of R113. -/
def ownErrors : Instr → List ErrCode
  | .sysNop | .sysMov | .hufTree | .hufCodes | .hamCalcr => []
  | .packPack | .packUnpack | .hufFreq | .hufEnc | .hamNoise => [.badOperand]
  | .hufDec => [.badOperand, .unknownSymbol]
  | .hamEncb | .hamDecb | .hamEnc | .hamDec => [.badOperand, .configMismatch]

/-- A next state of this outcome reports OK, CAPACITY or an error of the list. -/
def ErrorsIn (l : List ErrCode) (o : Host.Outcome State Fault Refusal) : Prop :=
  ∀ t, o = .next t → ∃ e ∈ .ok :: .capacity :: l, statusErr t.status = errNum e

namespace ErrorsIn

variable {l : List ErrCode}

theorem failWith {e : ErrCode} (he : e ∈ .ok :: .capacity :: l) {sub : BitVec 2} {s : State} :
    ErrorsIn l (failWith e sub s) := by
  intro t ht
  rw [failWith_eq] at ht
  cases ht
  exact ⟨e, he, by simp⟩

theorem finish {s t : State} {out : List Byte} {n : Nat} {ed sr : Bool} :
    ErrorsIn l (finish s t out n ed sr) := by
  intro t' ht
  rcases finish_cases ht with rfl | ⟨-, rfl⟩
  · exact ⟨.capacity, by simp, by simp⟩
  · exact ⟨.ok, by simp, by simp⟩

theorem ite {c : Prop} [Decidable c] {a b : Host.Outcome State Fault Refusal} (ha : ErrorsIn l a)
    (hb : ErrorsIn l b) : ErrorsIn l (if c then a else b) := by
  split
  · exact ha
  · exact hb

theorem fault {r : Fault} : ErrorsIn l (.fault r) := fun _ h => by cases h

end ErrorsIn

/-- Each command's checks are a chain of `if`s whose failing branches carry its own errors. -/
theorem exec_errorsIn (i : Instr) (s : State) : ErrorsIn (ownErrors i) (exec i s) := by
  have bad : ∀ {l}, .badOperand ∈ l → ErrorsIn l (failWith .badOperand 0 s) := fun h => .failWith (by simp [h])
  have mis : ∀ {l}, .configMismatch ∈ l → ErrorsIn l (failWith .configMismatch 0 s) :=
    fun h => .failWith (by simp [h])
  have cap : ∀ {l}, ErrorsIn l (failWith .capacity 0 s) := .failWith (by simp)
  cases i with
  | sysNop =>
    rw [exec, execSysNop]
    exact .finish
  | sysMov => exact .ite cap .finish
  | packPack => exact .ite (bad (by decide)) .finish
  | packUnpack => exact .ite (bad (by decide)) (.ite (bad (by decide)) .finish)
  | hufFreq => exact .ite (bad (by decide)) .finish
  | hufTree =>
    rw [exec, execHufTree]
    exact .finish
  | hufCodes => exact .ite .finish .fault
  | hufEnc => exact .ite (bad (by decide)) .finish
  | hufDec =>
    refine .ite (bad (by decide)) ?_
    split
    · exact .failWith (by decide)
    · exact .finish
  | hamCalcr =>
    rw [exec, execHamCalcr]
    exact .finish
  | hamEncb => exact .ite (bad (by decide)) (.ite (mis (by decide)) .finish)
  | hamDecb => exact .ite (bad (by decide)) (.ite (mis (by decide)) .finish)
  | hamEnc => exact .ite (bad (by decide)) (.ite (mis (by decide)) (.ite cap .finish))
  | hamDec => exact .ite (bad (by decide)) (.ite (mis (by decide)) .finish)
  | hamNoise => exact .ite (bad (by decide)) .finish

/-- An error that is neither OK nor CAPACITY is one of the command's own. -/
theorem mem_ownErrors_of_exec {i : Instr} {s t : State} (h : exec i s = .next t) {e : ErrCode}
    (he : statusErr t.status = errNum e) (hok : e ≠ .ok) (hcap : e ≠ .capacity) : e ∈ ownErrors i := by
  obtain ⟨e', hmem, he'⟩ := exec_errorsIn i s t h
  obtain rfl : e = e' := errNum_injective (he.symm.trans he')
  simpa [hok, hcap] using hmem

theorem unknownSymbol_mem_ownErrors {i : Instr} : .unknownSymbol ∈ ownErrors i → i = .hufDec := by
  cases i <;> decide

theorem configMismatch_mem_ownErrors {i : Instr} :
    .configMismatch ∈ ownErrors i → i ∈ ([.hamEncb, .hamDecb, .hamEnc, .hamDec] : List Instr) := by
  cases i <;> decide

theorem badOperand_mem_ownErrors {i : Instr} : .badOperand ∈ ownErrors i → i ∈ readsIbuf := by
  cases i <;> decide

theorem illegalCmd_notMem_ownErrors (i : Instr) : .illegalCmd ∉ ownErrors i := by
  cases i <;> decide

/-! ### Flags by command, and that no command reads STATUS (R34) -/

/-- Both flags are 0 unless the command is HAM.DECB or HAM.DEC and ends with OK. -/
theorem flags_of_exec {i : Instr} {s t : State} (h : exec i s = .next t)
    (hf : statusErrdet t.status = true ∨ statusSynrange t.status = true) :
    (i = .hamDecb ∨ i = .hamDec) ∧ statusErr t.status = 0 := by
  rcases exec_cases h with ⟨e, sub, -, rfl⟩ | ⟨out, n, ed, sr, -, rfl, hed, hsr⟩
  · simp at hf
  · simp only [successFrame_status, statusErrdet_statusWord, statusSynrange_statusWord] at hf
    have hed' : ed = true := hf.elim id hsr
    refine ⟨?_, by simp [errNum]⟩
    by_contra hi
    rw [not_or] at hi
    simp [hed hi.1 hi.2] at hed'

/-- Every way a command ends writes the whole of `STATUS`, and none of its checks looks at the old value. -/
theorem exec_withStatus (i : Instr) (s : State) (v : Word) : exec i { s with status := v } = exec i s := by
  cases i <;> rfl

/-- Settles O38, from what a command can do (`exec_cases`) and which errors are its own. -/
theorem flagsAndErrorsByCommand : Obligations.FlagsAndErrorsByCommand := by
  refine ⟨fun i s t h => ?_, exec_withStatus, rfl⟩
  obtain ⟨hreserved, hle, hone, hsub, -, -⟩ := statusLegal_exec h
  refine ⟨flags_of_exec h, fun hne => ?_, fun he => ⟨?_, hone.mp he⟩, fun he => ?_, fun he => ?_, fun he => ?_,
    hle, hreserved⟩
  · by_contra hnot
    exact hne (hsub hnot)
  · exact unknownSymbol_mem_ownErrors (mem_ownErrors_of_exec h he (by decide) (by decide))
  · exact configMismatch_mem_ownErrors (mem_ownErrors_of_exec h he (by decide) (by decide))
  · exact badOperand_mem_ownErrors (mem_ownErrors_of_exec h he (by decide) (by decide))
  · exact illegalCmd_notMem_ownErrors i
      (mem_ownErrors_of_exec (e := .illegalCmd) h he (by decide) (by decide))

end Sys2Proof.Proofs.StatusRules
end

section
/-! What the host reads and writes, word by word: REG (R22, R33), CWT (R38), NODE (R39), and everything after reset. -/

namespace Sys2Proof.Proofs.HostAccess

open Sys2Proof Sys2Proof.Machine

/-! ### The command word placed for the next step -/

theorem decode_encode (i : Instr) : decode (encode i) = .ok i := by
  cases i <;> rfl

theorem tableWord_encode (i : Instr) : tableWord 32 (encode i).toNat = encode i := by
  rw [tableWord, Nat.mod_eq_of_lt (encode i).isLt, BitVec.ofNat_toNat, BitVec.setWidth_eq]

/-- Settles O5: the placed word is the command's own, and decodes to it. -/
theorem placedWordRunsNext : Obligations.PlacedWordRunsNext := by
  intro s i
  rw [step_of_pending (withFetchWord_pending s 32 (encode i).toNat), tableWord_encode]
  simp only [hostAct, and_self, if_true, cmdWrite, decode_encode]
  rfl

/-! ### REG -/

/-- Indices from 10 on do not exist (R64). -/
theorem readReg_of_ge {index : Nat} (h : 10 ≤ index) (s : State) : readReg s index = 0 := by
  obtain ⟨n, rfl⟩ := Nat.exists_eq_add_of_le' h
  rfl

/-- Settles O9, by the register table. -/
theorem registersReadByIndex : Obligations.RegistersReadByIndex :=
  fun s => ⟨rfl, rfl, rfl, rfl, rfl, rfl, rfl, rfl, rfl, rfl, fun _ h => readReg_of_ge h s⟩

theorem writeReg_of_readOnly {index : Nat} (h : index ∈ [1, 5, 7, 8, 9]) (s : State) (v : Word) :
    writeReg s index v = s := by
  fin_cases h <;> rfl

theorem readReg_writeReg_same {index : Nat} (h : index ∈ [2, 3, 4, 6]) (s : State) (v : Word) :
    readReg (writeReg s index v) index = v := by
  fin_cases h <;> rfl

/-- Settles O10, by the register table; reserved `STATUS` bits are 0 in a legal `STATUS`. -/
theorem registerAccessRules : Obligations.RegisterAccessRules := by
  intro s v
  refine ⟨fun index h => writeReg_of_readOnly h s v, rfl, fun hlegal => ?_, rfl, rfl, rfl, rfl,
    fun index h => readReg_writeReg_same h s v⟩
  obtain ⟨hreserved, -⟩ := hlegal
  exact hreserved

/-! ### After reset -/

theorem readReg_reset (index : Nat) : readReg State.reset index = 0 := by
  unfold readReg
  split <;> rfl

theorem readCwtWord_cwEmpty (w : Nat) : readCwtWord cwEmpty w = 0 := by
  simp [readCwtWord, cwEmpty]

theorem hostRead_reset (space index : Nat) : hostRead State.reset space index = 0 := by
  unfold hostRead
  split
  · exact readReg_reset index
  · split <;> rfl
  · split <;> rfl
  · split <;> rfl
  · split
    · exact readCwtWord_cwEmpty _
    · rfl
  · rw [if_neg fun h => Nat.not_lt_zero _ h.2]
  · rfl

/-- Settles O7: all stored fields are 0 by definition, and a read of any space shows a 0 of one of them. -/
theorem resetLeavesEverythingZero : Obligations.ResetLeavesEverythingZero := by
  exact ⟨⟨rfl, rfl, rfl, rfl, rfl, rfl, rfl, rfl, rfl⟩, fun _ => ⟨rfl, rfl, rfl, rfl, rfl⟩, hostRead_reset⟩

/-! ### CWT -/

section CwtEntry

variable (e : CwEntry) (v : Word)

/-- Word 0 keeps the low eight bits. -/
theorem readCwtWord_writeCwtWord_zero : readCwtWord (writeCwtWord e 0 v) 0 = v &&& 0xFF := by
  rw [writeCwtWord, if_pos rfl, readCwtWord, if_pos rfl]
  apply BitVec.eq_of_toNat_eq
  rw [BitVec.toNat_setWidth_of_le (by omega), BitVec.toNat_setWidth, BitVec.toNat_and]
  exact (Nat.and_two_pow_sub_one_eq_mod v.toNat 8).symm

variable {w w' : Nat}

/-- Word `w` is the 32 bits of `CODE` from `256 - 32w` on. -/
theorem getLsbD_readCwtWord (h1 : 1 ≤ w) (h8 : w ≤ 8) {j : Nat} (hj : j < 32) :
    (readCwtWord e w).getLsbD j = e.code.getLsbD (256 - 32 * w + j) := by
  rw [readCwtWord, if_neg (by omega), if_pos h8, BitVec.getLsbD_extractLsb', decide_eq_true hj, Bool.true_and]

/-- A replaced word shows in its own 32 bits of `CODE` and nowhere else. -/
theorem getLsbD_replaceCodeWord (code : BitVec 256) {i : Nat} (hi : i < 256) :
    (replaceCodeWord code w v).getLsbD i =
      if 256 - 32 * w ≤ i ∧ i < 256 - 32 * w + 32 then v.getLsbD (i - (256 - 32 * w)) else code.getLsbD i := by
  simp only [replaceCodeWord, BitVec.getLsbD_or, BitVec.getLsbD_and, BitVec.getLsbD_not, BitVec.getLsbD_shiftLeft,
    BitVec.getLsbD_setWidth, BitVec.getLsbD_allOnes, decide_eq_true hi, Bool.true_and]
  rcases Nat.lt_or_ge i (256 - 32 * w) with hlow | hge
  · simp [hlow, Nat.not_le.mpr hlow]
  · rcases Nat.lt_or_ge i (256 - 32 * w + 32) with hin | habove
    · have hlt : i - (256 - 32 * w) < 32 := by omega
      simp [hge, hin, hlt, Nat.not_lt.mpr hge, show i - (256 - 32 * w) < 256 by omega]
    · have hout : 32 ≤ i - (256 - 32 * w) := by omega
      simp [hge, Nat.not_lt.mpr habove, Nat.not_lt.mpr hge, Nat.not_lt.mpr hout, BitVec.getLsbD_of_ge _ _ hout]

theorem readCwtWord_writeCwtWord_same (h1 : 1 ≤ w) (h8 : w ≤ 8) : readCwtWord (writeCwtWord e w v) w = v := by
  apply BitVec.eq_of_getLsbD_eq
  intro j hj
  rw [getLsbD_readCwtWord _ h1 h8 hj, writeCwtWord, if_neg (by omega), getLsbD_replaceCodeWord v _ (by omega),
    if_pos (by omega), Nat.add_sub_cancel_left]

/-- The words of an entry do not overlap. -/
theorem readCwtWord_writeCwtWord_other (h8 : w ≤ 8) (h8' : w' ≤ 8) (hne : w' ≠ w) :
    readCwtWord (writeCwtWord e w v) w' = readCwtWord e w' := by
  rcases Nat.eq_zero_or_pos w with rfl | h1
  · rw [writeCwtWord, if_pos rfl, readCwtWord, readCwtWord, if_neg hne, if_neg hne]
  · rw [writeCwtWord, if_neg (by omega)]
    rcases Nat.eq_zero_or_pos w' with rfl | h1'
    · rw [readCwtWord, readCwtWord, if_pos rfl, if_pos rfl]
    · apply BitVec.eq_of_getLsbD_eq
      intro j hj
      rw [getLsbD_readCwtWord _ h1' h8' hj, getLsbD_readCwtWord _ h1' h8' hj,
        getLsbD_replaceCodeWord v _ (by omega), if_neg (by omega)]

end CwtEntry

theorem cwtIndex_div {w : Nat} (hw : w < 16) (sym : Nat) : (16 * sym + w) / 16 = sym := by omega

theorem cwtIndex_mod {w : Nat} (hw : w < 16) (sym : Nat) : (16 * sym + w) % 16 = w := by omega

section CwtAccess

variable {s : State} {sym w : Nat} (hsym : sym < 256)
include hsym

theorem hostRead_cwt (hw : w < 16) : hostRead s 4 (16 * sym + w) = readCwtWord (cwtAt s sym) w := by
  rw [hostRead, cwtIndex_div hw, cwtIndex_mod hw, if_pos hsym]

theorem cwtAt_hostWrite (hw : w ≤ 8) (v : Word) (sym' : Nat) :
    cwtAt (hostWrite s 4 (16 * sym + w) v) sym' =
      if sym' = sym then writeCwtWord (cwtAt s sym) w v else cwtAt s sym' := by
  have hw' : w < 16 := by omega
  rw [hostWrite, cwtIndex_div hw', cwtIndex_mod hw', if_pos ⟨hsym, hw⟩]
  exact memRead_memWrite ..

theorem cwtAt_hostWrite_same (hw : w ≤ 8) (v : Word) :
    cwtAt (hostWrite s 4 (16 * sym + w) v) sym = writeCwtWord (cwtAt s sym) w v := by
  rw [cwtAt_hostWrite hsym hw, if_pos rfl]

end CwtAccess

theorem hostWrite_cwt_frame (s : State) (index : Nat) (v : Word) :
    hostWrite s 4 index v = { s with cwt := (hostWrite s 4 index v).cwt } := by
  rw [hostWrite]
  split <;> rfl

/-- Settles O14: an access of word `w` of entry `sym` is `readCwtWord` and `writeCwtWord` of that entry. -/
theorem codewordTableWords : Obligations.CodewordTableWords := by
  intro s sym v hsym
  refine ⟨⟨?_, fun i hi => ?_⟩, ?_, fun w h1 h8 => ?_, fun w w' h8 h8' hne => ?_, fun w h8 sym' hne => ?_,
    fun w => hostWrite_cwt_frame ..⟩
  · exact hostRead_cwt (w := 0) hsym (by omega)
  · rw [hostRead_cwt hsym (by omega), getLsbD_readCwtWord _ (by omega) (by omega) (by omega)]
    congr 1
    omega
  · have hread := hostRead_cwt (s := hostWrite s 4 (16 * sym) v) (w := 0) hsym (by omega)
    have hwrite := cwtAt_hostWrite_same (s := s) (w := 0) hsym (by omega) v
    exact (hread.trans (congrArg (readCwtWord · 0) hwrite)).trans (readCwtWord_writeCwtWord_zero _ v)
  · rw [hostRead_cwt hsym (by omega), cwtAt_hostWrite_same hsym h8, readCwtWord_writeCwtWord_same _ v h1 h8]
  · rw [hostRead_cwt hsym (by omega), hostRead_cwt hsym (by omega), cwtAt_hostWrite_same hsym h8,
      readCwtWord_writeCwtWord_other _ v h8 h8' hne]
  · rw [cwtAt_hostWrite hsym h8, if_neg hne]

/-! ### NODE -/

theorem hostRead_node {s : State} {i w : Nat} (hvalid : i < s.nnodes.toNat) (hi : i < 511) (hw : w < 4) :
    hostRead s 5 (4 * i + w) = readNodeWord (nodeAt s i) w := by
  have hdiv : (4 * i + w) / 4 = i := by omega
  have hmod : (4 * i + w) % 4 = w := by omega
  rw [hostRead, hdiv, hmod, if_pos ⟨hi, hvalid⟩]

section NodeWords

variable (n : Node)

theorem readNodeWord_zero :
    (readNodeWord n 0).getLsbD 31 = n.leaf ∧ (readNodeWord n 0).extractLsb' 8 23 = 0 ∧
      (readNodeWord n 0).extractLsb' 0 8 = n.sym := by
  rw [readNodeWord]
  refine ⟨?_, ?_, BitVec.extractLsb'_append_eq_right⟩
  · rw [BitVec.getLsbD_append, BitVec.getLsbD_append]
    simp
  · rw [BitVec.extractLsb'_append_eq_of_le (by omega), BitVec.extractLsb'_append_eq_of_add_le (by omega)]
    exact BitVec.extractLsb'_zero

theorem readNodeWord_one :
    (readNodeWord n 1).extractLsb' 0 9 = n.left ∧ (readNodeWord n 1).extractLsb' 9 7 = 0 ∧
      (readNodeWord n 1).extractLsb' 16 9 = n.right ∧ (readNodeWord n 1).extractLsb' 25 7 = 0 := by
  rw [readNodeWord]
  refine ⟨BitVec.extractLsb'_append_eq_right, ?_, ?_, ?_⟩
  · rw [BitVec.extractLsb'_append_eq_of_le (by omega), BitVec.extractLsb'_append_eq_of_add_le (by omega)]
    exact BitVec.extractLsb'_zero
  · rw [BitVec.extractLsb'_append_eq_of_le (by omega), BitVec.extractLsb'_append_eq_of_le (by omega),
      BitVec.extractLsb'_append_eq_of_add_le (by omega), BitVec.extractLsb'_eq_self]
  · rw [BitVec.extractLsb'_append_eq_of_le (by omega), BitVec.extractLsb'_append_eq_of_le (by omega),
      BitVec.extractLsb'_append_eq_of_le (by omega)]
    exact BitVec.extractLsb'_zero

theorem readNodeWord_three :
    (readNodeWord n 3).extractLsb' 0 8 = n.weight.extractLsb' 32 8 ∧ (readNodeWord n 3).extractLsb' 8 24 = 0 := by
  rw [readNodeWord]
  constructor
  · rw [BitVec.extractLsb'_setWidth_of_le (by omega), BitVec.extractLsb'_eq_self]
  · apply BitVec.eq_of_getLsbD_eq
    intro j hj
    rw [BitVec.getLsbD_extractLsb', BitVec.getLsbD_setWidth, BitVec.getLsbD_of_ge _ (8 + j) (by omega)]
    simp

end NodeWords

/-- Settles O15: below `NNODES` the mask lets the stored entry through, and each word has its fields in place. -/
theorem nodeEntryWords : Obligations.NodeEntryWords := by
  intro s i hvalid hi
  have hread0 : hostRead s 5 (4 * i) = readNodeWord (nodeAt s i) 0 := hostRead_node (w := 0) hvalid hi (by omega)
  have hread : ∀ w < 4, hostRead s 5 (4 * i + w) = readNodeWord (nodeAt s i) w := fun w => hostRead_node hvalid hi
  rw [hread0, hread 1 (by omega), hread 2 (by omega), hread 3 (by omega)]
  exact ⟨readNodeWord_zero _, readNodeWord_one _, rfl, readNodeWord_three _⟩

end Sys2Proof.Proofs.HostAccess
end

section
/-! The host's accesses to the six spaces: which step performs them, which lengths mask a read, what lies outside a
space, and what a write to IBUF or FREQ stores (R61 to R64, R72, R280). -/

namespace Sys2Proof.Proofs.MemorySpaces

open Sys2Proof Sys2Proof.Machine Sys2Proof.Proofs.HostAccess

/-! ### The step of each host action -/

/-- A host write neither reads nor changes the host's list (log entry 1). -/
theorem hostWrite_withPending (s : State) (rest : List HostAction) (space index : Nat) (v : Word) :
    hostWrite { s with pending := rest } space index v = { hostWrite s space index v with pending := rest } := by
  unfold hostWrite
  split
  · unfold writeReg
    split <;> rfl
  · split <;> rfl
  · split <;> rfl
  · split <;> rfl
  · rfl

theorem step_of_write {s : State} {rest : List HostAction} {space index : Nat} {v : Word}
    (hp : s.pending = .write space index v :: rest) (hcmd : ¬(space = 0 ∧ index = 0)) :
    step s = .next { hostWrite s space index v with pending := rest } := by
  rw [step_of_pending hp]
  simp only [hostAct, if_neg hcmd, hostWrite_withPending]

/-- Settles O6: the step with no action, and with the action at the head of the list. -/
theorem hostActionsStepAsDescribed : Obligations.HostActionsStepAsDescribed := by
  refine ⟨fun _ => step_of_idle, fun s rest space index hp => ?_, fun _ _ _ _ _ => step_of_write,
    fun s rest hp => ?_⟩
  · rw [step_of_pending hp]
    rfl
  · rw [step_of_pending hp]
    rfl

/-! ### Reads and the lengths (R63) -/

section Reads

variable {s : State} {i : Nat}

theorem hostRead_ibuf (h : i < s.cfg.ibufCap) : hostRead s 1 i = (ibufAt s i).setWidth 32 := if_pos h

theorem hostRead_obuf (hlen : i < s.olen.toNat) (hcap : i < s.cfg.obufCap) :
    hostRead s 2 i = (obufAt s i).setWidth 32 := if_pos ⟨hcap, hlen⟩

theorem hostRead_obuf_masked (h : s.olen.toNat ≤ i) : hostRead s 2 i = 0 := if_neg (by omega)

theorem hostRead_freq (h : i < 256) : hostRead s 3 i = freqAt s i := if_pos h

theorem hostRead_node_masked {w : Nat} (hw : w < 4) (h : s.nnodes.toNat ≤ i) : hostRead s 5 (4 * i + w) = 0 :=
  if_neg (by omega)

end Reads

/-- Settles O11: the masks of OBUF and NODE; no other read looks at a length. -/
theorem readsMaskedByLength : Obligations.ReadsMaskedByLength :=
  fun _ _ _ => ⟨hostRead_obuf_masked, hostRead_obuf, hostRead_node_masked, hostRead_ibuf, hostRead_freq,
    fun hi hw => hostRead_cwt hi (by omega)⟩

/-! ### Outside a space (R64) -/

/-- The indices a space does not have (R60). -/
def Outside (s : State) (space index : Nat) : Prop :=
  (space = 0 ∧ 10 ≤ index) ∨ (space = 1 ∧ s.cfg.ibufCap ≤ index) ∨ (space = 2 ∧ s.cfg.obufCap ≤ index) ∨
    (space = 3 ∧ 256 ≤ index) ∨ (space = 4 ∧ (256 ≤ index / 16 ∨ 9 ≤ index % 16)) ∨
    (space = 5 ∧ 511 ≤ index / 4) ∨ 6 ≤ space

/-- The nine words of an entry end at word 8 (R38). -/
theorem readCwtWord_of_ge {w : Nat} (h : 9 ≤ w) (e : CwEntry) : readCwtWord e w = 0 := by
  rw [readCwtWord, if_neg (by omega), if_neg (by omega)]

theorem writeReg_of_ge {index : Nat} (h : 10 ≤ index) (s : State) (v : Word) : writeReg s index v = s := by
  obtain ⟨n, rfl⟩ := Nat.exists_eq_add_of_le' h
  rfl

theorem hostRead_of_outside {s : State} {space index : Nat} (h : Outside s space index) :
    hostRead s space index = 0 := by
  rcases h with ⟨rfl, h⟩ | ⟨rfl, h⟩ | ⟨rfl, h⟩ | ⟨rfl, h⟩ | ⟨rfl, h | h⟩ | ⟨rfl, h⟩ | h
  · exact readReg_of_ge h s
  · exact if_neg (by omega)
  · exact if_neg (by omega)
  · exact if_neg (by omega)
  · exact if_neg (by omega)
  · rw [hostRead, readCwtWord_of_ge h, ite_self]
  · exact if_neg (by omega)
  · obtain ⟨n, rfl⟩ := Nat.exists_eq_add_of_le' h
    rfl

/-- OBUF and NODE are read-only to the host (R64). -/
theorem hostWrite_of_readOnly {space : Nat} (h : space = 2 ∨ space = 5) (s : State) (index : Nat) (v : Word) :
    hostWrite s space index v = s := by
  rcases h with rfl | rfl <;> rfl

theorem hostWrite_of_outside {s : State} {space index : Nat} (h : Outside s space index) (v : Word) :
    hostWrite s space index v = s := by
  rcases h with ⟨rfl, h⟩ | ⟨rfl, h⟩ | ⟨rfl, h⟩ | ⟨rfl, h⟩ | ⟨rfl, h⟩ | ⟨rfl, h⟩ | h
  · exact writeReg_of_ge h s v
  · exact if_neg (by omega)
  · exact hostWrite_of_readOnly (.inl rfl) s index v
  · exact if_neg (by omega)
  · exact if_neg (by omega)
  · exact hostWrite_of_readOnly (.inr rfl) s index v
  · obtain ⟨n, rfl⟩ := Nat.exists_eq_add_of_le' h
    rfl

/-- Settles O12, space by space. -/
theorem accessesOutsideASpace : Obligations.AccessesOutsideASpace :=
  fun s _ index v => ⟨fun h => ⟨hostRead_of_outside h, hostWrite_of_outside h v⟩,
    fun h => hostWrite_of_readOnly h s index v⟩

/-! ### Writes to IBUF and FREQ (R61, R37) -/

section Writes

variable {s : State} {i : Nat}

theorem hostWrite_ibuf (h : i < s.cfg.ibufCap) (v : Word) :
    hostWrite s 1 i v = { s with ibuf := memWrite 0 s.ibuf i (v.extractLsb' 0 8) } := by
  rw [← BitVec.setWidth_eq_extractLsb' (by omega)]
  exact if_pos h

theorem hostWrite_freq (h : i < 256) (v : Word) :
    hostWrite s 3 i v = { s with freq := memWrite 0 s.freq i v } := if_pos h

theorem ibufAt_hostWrite (h : i < s.cfg.ibufCap) (v : Word) (j : Nat) :
    ibufAt (hostWrite s 1 i v) j = if j = i then v.extractLsb' 0 8 else ibufAt s j := by
  rw [hostWrite_ibuf h]
  exact memRead_memWrite ..

theorem freqAt_hostWrite (h : i < 256) (v : Word) (j : Nat) :
    freqAt (hostWrite s 3 i v) j = if j = i then v else freqAt s j := by
  rw [hostWrite_freq h]
  exact memRead_memWrite ..

end Writes

/-- Settles O13: a host write of the two spaces is one `memWrite`, read back by `memRead_memWrite`. -/
theorem bufferAndFrequencyWrites : Obligations.BufferAndFrequencyWrites := by
  intro s i v
  refine ⟨fun hi => ?_, fun hi => ?_⟩
  · have hsame : ibufAt (hostWrite s 1 i v) i = v.extractLsb' 0 8 := by rw [ibufAt_hostWrite hi, if_pos rfl]
    refine ⟨by rw [hostWrite_ibuf hi], hsame, ?_, fun j hj => by rw [ibufAt_hostWrite hi, if_neg hj]⟩
    rw [hostRead_ibuf (by rwa [StepRule.hostWrite_cfg]), hsame]
    exact BitVec.setWidth_eq_append (by omega)
  · have hsame : freqAt (hostWrite s 3 i v) i = v := by rw [freqAt_hostWrite hi, if_pos rfl]
    exact ⟨by rw [hostWrite_freq hi], hsame, (hostRead_freq hi).trans hsame,
      fun j hj => by rw [freqAt_hostWrite hi, if_neg hj]⟩

end Sys2Proof.Proofs.MemorySpaces
end

section
/-! The table of writes (R76): what each command's own writes leave alone, and which commands leave no output. -/

namespace Sys2Proof.Proofs.CommandFrames

open Sys2Proof Sys2Proof.Machine Sys2Proof.Proofs.StepRule

/-! ### Each field and the commands that write it -/

section OwnWrites

variable {i : Instr} (s : State)

theorem ownWrites_cfgK : (ownWrites i s).cfgK = s.cfgK := by cases i <;> rfl
theorem ownWrites_arg : (ownWrites i s).arg = s.arg := by cases i <;> rfl
theorem ownWrites_pending : (ownWrites i s).pending = s.pending := by cases i <;> rfl
theorem ownWrites_hostData : (ownWrites i s).hostData = s.hostData := by cases i <;> rfl

theorem ownWrites_input (h : i ≠ .sysMov) : (ownWrites i s).ibuf = s.ibuf ∧ (ownWrites i s).ilen = s.ilen := by
  cases i with
  | sysMov => exact absurd rfl h
  | _ => exact ⟨rfl, rfl⟩

theorem ownWrites_bitlen (h : i ≠ .packPack) : (ownWrites i s).bitlen = s.bitlen := by
  cases i with
  | packPack => exact absurd rfl h
  | _ => rfl

theorem ownWrites_freq (hfreq : i ≠ .hufFreq) (henc : i ≠ .hufEnc) : (ownWrites i s).freq = s.freq := by
  cases i with
  | hufFreq => exact absurd rfl hfreq
  | hufEnc => exact absurd rfl henc
  | _ => rfl

theorem ownWrites_cwt (hcodes : i ≠ .hufCodes) (henc : i ≠ .hufEnc) : (ownWrites i s).cwt = s.cwt := by
  cases i with
  | hufCodes => exact absurd rfl hcodes
  | hufEnc => exact absurd rfl henc
  | _ => rfl

theorem ownWrites_tree (htree : i ≠ .hufTree) (henc : i ≠ .hufEnc) : (ownWrites i s).node = s.node ∧
    (ownWrites i s).nnodes = s.nnodes ∧ (ownWrites i s).root = s.root := by
  cases i with
  | hufTree => exact absurd rfl htree
  | hufEnc => exact absurd rfl henc
  | _ => exact ⟨rfl, rfl, rfl⟩

theorem ownWrites_draws (h : i ≠ .hamNoise) : (ownWrites i s).draws = s.draws := by
  cases i with
  | hamNoise => exact absurd rfl h
  | _ => rfl

end OwnWrites

/-! ### Commands without buffer output -/

/-- A next state of this outcome has the OBUF of `s` and `OLEN` 0. -/
def LeavesNoOutput (s : State) (o : Host.Outcome State Fault Refusal) : Prop :=
  ∀ t, o = .next t → t.obuf = s.obuf ∧ t.olen = 0

namespace LeavesNoOutput

variable {s : State}

theorem failWith {e : ErrCode} {sub : BitVec 2} : LeavesNoOutput s (failWith e sub s) := by
  intro t ht
  cases ht
  exact ⟨rfl, rfl⟩

/-- The success frame of an empty output stores nothing (R112). -/
theorem finish_nil {t : State} (hobuf : t.obuf = s.obuf) {n : Nat} {ed sr : Bool} :
    LeavesNoOutput s (finish s t [] n ed sr) := by
  intro t' ht
  rw [Machine.finish_nil] at ht
  cases ht
  exact ⟨hobuf, rfl⟩

theorem ite {c : Prop} [Decidable c] {a b : Host.Outcome State Fault Refusal} (ha : LeavesNoOutput s a)
    (hb : LeavesNoOutput s b) : LeavesNoOutput s (if c then a else b) := by
  split
  · exact ha
  · exact hb

theorem fault {r : Fault} : LeavesNoOutput s (.fault r) := fun _ h => by cases h

end LeavesNoOutput

/-- The six commands whose row of R76 has no buffer output finish with the empty one. -/
theorem exec_leavesNoOutput {i : Instr}
    (hi : i ∈ ([.sysNop, .sysMov, .hufFreq, .hufTree, .hufCodes, .hamCalcr] : List Instr)) (s : State) :
    LeavesNoOutput s (exec i s) := by
  cases i with
  | sysNop => exact .finish_nil rfl
  | sysMov => exact .ite .failWith (.finish_nil rfl)
  | hufFreq => exact .ite .failWith (.finish_nil rfl)
  | hufTree => exact .finish_nil rfl
  | hufCodes => exact .ite (.finish_nil rfl) .fault
  | hamCalcr => exact .finish_nil rfl
  | _ => simp at hi

/-- Settles O39: a failing command keeps every space, and a completing one writes its own (`ownWrites`) and the
frame, which holds no output for the commands listed. -/
theorem commandsWriteOnlyTheirSpaces : Obligations.CommandsWriteOnlyTheirSpaces := by
  intro i s t h
  have hout := fun hi => exec_leavesNoOutput hi s t h
  rcases exec_cases h with ⟨e, sub, -, rfl⟩ | ⟨out, n, ed, sr, -, rfl, -⟩
  · exact ⟨rfl, rfl, fun _ => ⟨rfl, rfl⟩, fun _ => rfl, fun _ _ => rfl, fun _ _ => rfl, fun _ _ => ⟨rfl, rfl, rfl⟩,
      hout, rfl, rfl, rfl, fun _ => rfl⟩
  · exact ⟨ownWrites_cfgK s, ownWrites_arg s, ownWrites_input s, ownWrites_bitlen s, ownWrites_freq s,
      ownWrites_cwt s, ownWrites_tree s, hout, ownWrites_cfg i s, ownWrites_pending s, ownWrites_hostData s,
      ownWrites_draws s⟩

end Sys2Proof.Proofs.CommandFrames
end

section
/-! The command word: the opcode table, the decoder and the encoder agree (R91, R92), and what an illegal word does
(R94, R244). -/

namespace Sys2Proof.Proofs.CommandWord

open Sys2Proof Sys2Proof.Machine Sys2Proof.Proofs.HostAccess

/-! ### A word and its fields (R90) -/

/-- The three fields are the whole word. -/
theorem append_cmdFields (w : Word) : (cmdFields w).zero ++ (cmdFields w).unit ++ (cmdFields w).fn = w := by
  calc w.extractLsb' 8 24 ++ w.extractLsb' 4 4 ++ w.extractLsb' 0 4
    _ = w.extractLsb' 4 28 ++ w.extractLsb' 0 4 :=
      congrArg (· ++ w.extractLsb' 0 4) (BitVec.extractLsb'_append_extractLsb'_eq_extractLsb' rfl)
    _ = w.extractLsb' 0 32 := BitVec.extractLsb'_append_extractLsb'_eq_extractLsb' rfl
    _ = w := BitVec.extractLsb'_eq_self

/-! ### The decoder inverts the encoder -/

/-- Each legal pair of the opcode map is `UNIT` and `FN` of its command (R92). -/
theorem fields_of_decodeOp {unit fn : Nat} {i : Instr} (h : decodeOp unit fn = .ok i) :
    unit = (unitOf i).toNat ∧ fn = (fnOf i).toNat := by
  unfold decodeOp at h
  split at h
  case h_5 => cases h
  all_goals split at h <;> cases h <;> exact ⟨rfl, rfl⟩

theorem decode_eq_ok_iff {w : Word} {i : Instr} :
    decode w = .ok i ↔ (cmdFields w).zero = 0 ∧ decodeOp (cmdFields w).unit.toNat (cmdFields w).fn.toNat = .ok i := by
  simp [decode, ite_eq_iff]

theorem decode_eq_ok_iff_encode {w : Word} {i : Instr} : decode w = .ok i ↔ w = encode i := by
  refine ⟨fun h => ?_, fun h => h ▸ decode_encode i⟩
  obtain ⟨hzero, hop⟩ := decode_eq_ok_iff.mp h
  obtain ⟨hunit, hfn⟩ := fields_of_decodeOp hop
  rw [← append_cmdFields w, hzero, BitVec.eq_of_toNat_eq hunit, BitVec.eq_of_toNat_eq hfn, encode]

/-! ### The opcode table (R92) -/

/-- The commands, in the order of the table. -/
def commands : List Instr :=
  [.sysNop, .sysMov, .packPack, .packUnpack, .hufFreq, .hufTree, .hufCodes, .hufEnc, .hufDec, .hamCalcr, .hamEncb,
    .hamDecb, .hamEnc, .hamDec, .hamNoise]

theorem mem_commands (i : Instr) : i ∈ commands := by
  cases i <;> decide

/-- A row pairs a command with its encoding, and every command has its row. -/
theorem mem_commands_map_encode {w : Word} {i : Instr} :
    (i, w) ∈ commands.map (fun j => (j, encode j)) ↔ w = encode i := by
  simp [mem_commands, eq_comm]

/-- Settles O2: the rows of the table are the commands with their encodings, and the decoder inverts the encoder. -/
theorem decodeAndEncodeAgreeWithTheTable : Obligations.DecodeAndEncodeAgreeWithTheTable :=
  fun _ _ => ⟨decode_eq_ok_iff_encode.trans mem_commands_map_encode.symm, decode_eq_ok_iff_encode⟩

/-- Settles O1: the legal words are encodings, and each illegal one fails the check its reason names. -/
theorem someWordsDecodeAsTabulated : Obligations.SomeWordsDecodeAsTabulated :=
  ⟨decode_encode .sysMov, decode_encode .packUnpack, decode_encode .hufDec, decode_encode .hamNoise,
    by decide, by decide, by decide⟩

/-! ### Illegal words (R94) -/

theorem wf_iff (f : CmdFields) : f.wf = true ↔ f.zero = 0 ∧ f.unit.toNat < 4 ∧ f.fn.toNat < fnCount f.unit := by
  simp [CmdFields.wf, CmdFields.zeroOk, CmdFields.unitOk, CmdFields.fnOk, and_assoc]

/-- How many functions each unit has (R92); the other units have none. -/
theorem lt_fnCount_iff {unit : BitVec 4} {n : Nat} :
    n < fnCount unit ↔ (unit.toNat = 0 ∧ n < 2) ∨ (unit.toNat = 1 ∧ n < 2) ∨ (unit.toNat = 2 ∧ n < 5) ∨
      (unit.toNat = 3 ∧ n < 6) := by
  unfold fnCount
  split
  case h_5 h0 h1 h2 h3 =>
    refine iff_of_false n.not_lt_zero ?_
    rintro (⟨h, -⟩ | ⟨h, -⟩ | ⟨h, -⟩ | ⟨h, -⟩)
    exacts [h0 h, h1 h, h2 h, h3 h]
  all_goals simp [*]

/-- The classes R94 lists are the fields that are not well formed. -/
theorem not_wf_iff (f : CmdFields) :
    ¬f.wf = true ↔ f.zero ≠ 0 ∨ 4 ≤ f.unit.toNat ∨ (f.unit.toNat = 0 ∧ 2 ≤ f.fn.toNat) ∨
      (f.unit.toNat = 1 ∧ 2 ≤ f.fn.toNat) ∨ (f.unit.toNat = 2 ∧ 5 ≤ f.fn.toNat) ∨
      (f.unit.toNat = 3 ∧ 6 ≤ f.fn.toNat) := by
  rw [wf_iff, not_and_or, lt_fnCount_iff]
  refine or_congr_right ?_
  omega

theorem exists_decodeOp_of_lt_fnCount {unit : BitVec 4} {fn : Nat} (h : fn < fnCount unit) :
    ∃ i, decodeOp unit.toNat fn = .ok i := by
  rcases lt_fnCount_iff.mp h with ⟨hunit, hfn⟩ | ⟨hunit, hfn⟩ | ⟨hunit, hfn⟩ | ⟨hunit, hfn⟩
  all_goals
    rw [hunit]
    interval_cases fn <;> exact ⟨_, rfl⟩

theorem wf_encode (i : Instr) : (cmdFields (encode i)).wf = true := by
  cases i <;> rfl

/-- The legal words are those with well-formed fields (R91). -/
theorem exists_decode_iff_wf (w : Word) : (∃ i, decode w = .ok i) ↔ (cmdFields w).wf = true := by
  constructor
  · rintro ⟨i, h⟩
    rw [decode_eq_ok_iff_encode.mp h]
    exact wf_encode i
  · intro h
    obtain ⟨hzero, -, hfn⟩ := (wf_iff _).mp h
    obtain ⟨i, hop⟩ := exists_decodeOp_of_lt_fnCount hfn
    exact ⟨i, decode_eq_ok_iff.mpr ⟨hzero, hop⟩⟩

/-- A word without a command is refused for some reason. -/
theorem exists_illegal_of_no_command {w : Word} (h : ∀ i, decode w ≠ .ok i) : ∃ why, decode w = .illegal why := by
  cases hd : decode w with
  | ok i => exact absurd hd (h i)
  | illegal why => exact ⟨why, rfl⟩

/-- The failure frame ILLEGAL_CMD, `STATUS` 0x03, is all that a write of an illegal word does (R244, R250). -/
theorem step_of_illegal {s : State} {w : Word} {rest : List HostAction} {why : IllegalWord}
    (hp : s.pending = .write 0 0 w :: rest) (hw : decode w = .illegal why) :
    step s = .next { Failed 0x03 s with pending := rest } := by
  rw [step_of_pending hp]
  simp only [hostAct, and_self, if_true, cmdWrite, hw]
  rfl

/-- Settles O3: the classes are the words whose fields are not well formed, and only those have no command. -/
theorem illegalWordFailsAndChangesNothingElse : Obligations.IllegalWordFailsAndChangesNothingElse := by
  intro s w rest hp
  constructor
  · rw [← not_exists, exists_decode_iff_wf]
    exact (not_wf_iff (cmdFields w)).symm
  · intro h
    obtain ⟨why, hwhy⟩ := exists_illegal_of_no_command h
    exact step_of_illegal hp hwhy

end Sys2Proof.Proofs.CommandWord
end

section
/-! The shell commands (R114, R115), the step of a command (R110), and what holds of every command's input check (R111)
and output (R112). -/

namespace Sys2Proof.Proofs.ShellCommands

open Sys2Proof Sys2Proof.Machine

/-- The success frame of the empty output, with no flags, writes three registers only (R112). -/
theorem successFrame_nil (n : Nat) (s : State) :
    successFrame [] n false false s = { s with status := 0, res := BitVec.ofNat 32 n, olen := 0 } := rfl

/-! ### SYS.MOV -/

section Mov

variable {s : State}

theorem exec_sysMov_of_overflow (h : s.cfg.ibufCap < s.olen.toNat) :
    exec .sysMov s = .next (failFrame .capacity 0 s) :=
  if_pos h

/-- SYS.MOV leaves no output of its own, so only its check against `IBUF_CAP` can fail (R115). -/
theorem exec_sysMov_of_fits (h : s.olen.toNat ≤ s.cfg.ibufCap) :
    exec .sysMov s = .next (successFrame [] s.olen.toNat false false (ownWrites .sysMov s)) := by
  rw [exec, execSysMov, if_neg (by omega), finish_nil, ownWrites]

theorem ibufAt_ownWrites_sysMov (s : State) (i : Nat) :
    ibufAt (ownWrites .sysMov s) i = if i < s.olen.toNat then obufAt s i else ibufAt s i := by
  rw [ibufAt, ownWrites, memRead_memWriteSeq]
  simp only [outputOf_length, Nat.zero_le, true_and, Nat.zero_add, Nat.sub_zero]
  split
  · next hi => exact memSeq_getD 0 0 s.obuf hi
  · rfl

end Mov

/-- Settles O17: IBUF after SYS.MOV is read off its own writes. -/
theorem movHandsOutputToInput : Obligations.MovHandsOutputToInput := by
  refine fun s => ⟨exec_sysMov_of_overflow, fun h => ⟨_, exec_sysMov_of_fits h, ?frame, fun i hi => ?below,
    fun i hi => ?above⟩⟩
  case frame =>
    rw [successFrame_nil, BitVec.ofNat_toNat, BitVec.setWidth_eq]
    rfl
  case below => exact (ibufAt_ownWrites_sysMov s i).trans (if_pos hi)
  case above => exact (ibufAt_ownWrites_sysMov s i).trans (if_neg (by omega))

/-! ### Output beyond OLEN -/

/-- OBUF is written by the success frame alone (R112). -/
theorem ownWrites_obuf (i : Instr) (s : State) : (ownWrites i s).obuf = s.obuf := by cases i <;> rfl

/-- An output whose length 32 bits hold is stored exactly below `OLEN` (R112). -/
theorem obufAt_successFrame_of_olen_le {out : List Byte} (hout : out.length < 2 ^ 32) {n a : Nat} {ed sr : Bool}
    {s : State} (ha : (successFrame out n ed sr s).olen.toNat ≤ a) :
    obufAt (successFrame out n ed sr s) a = obufAt s a := by
  rw [successFrame_olen, BitVec.toNat_ofNat, Nat.mod_eq_of_lt hout] at ha
  rw [obufAt, successFrame_obuf, memRead_memWriteSeq, if_neg (by omega), obufAt]

theorem obufCap_lt_of_wf {c : Config} (h : c.wf = true) : c.obufCap < 2 ^ 32 := by
  simp only [Config.wf, Config.obufOk, Bool.and_eq_true, decide_eq_true_eq] at h
  exact h.2.2

/-- Settles O40: a failing command leaves OBUF alone, and a completing one stores an output that fits OBUF. -/
theorem outputBeyondLengthIsKept : Obligations.OutputBeyondLengthIsKept := by
  intro i s t hwf h a ha
  rcases exec_cases h with ⟨e, sub, -, rfl⟩ | ⟨out, n, ed, sr, hout, rfl, -⟩
  · rfl
  · rw [obufAt_successFrame_of_olen_le (hout.trans_lt (obufCap_lt_of_wf hwf)) ha, obufAt, ownWrites_obuf, obufAt]

/-! ### The step of a legal word, and SYS.NOP -/

/-- Settles O4: the host's write to `CMD` is decoded, and the step is the command's. -/
theorem stepRunsTheDecodedCommand : Obligations.StepRunsTheDecodedCommand := by
  intro s w rest i hp hw
  rw [step_of_pending hp]
  simp only [hostAct, and_self, if_true, cmdWrite, hw]

/-- Settles O16: the success frame of the empty output. -/
theorem nopWritesTheEmptyFrame : Obligations.NopWritesTheEmptyFrame :=
  fun s => (finish_nil s s 0 false false).trans (congrArg Host.Outcome.next (successFrame_nil 0 s))

/-! ### The input-length check -/

/-- The check of `ILEN` is the first thing a command that reads IBUF does (R111). -/
theorem exec_of_inputTooLong {i : Instr} {s : State} (hi : i ∈ readsIbuf) (h : inputTooLong s = true) :
    exec i s = .next (failFrame .badOperand 0 s) := by
  cases i with
  | sysNop | sysMov | hufTree | hufCodes | hamCalcr => simp at hi
  | _ => exact if_pos h

/-- Settles O36: `ILEN > IBUF_CAP` is what the check looks for. -/
theorem inputTooLongIsBadOperand : Obligations.InputTooLongIsBadOperand :=
  fun _ _ hi h => exec_of_inputTooLong hi (inputTooLong_eq_true h)

end Sys2Proof.Proofs.ShellCommands
end

section
/-! The laws of `pack` and `unpack` on bit strings (R120, R122, R124). -/

namespace Sys2Proof.Proofs.BitPacking

open Sys2Proof Sys2Proof.Machine

/-! ### The bits of a string and of a byte -/

/-- Reading a string bit by bit past its end appends zeros (R120). -/
theorem map_bitAt_range {b : List Bool} {n : Nat} (h : b.length ≤ n) :
    (List.range n).map (bitAt b) = b ++ List.replicate (n - b.length) false := by
  apply List.ext_getElem
  · simp [h]
  · intro t _ _
    by_cases ht : t < b.length <;> simp [bitAt, ht, List.getElem_append]

/-- A byte is its eight bits, read from the most significant one. -/
theorem eq_of_msbFirst {x y : Byte} (h : ∀ i < 8, x.getLsbD (7 - i) = y.getLsbD (7 - i)) : x = y := by
  apply BitVec.eq_of_getLsbD_eq
  intro p hp
  simpa only [show 7 - (7 - p) = p by omega] using h (7 - p) (by omega)

/-- The sum of R120 is the number whose binary digits are the byte's eight bits. -/
theorem packByte_eq_bitsToNat (b : List Bool) (j : Nat) :
    packByte b j = BitVec.ofNat 8 (bitsToNat ((List.range 8).map fun i => bitAt b (8 * j + i))) := by
  rw [packByte]
  congr 1
  simp only [bitsToNat, List.range_succ, List.range_zero, List.nil_append, List.map_append, List.map_cons,
    List.map_nil, List.sum_append, List.sum_cons, List.sum_nil, List.foldl_append, List.foldl_cons, List.foldl_nil]
  omega

theorem getLsbD_packByte (b : List Bool) (j : Nat) {i : Nat} (hi : i < 8) :
    (packByte b j).getLsbD (7 - i) = bitAt b (8 * j + i) := by
  have hbit := bitsToNat_testBit ((List.range 8).map fun i => bitAt b (8 * j + i)) (i := i) (by simpa using hi)
  simp only [List.length_map, List.length_range, List.getElem_map, List.getElem_range] at hbit
  rw [packByte_eq_bitsToNat, BitVec.getLsbD_ofNat, decide_eq_true (by omega), Bool.true_and, hbit]

/-! ### Elements of a packed and of an unpacked sequence -/

/-- `ceil(L / 8)` (R11) in the form the bounds on byte indices use. -/
theorem ceilDiv_eight (n : Nat) : ceilDiv n 8 = (n + 7) / 8 := rfl

@[simp] theorem pack_length (b : List Bool) : (pack b).length = ceilDiv b.length 8 := by simp [pack]

theorem length_le_eight_mul_pack_length (b : List Bool) : b.length ≤ 8 * (pack b).length := by
  rw [pack_length, ceilDiv_eight]
  omega

theorem pack_getD (b : List Bool) {j : Nat} (hj : j < (pack b).length) : (pack b).getD j 0 = packByte b j := by
  rw [List.getD_eq_getElem _ _ hj]
  simp [pack]

theorem bitAt_unpack (bytes : List Byte) {n t : Nat} (ht : t < n) :
    bitAt (unpack bytes n) t = (bytes.getD (t / 8) 0).getLsbD (7 - t % 8) := by
  simp [bitAt, unpack, ht]

/-- Unpacking up to all the bits of the packed bytes reads the string, then its pad (R120, R122). -/
theorem unpack_pack {b : List Bool} {n : Nat} (hn : n ≤ 8 * (pack b).length) :
    unpack (pack b) n = (List.range n).map (bitAt b) := by
  refine List.map_congr_left fun t ht => ?_
  have ht := List.mem_range.mp ht
  rw [pack_getD b (by omega), getLsbD_packByte b _ (Nat.mod_lt t (by decide)), Nat.div_add_mod]

/-! ### The laws of R124 -/

theorem unpack_pack_length (b : List Bool) : unpack (pack b) b.length = b := by
  rw [unpack_pack (length_le_eight_mul_pack_length b), map_bitAt_range le_rfl]
  simp

theorem pack_unpack (bytes : List Byte) : pack (unpack bytes (8 * bytes.length)) = bytes := by
  have hlen : (pack (unpack bytes (8 * bytes.length))).length = bytes.length := by
    rw [pack_length, unpack_length, ceilDiv_eight]
    omega
  apply List.ext_getElem hlen
  intro j hj hj'
  rw [← List.getD_eq_getElem _ 0 hj, pack_getD _ hj]
  refine eq_of_msbFirst fun i hi => ?_
  rw [getLsbD_packByte _ _ hi, bitAt_unpack bytes (by omega), show (8 * j + i) / 8 = j by omega,
    show (8 * j + i) % 8 = i by omega, List.getD_eq_getElem _ _ hj']

theorem unpack_pack_all (b : List Bool) :
    unpack (pack b) (8 * (pack b).length) = b ++ List.replicate (8 * (pack b).length - b.length) false := by
  rw [unpack_pack le_rfl, map_bitAt_range (length_le_eight_mul_pack_length b)]

/-- Settles O41: the three round trips, and the lengths. -/
theorem packAndUnpackLaws : Obligations.PackAndUnpackLaws :=
  ⟨unpack_pack_length, fun bytes => ⟨pack_unpack bytes, unpack_length ..⟩, unpack_pack_all, pack_length⟩

end Sys2Proof.Proofs.BitPacking
end

section
/-! PACK.PACK and PACK.UNPACK on the machine (R121, R123), and the round trip through SYS.MOV (R124). -/

namespace Sys2Proof.Proofs.PackCommands

open Sys2Proof Sys2Proof.Machine Sys2Proof.Proofs.BitPacking Sys2Proof.Proofs.ShellCommands

/-! ### What a success frame without flags leaves -/

theorem successFrame_eq (out : List Byte) (n : Nat) (s : State) :
    successFrame out n false false s = { s with
      status := 0, res := BitVec.ofNat 32 n, olen := BitVec.ofNat 32 out.length,
      obuf := (successFrame out n false false s).obuf } := rfl

section Output

variable {out : List Byte} {n : Nat} {ed sr : Bool} {s : State} {i : Nat}

theorem obufAt_successFrame_of_lt (h : i < out.length) : obufAt (successFrame out n ed sr s) i = out.getD i 0 := by
  rw [obufAt, successFrame_obuf, memRead_memWriteSeq, if_pos (by omega), Nat.sub_zero]

theorem obufAt_successFrame_of_ge (h : out.length ≤ i) : obufAt (successFrame out n ed sr s) i = obufAt s i := by
  rw [obufAt, successFrame_obuf, memRead_memWriteSeq, if_neg (by omega), obufAt]

/-- An output whose length 32 bits hold is what the host reads (R36, R112). -/
theorem outputOf_successFrame (h : out.length < 2 ^ 32) : outputOf (successFrame out n ed sr s) = out := by
  rw [outputOf, successFrame_obuf, successFrame_olen, BitVec.toNat_ofNat, Nat.mod_eq_of_lt h, memSeq_memWriteSeq]

end Output

/-! ### PACK.PACK -/

section Pack

variable {s : State}

theorem pack_bitsOf_length (s : State) : (pack (bitsOf s)).length = (s.ilen.toNat + 7) / 8 := by
  rw [pack_length, bitsOf_length, ceilDiv_eight]

theorem exec_packPack (h : s.ilen.toNat ≤ s.cfg.ibufCap) :
    exec .packPack s = finish s (ownWrites .packPack s) (pack (bitsOf s))
      (8 * ((s.ilen.toNat + 7) / 8) - s.ilen.toNat) false false := by
  rw [← pack_bitsOf_length, exec, execPackPack, inputTooLong_eq_false h]
  rfl

/-- PACK.PACK completes when the bytes fit OBUF (R121). -/
theorem exec_packPack_of_fits (hin : s.ilen.toNat ≤ s.cfg.ibufCap) (hout : (s.ilen.toNat + 7) / 8 ≤ s.cfg.obufCap) :
    exec .packPack s = .next (successFrame (pack (bitsOf s)) (8 * ((s.ilen.toNat + 7) / 8) - s.ilen.toNat) false false
      (ownWrites .packPack s)) := by
  rw [exec_packPack hin, finish_of_fits (by rwa [pack_bitsOf_length])]

/-- The bits of the input, and zeros beyond it (R15, R120). -/
theorem bitAt_bitsOf_eq (s : State) (i : Nat) :
    bitAt (bitsOf s) i = (decide (i < s.ilen.toNat) && (ibufAt s i).getLsbD 0) := by
  by_cases h : i < s.ilen.toNat
  · rw [bitAt_bitsOf h, decide_eq_true h, Bool.true_and, bitOf]
  · rw [decide_eq_false h, Bool.false_and, bitAt, List.getD_eq_default _ _ (by rw [bitsOf_length]; omega)]

end Pack

/-- Settles O18: the output bytes are read bit by bit. -/
theorem packWritesBytesMsbFirst : Obligations.PackWritesBytesMsbFirst := by
  refine fun s => ⟨fun h => exec_of_inputTooLong (by decide) (inputTooLong_eq_true h), fun hin hcap => ?capacity,
    fun hin hout => ⟨_, exec_packPack_of_fits hin hout, ?frame, fun j hj i hi => ?below, fun j hj => ?above⟩⟩
  case capacity =>
    rw [exec_packPack hin, finish_of_overflow (by rwa [pack_bitsOf_length])]
    rfl
  case frame =>
    rw [successFrame_eq, pack_bitsOf_length]
    rfl
  case below =>
    have hj : j < (pack (bitsOf s)).length := by rwa [pack_bitsOf_length]
    rw [obufAt_successFrame_of_lt hj, pack_getD _ hj, getLsbD_packByte _ _ hi, bitAt_bitsOf_eq]
  case above => exact obufAt_successFrame_of_ge (by rwa [pack_bitsOf_length])

/-! ### PACK.UNPACK -/

/-- The output of PACK.UNPACK (R122, R123). -/
def unpackedElems (s : State) : List Byte := (unpack (symsOf s) s.bitlen.toNat).map bitElem

section Unpack

variable {s : State}

@[simp] theorem unpackedElems_length (s : State) : (unpackedElems s).length = s.bitlen.toNat := by
  simp [unpackedElems]

theorem exec_packUnpack (hin : s.ilen.toNat ≤ s.cfg.ibufCap) (hbits : s.bitlen.toNat ≤ 8 * s.ilen.toNat) :
    exec .packUnpack s = finish s s (unpackedElems s) (8 * s.ilen.toNat - s.bitlen.toNat) false false := by
  rw [exec, execPackUnpack, inputTooLong_eq_false hin, if_neg Bool.false_ne_true, if_neg (by omega), unpackedElems]

theorem exec_packUnpack_of_bitlen (hin : s.ilen.toNat ≤ s.cfg.ibufCap) (hbits : 8 * s.ilen.toNat < s.bitlen.toNat) :
    exec .packUnpack s = .next (failFrame .badOperand 0 s) := by
  rw [exec, execPackUnpack, inputTooLong_eq_false hin, if_neg Bool.false_ne_true, if_pos hbits, failWith_eq]

/-- PACK.UNPACK completes when its bits are there and fit OBUF (R123). -/
theorem exec_packUnpack_of_fits (hin : s.ilen.toNat ≤ s.cfg.ibufCap) (hbits : s.bitlen.toNat ≤ 8 * s.ilen.toNat)
    (hout : s.bitlen.toNat ≤ s.cfg.obufCap) : exec .packUnpack s = .next
      (successFrame (unpackedElems s) (8 * s.ilen.toNat - s.bitlen.toNat) false false s) := by
  rw [exec_packUnpack hin hbits, finish_of_fits (by rwa [unpackedElems_length])]

theorem unpackedElems_getD {i : Nat} (hi : i < s.bitlen.toNat) (hbits : s.bitlen.toNat ≤ 8 * s.ilen.toNat) :
    (unpackedElems s).getD i 0 = bitElem ((ibufAt s (i / 8)).getLsbD (7 - i % 8)) := by
  rw [List.getD_eq_getElem _ _ (by rwa [unpackedElems_length])]
  simp only [unpackedElems, unpack, List.getElem_map, List.getElem_range]
  rw [symsOf, memSeq_getD 0 0 s.ibuf (by omega), ibufAt]

end Unpack

/-- A register of 32 bits takes the low 32 bits of a natural (R119). -/
theorem ofNat_mod_two_pow (n : Nat) : BitVec.ofNat 32 (n % 2 ^ 32) = BitVec.ofNat 32 n := by
  apply BitVec.eq_of_toNat_eq
  simp

/-- Settles O19: the output elements are read one by one. -/
theorem unpackWritesTheFirstBits : Obligations.UnpackWritesTheFirstBits := by
  refine fun s => ⟨fun h => ?operand, fun hin hbits hcap => ?capacity,
    fun hin hbits hout => ⟨_, exec_packUnpack_of_fits hin hbits hout, ?frame, fun i hi => ?below, fun i hi => ?above⟩⟩
  case operand =>
    by_cases hin : s.cfg.ibufCap < s.ilen.toNat
    · exact exec_of_inputTooLong (by decide) (inputTooLong_eq_true hin)
    · exact exec_packUnpack_of_bitlen (by omega) (h.resolve_left hin)
  case capacity =>
    rw [exec_packUnpack hin hbits, finish_of_overflow (by rwa [unpackedElems_length])]
    rfl
  case frame =>
    rw [successFrame_eq, unpackedElems_length, BitVec.ofNat_toNat, BitVec.setWidth_eq, ofNat_mod_two_pow]
  case below =>
    rw [obufAt_successFrame_of_lt (by rwa [unpackedElems_length]), unpackedElems_getD hi hbits, bitElem]
  case above => exact obufAt_successFrame_of_ge (by rwa [unpackedElems_length])

/-! ### The round trip -/

/-- PACK.PACK leaves the packed bits of the input as its output, and their number in `BITLEN` (R121). -/
theorem exec_packPack_leaves {s : State} (hin : s.ilen.toNat ≤ s.cfg.ibufCap)
    (hout : (s.ilen.toNat + 7) / 8 ≤ s.cfg.obufCap) : ∃ t, exec .packPack s = .next t ∧
      outputOf t = pack (bitsOf s) ∧ t.bitlen = s.ilen ∧ t.cfg = s.cfg :=
  ⟨_, exec_packPack_of_fits hin hout, outputOf_successFrame (by rw [pack_bitsOf_length]; omega), rfl, rfl⟩

/-- SYS.MOV leaves the output it found as its input (R115). -/
theorem exec_sysMov_leaves {s : State} (h : s.olen.toNat ≤ s.cfg.ibufCap) : ∃ t, exec .sysMov s = .next t ∧
    symsOf t = outputOf s ∧ t.bitlen = s.bitlen ∧ t.cfg = s.cfg := by
  refine ⟨_, exec_sysMov_of_fits h, ?_, rfl, rfl⟩
  have hstored := memSeq_memWriteSeq 0 s.ibuf (outputOf s)
  rwa [outputOf_length] at hstored

/-- PACK.UNPACK leaves the first `BITLEN` bits of its input as its output (R123). -/
theorem exec_packUnpack_leaves {s : State} (hin : s.ilen.toNat ≤ s.cfg.ibufCap)
    (hbits : s.bitlen.toNat ≤ 8 * s.ilen.toNat) (hout : s.bitlen.toNat ≤ s.cfg.obufCap) :
    ∃ t, exec .packUnpack s = .next t ∧ t.status = 0 ∧ outputOf t = unpackedElems s :=
  ⟨_, exec_packUnpack_of_fits hin hbits hout, rfl, outputOf_successFrame (by rw [unpackedElems_length]; omega)⟩

/-- Settles O42: the packed bytes travel through OBUF and IBUF, and `BITLEN` with them. -/
theorem packMoveUnpackRestoresTheBits : Obligations.PackMoveUnpackRestoresTheBits := by
  intro s hin hout
  obtain ⟨t₁, hpack, hout₁, hbitlen₁, hcfg₁⟩ := exec_packPack_leaves hin (by omega)
  have holen₁ : t₁.olen.toNat = (s.ilen.toNat + 7) / 8 := by rw [← outputOf_length, hout₁, pack_bitsOf_length]
  obtain ⟨t₂, hmov, hsyms₂, hbitlen₂, hcfg₂⟩ := exec_sysMov_leaves (s := t₁) (by rw [hcfg₁]; omega)
  have hilen₂ : t₂.ilen.toNat = (s.ilen.toNat + 7) / 8 := by rw [← symsOf_length, hsyms₂, outputOf_length, holen₁]
  rw [hbitlen₁] at hbitlen₂
  rw [hcfg₁] at hcfg₂
  obtain ⟨t₃, hunpack, hstatus, hout₃⟩ :=
    exec_packUnpack_leaves (s := t₂) (by rw [hcfg₂]; omega) (by rw [hbitlen₂]; omega) (by rwa [hbitlen₂, hcfg₂])
  refine ⟨t₁, t₂, t₃, hpack, hmov, hunpack, hstatus, ?_⟩
  rw [hout₃, unpackedElems, hsyms₂, hout₁, hbitlen₂, ← bitsOf_length, unpack_pack_length]

end Sys2Proof.Proofs.PackCommands
end

section
/-! Frequency tables (R141): the counts of a symbol sequence, and HUF.FREQ (R142) and HUF.TREE (R146) on the machine. -/

namespace Sys2Proof.Proofs.FrequencyTables

open Sys2Proof Sys2Proof.Machine Sys2Proof.Proofs.MergeForest Sys2Proof.Proofs.TreeInvariant
  Sys2Proof.Proofs.ShellCommands

/-! ### Counts -/

theorem freqOf_cons (e : Byte) (x : List Byte) (sym : Nat) :
    freqOf (e :: x) sym = freqOf x sym + if e.toNat = sym then 1 else 0 := by
  simp only [freqOf, List.countP_cons, beq_iff_eq]

theorem freqOf_eq_zero_of_ge (x : List Byte) {sym : Nat} (h : 256 ≤ sym) : freqOf x sym = 0 := by
  refine List.countP_eq_zero.mpr fun e _ => ?_
  have := e.isLt
  simp only [beq_iff_eq]
  omega

theorem freqOf_pos_iff {x : List Byte} {sym : Nat} : 0 < freqOf x sym ↔ ∃ e ∈ x, e.toNat = sym := by
  simp only [freqOf, List.countP_pos_iff, beq_iff_eq]

theorem sum_freqOf (x : List Byte) : ((List.range 256).map (freqOf x)).sum = x.length := by
  induction x with
  | nil => exact List.sum_map_zero
  | cons e x ih =>
    have hone : ((List.range 256).map fun sym => if e.toNat = sym then 1 else 0).sum = 1 :=
      (Finset.sum_ite_eq (Finset.range 256) e.toNat fun _ => 1).trans (if_pos (Finset.mem_range.mpr e.isLt))
    rw [funext (freqOf_cons e x), List.sum_map_add, ih, hone, List.length_cons]

/-- Settles O43: each element adds 1 to the count of its own symbol and to no other. -/
theorem countsSumToTheLength : Obligations.CountsSumToTheLength := by
  refine fun x => ⟨sum_freqOf x, fun a ha => ?_⟩
  have hmem : 0 < freqOf x a ↔ BitVec.ofNat 8 a ∈ x := by
    rw [freqOf_pos_iff]
    constructor
    · rintro ⟨e, he, rfl⟩
      simpa using he
    · exact fun h => ⟨_, h, Nat.mod_eq_of_lt ha⟩
  rw [← hmem]
  omega

/-! ### The alphabet of a stored table -/

/-- The nonzero entries of FREQ are the alphabet of its table (R141). -/
theorem countP_freqAt_ne_zero (s : State) :
    ((List.range 256).countP fun a => decide (freqAt s a ≠ 0)) = alphabetSize (freqTableOf s) := by
  rw [alphabetSize, alphabet, ← List.countP_eq_length_filter]
  refine List.countP_congr fun a _ => ?_
  simp only [freqTableOf, decide_eq_true_eq, ne_eq, ← BitVec.toNat_inj, Nat.pos_iff_ne_zero]
  rfl

/-- FREQ gives back every count of 32 bits, and symbols outside the alphabet have none (R142). -/
theorem freqTableOf_storeFreq {F : Nat → Nat} (hF : ∀ sym, F sym < 2 ^ 32) (hout : ∀ sym, 256 ≤ sym → F sym = 0)
    (s : State) : freqTableOf (storeFreq F s) = F := by
  funext sym
  rw [freqTableOf, freqAt, storeFreq_freq, freqMemOf, memRead_memTable]
  split
  · exact Nat.mod_eq_of_lt (hF sym)
  · exact (hout sym (by omega)).symm

theorem freqTableOf_storeFreq_freqOf (s s' : State) :
    freqTableOf (storeFreq (freqOf (symsOf s)) s') = freqOf (symsOf s) :=
  freqTableOf_storeFreq (freqOf_symsOf_lt s) (fun _ => freqOf_eq_zero_of_ge _) s'

/-! ### The tables behind a success frame -/

section Tables

variable (out : List Byte) (n : Nat) (ed sr : Bool) (s : State)

@[simp] theorem freqTableOf_successFrame : freqTableOf (successFrame out n ed sr s) = freqTableOf s := rfl

@[simp] theorem nodeAt_successFrame (i : Nat) : nodeAt (successFrame out n ed sr s) i = nodeAt s i := rfl

end Tables

/-! ### HUF.FREQ -/

theorem exec_hufFreq_of_fits {s : State} (h : s.ilen.toNat ≤ s.cfg.ibufCap) : exec .hufFreq s =
    .next (successFrame [] (alphabetSize (freqOf (symsOf s))) false false (storeFreq (freqOf (symsOf s)) s)) := by
  rw [exec, execHufFreq, inputTooLong_eq_false h]
  exact finish_nil s ..

theorem freqOf_symsOf (s : State) (sym : Nat) :
    freqOf (symsOf s) sym = (List.range s.ilen.toNat).countP fun i => (ibufAt s i).toNat == sym := by
  rw [freqOf, symsOf, memSeq, List.countP_map]
  rfl

/-- Settles O20: FREQ gives the counts back, and the alphabet is read off it. -/
theorem freqCountsEverySymbol : Obligations.FreqCountsEverySymbol := by
  refine fun s => ⟨fun h => exec_of_inputTooLong (by decide) (inputTooLong_eq_true h),
    fun h => ⟨_, exec_hufFreq_of_fits h, ?frame, fun a _ => ?counts⟩⟩
  case frame =>
    rw [countP_freqAt_ne_zero, freqTableOf_successFrame, freqTableOf_storeFreq_freqOf, successFrame_nil]
    rfl
  case counts => exact (congrFun (freqTableOf_storeFreq_freqOf s s) a).trans (freqOf_symsOf s a)

/-! ### HUF.TREE -/

theorem exec_hufTree (s : State) : exec .hufTree s =
    .next (successFrame [] (alphabetSize (freqTableOf s)) false false (storeTree (treeOf (freqTableOf s)) s)) :=
  finish_nil s ..

/-- Settles O21: NODE holds the nodes of the tree, whose fields fit. -/
theorem treeStoresTheBuiltTree : Obligations.TreeStoresTheBuiltTree := by
  intro s
  rw [countP_freqAt_ne_zero]
  have hweight : ∀ {i n}, (treeOf (freqTableOf s))[i]? = some n → (nodeOf n).weight.toNat = hnodeWeight n :=
    fun hget => nodeOf_weight (treeOf_weight_lt (freqTableOf_lt s) (List.mem_of_getElem? hget))
  refine ⟨_, exec_hufTree s, ?frame, treeOf_length _, fun i sym w hget => ?leaf, fun i a b w hget => ?internal,
    fun i hi => ?above⟩
  case frame =>
    rw [successFrame_nil, storeTree, treeOf_length]
    rfl
  case leaf =>
    rw [nodeAt_successFrame, nodeAt_storeTree hget]
    exact ⟨rfl, rfl, rfl, rfl, hweight hget⟩
  case internal =>
    obtain ⟨ha, hb⟩ := treeOf_child_fits (List.mem_of_getElem? hget)
    rw [nodeAt_successFrame, nodeAt_storeTree hget]
    exact ⟨rfl, rfl, Nat.mod_eq_of_lt ha, Nat.mod_eq_of_lt hb, hweight hget⟩
  case above =>
    rw [nodeAt_successFrame, nodeAt, storeTree_node, memRead_memWriteSeq, if_neg (by rw [List.length_map]; omega),
      nodeAt]

end Sys2Proof.Proofs.FrequencyTables
end

section
/-! The decoding loop (R154, R155) for any table: what it has split off the input at every bit, and that it undoes
`serialize` (R152) for a table of which no codeword begins another (R158). -/

namespace Sys2Proof.Proofs.Decoding

open Sys2Proof Sys2Proof.Machine

variable {T : Nat → List Bool}

@[simp] theorem serialize_nil : serialize T [] = [] := rfl

@[simp] theorem serialize_cons (e : Byte) (x : List Byte) : serialize T (e :: x) = T e.toNat ++ serialize T x := rfl

@[simp] theorem serialize_append (x y : List Byte) : serialize T (x ++ y) = serialize T x ++ serialize T y :=
  List.flatMap_append

/-! ### One match -/

theorem matchSymbol_eq_some {acc : List Bool} {sym : Nat} (h : matchSymbol T acc = some sym) :
    sym < 256 ∧ T sym ≠ [] ∧ T sym = acc ∧ ∀ a < 256, T a ≠ [] → T a = acc → sym ≤ a := by
  obtain ⟨hp, i, hi, hget, hbefore⟩ := List.find?_eq_some_iff_getElem.mp h
  simp only [List.getElem_range, List.length_range, Bool.and_eq_true, decide_eq_true_eq, Bool.not_eq_true',
    Bool.and_eq_false_iff, decide_eq_false_iff_not] at hp hi hget hbefore
  subst hget
  refine ⟨hi, hp.1, hp.2, fun a _ hne heq => ?_⟩
  by_contra hlt
  exact (hbefore a (by omega)).elim (fun hn => hn hne) fun hn => hn heq

theorem matchSymbol_eq_none {acc : List Bool} :
    matchSymbol T acc = none ↔ ∀ a < 256, T a ≠ [] → T a ≠ acc := by
  simp only [matchSymbol, List.find?_eq_none, List.mem_range, Bool.and_eq_true, decide_eq_true_eq, not_and, ne_eq]

/-! ### The loop -/

/-- No codeword of the table begins the bits: the loop has matched none since it last emptied its accumulator. -/
def NoCodewordBegins (T : Nat → List Bool) (acc : List Bool) : Prop := ∀ a < 256, T a ≠ [] → ¬T a <+: acc

/-- The symbol is present, no other codeword begins its own, and it is the smallest symbol of its codeword (R157). -/
def Emittable (T : Nat → List Bool) (e : Byte) : Prop :=
  T e.toNat ≠ [] ∧ ∀ a < 256, T a ≠ [] → T a <+: T e.toNat → T a = T e.toNat ∧ e.toNat ≤ a

theorem noCodewordBegins_nil : NoCodewordBegins T [] := fun _ _ hne hp => hne (List.prefix_nil.mp hp)

/-- A bit that completes no codeword leaves the accumulator without one. -/
theorem noCodewordBegins_concat {acc : List Bool} {b : Bool} (h : NoCodewordBegins T acc)
    (hnone : matchSymbol T (acc ++ [b]) = none) : NoCodewordBegins T (acc ++ [b]) := by
  intro a ha hne hp
  rcases List.prefix_concat_iff.mp hp with heq | hp
  · exact matchSymbol_eq_none.mp hnone a ha hne heq
  · exact h a ha hne hp

/-- A bit that completes a codeword emits the smallest symbol of it, and no shorter codeword begins it. -/
theorem emittable_of_matchSymbol {acc : List Bool} {b : Bool} {sym : Nat} (h : NoCodewordBegins T acc)
    (hsome : matchSymbol T (acc ++ [b]) = some sym) :
    T (BitVec.ofNat 8 sym).toNat = acc ++ [b] ∧ Emittable T (BitVec.ofNat 8 sym) := by
  obtain ⟨hlt, hne, heq, hmin⟩ := matchSymbol_eq_some hsome
  rw [Emittable, show (BitVec.ofNat 8 sym).toNat = sym from Nat.mod_eq_of_lt hlt]
  refine ⟨heq, hne, fun a ha hane hp => ?_⟩
  rw [heq] at hp ⊢
  rcases List.prefix_concat_iff.mp hp with haeq | hp
  · exact ⟨haeq, hmin a ha hane haeq⟩
  · exact absurd hp (h a ha hane)

/-- The loop's split of the bits: the codewords of the symbols emitted, then a leftover that no codeword begins. -/
theorem decodeLoop_splits (bits : List Bool) {acc : List Bool} {out : List Byte} (hacc : NoCodewordBegins T acc)
    (hout : ∀ e ∈ out, Emittable T e) :
    serialize T (decodeLoop T bits acc out).2 ++ (decodeLoop T bits acc out).1 = serialize T out ++ acc ++ bits ∧
      NoCodewordBegins T (decodeLoop T bits acc out).1 ∧ ∀ e ∈ (decodeLoop T bits acc out).2, Emittable T e := by
  induction bits generalizing acc out with
  | nil => exact ⟨(List.append_nil _).symm, hacc, hout⟩
  | cons b bits ih =>
    rw [decodeLoop]
    cases hm : matchSymbol T (acc ++ [b]) with
    | none =>
      obtain ⟨hsplit, hrest⟩ := ih (noCodewordBegins_concat hacc hm) hout
      exact ⟨by simpa using hsplit, hrest⟩
    | some sym =>
      obtain ⟨hcode, hemit⟩ := emittable_of_matchSymbol hacc hm
      have hout' : ∀ e ∈ out ++ [BitVec.ofNat 8 sym], Emittable T e := by
        intro e he
        rcases List.mem_append.mp he with he | he
        · exact hout e he
        · exact List.mem_singleton.mp he ▸ hemit
      obtain ⟨hsplit, hrest⟩ := ih noCodewordBegins_nil hout'
      refine ⟨hsplit.trans ?_, hrest⟩
      rw [serialize_append, serialize_cons, hcode]
      simp

/-! ### What `decode` answers -/

theorem decodeBits_ok {bits : List Bool} {y : List Byte} (h : decodeBits T bits = .ok y) :
    bits = serialize T y ∧ ∀ e ∈ y, Emittable T e := by
  obtain ⟨hsplit, -, hemit⟩ := decodeLoop_splits (T := T) bits (out := []) noCodewordBegins_nil (by simp)
  simp only [decodeBits] at h
  split at h
  · next hnil =>
    cases h
    exact ⟨by simpa [hnil] using hsplit.symm, hemit⟩
  · cases h

theorem decodeBits_error_splits {bits : List Bool} {sub : BitVec 2} (h : decodeBits T bits = .error sub) :
    ∃ y acc, bits = serialize T y ++ acc ∧ acc ≠ [] ∧ (∀ e ∈ y, Emittable T e) ∧ NoCodewordBegins T acc ∧
      sub = leftoverCause T acc := by
  obtain ⟨hsplit, hclear, hemit⟩ := decodeLoop_splits (T := T) bits (out := []) noCodewordBegins_nil (by simp)
  simp only [decodeBits] at h
  split at h
  · cases h
  · next hne =>
    cases h
    exact ⟨_, _, by simpa using hsplit.symm, hne, hemit, hclear, rfl⟩

theorem leftoverCause_eq_truncated {acc : List Bool} (h : ∃ a < 256, T a ≠ [] ∧ acc <+: T a) :
    leftoverCause T acc = 1 := by
  refine if_pos (List.any_eq_true.mpr ?_)
  obtain ⟨a, ha, hne, hp⟩ := h
  exact ⟨a, List.mem_range.mpr ha, by simp [hne, hp]⟩

theorem leftoverCause_eq_deadEnd {acc : List Bool} (h : ∀ a < 256, T a ≠ [] → ¬acc <+: T a) :
    leftoverCause T acc = 2 := by
  refine if_neg fun hany => ?_
  obtain ⟨a, ha, hp⟩ := List.any_eq_true.mp hany
  simp only [Bool.and_eq_true, decide_eq_true_eq, List.isPrefixOf_iff_prefix] at hp
  exact h a (List.mem_range.mp ha) hp.1 hp.2

/-- Settles O27: the loop's split at the end of the bits, with or without a leftover. -/
theorem decodeSplitsTheInput : Obligations.DecodeSplitsTheInput := by
  refine fun T bits => ⟨fun y h => decodeBits_ok h, fun sub h => ?_⟩
  obtain ⟨y, acc, hsplit, hne, hemit, hclear, rfl⟩ := decodeBits_error_splits h
  exact ⟨y, acc, hsplit, hne, hemit, hclear, leftoverCause_eq_truncated, leftoverCause_eq_deadEnd⟩

/-- Every emitted symbol took at least one bit (R156). -/
theorem length_le_of_decodeBits_ok {bits : List Bool} {y : List Byte} (h : decodeBits T bits = .ok y) :
    y.length ≤ bits.length := by
  obtain ⟨rfl, hemit⟩ := decodeBits_ok h
  clear h
  induction y with
  | nil => exact Nat.zero_le _
  | cons e y ih =>
    have hpos := List.length_pos_iff.mpr (hemit e (by simp)).1
    have := ih fun e he => hemit e (by simp [he])
    simp only [serialize_cons, List.length_append, List.length_cons]
    omega

/-! ### Decoding undoes serialization -/

section PrefixFree

variable (hT : PrefixFree T)
include hT

/-- A present symbol's codeword begins no codeword but its own. -/
theorem eq_of_prefixFree {e : Byte} (he : T e.toNat ≠ []) {a : Nat} (ha : a < 256) (hne : T a ≠ [])
    (hp : T a <+: T e.toNat) : a = e.toNat := hT a ha e.toNat e.isLt hne he hp

theorem matchSymbol_codeword {e : Byte} (he : T e.toNat ≠ []) : matchSymbol T (T e.toNat) = some e.toNat := by
  cases hm : matchSymbol T (T e.toNat) with
  | none => exact absurd rfl (matchSymbol_eq_none.mp hm e.toNat e.isLt he)
  | some sym =>
    obtain ⟨hlt, hne, heq, -⟩ := matchSymbol_eq_some hm
    rw [eq_of_prefixFree hT he hlt hne (heq ▸ List.prefix_refl _)]

theorem matchSymbol_properPrefix {e : Byte} (he : T e.toNat ≠ []) {acc w : List Bool} (hw : w ≠ [])
    (hacc : acc ++ w = T e.toNat) : matchSymbol T acc = none := by
  refine matchSymbol_eq_none.mpr fun a ha hne heq => hw ?_
  have hp : T a <+: T e.toNat := heq ▸ hacc ▸ List.prefix_append ..
  rw [eq_of_prefixFree hT he ha hne hp, ← hacc] at heq
  exact List.append_right_eq_self.mp heq

/-- The loop runs through the rest of a codeword to its end and emits its symbol. -/
theorem decodeLoop_codeword {e : Byte} (he : T e.toNat ≠ []) (rest : List Bool) (out : List Byte) {w acc : List Bool}
    (hw : w ≠ []) (hacc : acc ++ w = T e.toNat) :
    decodeLoop T (w ++ rest) acc out = decodeLoop T rest [] (out ++ [e]) := by
  induction w generalizing acc with
  | nil => exact absurd rfl hw
  | cons b w ih =>
    have hacc' : (acc ++ [b]) ++ w = T e.toNat := by simpa using hacc
    rw [List.cons_append, decodeLoop]
    rcases eq_or_ne w [] with rfl | hne
    · rw [List.append_nil] at hacc'
      simp [hacc', matchSymbol_codeword hT he]
    · rw [matchSymbol_properPrefix hT he hne hacc']
      exact ih hne hacc'

theorem decodeLoop_serialize {x : List Byte} (hx : ∀ e ∈ x, T e.toNat ≠ []) (out : List Byte) :
    decodeLoop T (serialize T x) [] out = ([], out ++ x) := by
  induction x generalizing out with
  | nil => rw [List.append_nil]; rfl
  | cons e x ih =>
    have he := hx e (by simp)
    rw [serialize_cons, decodeLoop_codeword hT he _ out he rfl]
    simpa using ih (fun e he => hx e (by simp [he])) (out ++ [e])

theorem decodeBits_serialize {x : List Byte} (hx : ∀ e ∈ x, T e.toNat ≠ []) :
    decodeBits T (serialize T x) = .ok x := by
  simp [decodeBits, decodeLoop_serialize hT hx]

end PrefixFree

/-- Settles O46: codeword by codeword, none matched before its end. -/
theorem decodeInvertsSerialize : Obligations.DecodeInvertsSerialize := fun _ _ hT => decodeBits_serialize hT

end Sys2Proof.Proofs.Decoding
end

section
/-! The choice each pass of the merging loop makes: the two live nodes of smallest (weight, index) (R144). -/

namespace Sys2Proof.Proofs.GreedyMerge

open Sys2Proof Sys2Proof.Machine Sys2Proof.Proofs.MergeForest

/-! ### The order of R144 -/

theorem keyLess_iff {nodes : List HNode} {i j : Nat} : keyLess nodes i j = true ↔ KeyBelow nodes i j := by
  simp only [keyLess, KeyBelow, Bool.or_eq_true, Bool.and_eq_true, decide_eq_true_eq, beq_iff_eq]

theorem keyBelow_trans {nodes : List HNode} {i j k : Nat} (hij : KeyBelow nodes i j) (hjk : KeyBelow nodes j k) :
    KeyBelow nodes i k := by
  unfold KeyBelow at *
  omega

/-- Nodes that come later change no key. -/
theorem keyBelow_append {nodes : List HNode} {i j : Nat} (hi : i < nodes.length) (hj : j < nodes.length)
    (more : List HNode) : KeyBelow (nodes ++ more) i j ↔ KeyBelow nodes i j := by
  simp only [KeyBelow, weightAt_append hi, weightAt_append hj]

theorem keyBelow_total {nodes : List HNode} {i j : Nat} (h : ¬KeyBelow nodes j i) : i = j ∨ KeyBelow nodes i j := by
  unfold KeyBelow at *
  omega

/-- The index `minKey` keeps of two is one of them and not above the other. -/
theorem minKey_choice (nodes : List HNode) (i k : Nat) :
    ∀ j ∈ [i, k], (if keyLess nodes k i then k else i) = j ∨ KeyBelow nodes (if keyLess nodes k i then k else i) j := by
  by_cases h : KeyBelow nodes k i
  · simp [keyLess_iff, h]
  · simp [keyLess_iff, h, keyBelow_total h]

/-- `minKey` is below every other index it was given. -/
theorem minKey_least (nodes : List HNode) (i : Nat) (l : List Nat) :
    ∀ j ∈ i :: l, minKey nodes i l = j ∨ KeyBelow nodes (minKey nodes i l) j := by
  induction l generalizing i with
  | nil => exact fun j hj => .inl (List.mem_singleton.mp hj).symm
  | cons k t ih =>
    intro j hj
    rw [minKey]
    have hc := minKey_choice nodes i k
    generalize (if keyLess nodes k i then k else i) = c at hc
    rcases List.mem_append.mp (show j ∈ [i, k] ++ t from hj) with hj | hj
    · rcases hc j hj with rfl | hlt
      · exact ih c c (by simp)
      · rcases ih c c (by simp) with heq | hle
        · exact .inr (heq.symm ▸ hlt)
        · exact .inr (keyBelow_trans hle hlt)
    · exact ih c j (List.mem_cons_of_mem _ hj)

/-- One pass of the loop: `mergeLoop_pass` with what R144 says of the two nodes it takes. -/
theorem mergeLoop_pass_least {live : List Nat} (h : 2 ≤ live.length) (fuel : Nat) (nodes : List HNode) :
    ∃ a b rest, live.Perm (a :: b :: rest) ∧ (∀ j ∈ live, j ≠ a → KeyBelow nodes a j) ∧
      (∀ j ∈ live, j ≠ a → j ≠ b → KeyBelow nodes b j) ∧
      mergeLoop (fuel + 1) nodes live =
        mergeLoop fuel (nodes ++ [.internal a b (weightAt nodes a + weightAt nodes b)]) (rest ++ [nodes.length]) := by
  obtain _ | ⟨i, rest⟩ := live
  · simp at h
  have hp := List.perm_cons_erase (minKey_mem nodes i rest)
  rcases he : (i :: rest).erase (minKey nodes i rest) with _ | ⟨k, rest'⟩ <;> rw [he] at hp
  · rw [hp.length_eq] at h
    simp at h
  · refine ⟨_, _, _, hp.trans ((List.perm_cons_erase (minKey_mem nodes k rest')).cons _),
      fun j hj hja => (minKey_least nodes i rest j hj).resolve_left (Ne.symm hja),
      fun j hj hja hjb => (minKey_least nodes k rest' j ?_).resolve_left (Ne.symm hjb), by simp only [mergeLoop, he]⟩
    exact (List.mem_cons.mp (hp.mem_iff.mp hj)).resolve_left hja

/-! ### The live nodes -/

/-- Nodes that come later do not change what was live. -/
theorem live_append {nodes : List HNode} {i j : Nat} (hi : i ≤ nodes.length) (more : List HNode) :
    Live (nodes ++ more) i j ↔ Live nodes i j := by
  refine and_congr_right fun _ => forall₂_congr fun i' hi' => ?_
  rw [List.getElem?_append_left (by omega)]

theorem childCount_eq_zero_iff {nodes : List HNode} {j : Nat} : childCount nodes j = 0 ↔
    ∀ i < nodes.length, ∀ l r w, nodes[i]? = some (.internal l r w) → l ≠ j ∧ r ≠ j := by
  rw [childCount, List.countP_eq_zero]
  constructor
  · intro h i _ l r w hget
    simpa [hasChild] using h _ (List.mem_of_getElem? hget)
  · intro h n hn
    obtain ⟨i, hi, rfl⟩ := List.getElem_of_mem hn
    cases hget : nodes[i] with
    | leaf sym w => simp [hasChild]
    | internal l r w => simpa [hasChild] using h i hi l r w (by rw [List.getElem?_eq_getElem hi, hget])

/-- The loop's list holds the nodes that have no parent yet. -/
theorem live_iff_mem {leaves nodes : List HNode} {live : List Nat} (h : Forest leaves nodes live) {j : Nat} :
    Live nodes nodes.length j ↔ j ∈ live := by
  have hc := h.parent_or_live j
  rw [Live, ← childCount_eq_zero_iff, ← List.count_pos_iff]
  split at hc <;> omega

/-! ### Every node after the leaves -/

/-- Node `i` is made of the two live nodes of smallest key, the smallest on the left (R144). -/
def MadeOfLightest (nodes : List HNode) (i : Nat) : Prop :=
  ∃ a b, nodes[i]? = some (.internal a b (weightAt nodes a + weightAt nodes b)) ∧ Live nodes i a ∧ Live nodes i b ∧
    a ≠ b ∧ (∀ j, Live nodes i j → j ≠ a → KeyBelow nodes a j) ∧
    ∀ j, Live nodes i j → j ≠ a → j ≠ b → KeyBelow nodes b j

theorem madeOfLightest_append {nodes : List HNode} {i : Nat} (hi : i < nodes.length) (h : MadeOfLightest nodes i)
    (more : List HNode) : MadeOfLightest (nodes ++ more) i := by
  obtain ⟨a, b, hget, ha, hb, hab, hleast, hnext⟩ := h
  have ha' : a < nodes.length := ha.1.trans hi
  have hb' : b < nodes.length := hb.1.trans hi
  simp only [MadeOfLightest, live_append hi.le, List.getElem?_append_left hi]
  refine ⟨a, b, ?_, ha, hb, hab, fun j hj hja => ?_, fun j hj hja hjb => ?_⟩
  · rw [hget, weightAt_append ha', weightAt_append hb']
  · exact (keyBelow_append ha' (hj.1.trans hi) more).mpr (hleast j hj hja)
  · exact (keyBelow_append hb' (hj.1.trans hi) more).mpr (hnext j hj hja hjb)

/-- The node a pass adds, when the pass takes the two live nodes of smallest key. -/
theorem madeOfLightest_concat {leaves nodes : List HNode} {live : List Nat} (h : Forest leaves nodes live) {a b : Nat}
    (ha : a ∈ live) (hb : b ∈ live) (hab : a ≠ b) (hleast : ∀ j ∈ live, j ≠ a → KeyBelow nodes a j)
    (hnext : ∀ j ∈ live, j ≠ a → j ≠ b → KeyBelow nodes b j) :
    MadeOfLightest (nodes ++ [.internal a b (weightAt nodes a + weightAt nodes b)]) nodes.length := by
  have ha' := h.live_lt ha
  have hb' := h.live_lt hb
  simp only [MadeOfLightest, live_append le_rfl, live_iff_mem h, List.getElem?_concat_length]
  refine ⟨a, b, ?_, ha, hb, hab, fun j hj hja => ?_, fun j hj hja hjb => ?_⟩
  · rw [weightAt_append ha', weightAt_append hb']
  · exact (keyBelow_append ha' (h.live_lt hj) _).mpr (hleast j hj hja)
  · exact (keyBelow_append hb' (h.live_lt hj) _).mpr (hnext j hj hja hjb)

theorem mergeLoop_madeOfLightest {leaves nodes : List HNode} {live : List Nat} {fuel : Nat}
    (h : Forest leaves nodes live) (hlen : live.length = fuel + 1)
    (hmade : ∀ i, leaves.length ≤ i → i < nodes.length → MadeOfLightest nodes i) :
    ∀ i, leaves.length ≤ i → i < (mergeLoop fuel nodes live).length →
      MadeOfLightest (mergeLoop fuel nodes live) i := by
  induction fuel generalizing nodes live with
  | zero => exact hmade
  | succ fuel ih =>
    obtain ⟨a, b, rest, hp, hleast, hnext, he⟩ := mergeLoop_pass_least (live := live) (by omega) fuel nodes
    have hf := h.perm hp
    have hab : a ≠ b := by
      rintro rfl
      exact (List.nodup_cons.mp hf.live_nodup).1 (by simp)
    have hrest := hp.length_eq
    simp only [List.length_cons] at hrest
    rw [he]
    refine ih hf.merge (by rw [List.length_append, List.length_singleton]; omega) fun i hi hlt => ?_
    rw [List.length_append, List.length_singleton] at hlt
    rcases Nat.lt_or_ge i nodes.length with hold | hnew
    · exact madeOfLightest_append hold (hmade i hi hold) _
    · obtain rfl : i = nodes.length := by omega
      exact madeOfLightest_concat h (hp.mem_iff.mpr (by simp)) (hp.mem_iff.mpr (by simp)) hab hleast hnext

/-- The forest the loop starts from (R143): the first half of `treeOf_forest`. -/
theorem leavesOf_forest {F : Nat → Nat} (h : 1 ≤ alphabetSize F) :
    Forest (leavesOf F) (leavesOf F) (List.range (alphabetSize F)) := by
  have h0 : Forest (leavesOf F) (leavesOf F) (List.range (leavesOf F).length) :=
    .of_leaves (List.ne_nil_of_length_pos (by rwa [leavesOf_length])) fun n hn j => by
      obtain ⟨sym, -, rfl⟩ := List.mem_map.mp hn
      rfl
  rwa [leavesOf_length] at h0

theorem treeOf_madeOfLightest {F : Nat → Nat} {i : Nat} (hi : alphabetSize F ≤ i) (hlt : i < (treeOf F).length) :
    MadeOfLightest (treeOf F) i := by
  have hpos : 1 ≤ alphabetSize F := by rw [treeOf_length] at hlt; omega
  refine mergeLoop_madeOfLightest (leavesOf_forest hpos) (by rw [List.length_range]; omega) (fun j hj hjlt => ?_) i
    (by rwa [leavesOf_length]) hlt
  omega

theorem treeOf_take (F : Nat → Nat) : (treeOf F).take (alphabetSize F) = leavesOf F := by
  rcases Nat.eq_zero_or_pos (alphabetSize F) with h0 | h1
  · rw [h0, List.take_zero, List.eq_nil_of_length_eq_zero ((leavesOf_length F).trans h0)]
  · rw [← leavesOf_length]
    exact (List.prefix_iff_eq_take.mp (treeOf_forest h1).leaves_prefix).symm

/-- Settles O22: the leaves begin the forest, and each pass adds a node made of the lightest two. -/
theorem treeMergesTheTwoLightest : Obligations.TreeMergesTheTwoLightest :=
  fun F => ⟨treeOf_take F, treeOf_length F, fun _ => treeOf_madeOfLightest, fun hF _ => treeOf_weight_lt hF⟩

end Sys2Proof.Proofs.GreedyMerge
end

section
/-! Strict binary trees in a node sequence (R43): where paths from the root lead, how deep they go, and what the walk of
R148 finds. -/

namespace Sys2Proof.Proofs.StrictTrees

open Sys2Proof Sys2Proof.Machine Sys2Proof.Proofs.MergeForest

/-! ### Paths -/

/-- The index of the node a path of bits leads to from node `i`; `followPath` gives the node itself. -/
def descend (nodes : List HNode) (i : Nat) : List Bool → Option Nat
  | [] => some i
  | b :: path =>
    match nodes[i]? with
    | some (.internal l r _) => descend nodes (if b then r else l) path
    | _ => none

section Paths

variable {nodes : List HNode} {i l r w : Nat}

@[simp] theorem descend_nil : descend nodes i [] = some i := rfl

@[simp] theorem followPath_nil : followPath nodes i [] = nodes[i]? := rfl

theorem descend_cons_internal (h : nodes[i]? = some (.internal l r w)) (b : Bool) (path : List Bool) :
    descend nodes i (b :: path) = descend nodes (if b then r else l) path := by
  simp only [descend, h]

/-- Paths go down through internal nodes only. -/
theorem descend_cons_eq_some {b : Bool} {path : List Bool} {j : Nat} (h : descend nodes i (b :: path) = some j) :
    ∃ l r w, nodes[i]? = some (.internal l r w) ∧ descend nodes (if b then r else l) path = some j := by
  rw [descend] at h
  split at h
  · next l r w hget => exact ⟨l, r, w, hget, h⟩
  · cases h

theorem followPath_eq_descend (path : List Bool) :
    followPath nodes i path = (descend nodes i path).bind fun j => nodes[j]? := by
  induction path generalizing i with
  | nil => rfl
  | cons b path ih =>
    simp only [followPath, descend]
    rcases nodes[i]? with _ | ⟨sym, w⟩ | ⟨l, r, w⟩
    · rfl
    · rfl
    · exact ih

theorem followPath_eq_some {path : List Bool} {n : HNode} :
    followPath nodes i path = some n ↔ ∃ j, descend nodes i path = some j ∧ nodes[j]? = some n := by
  rw [followPath_eq_descend, Option.bind_eq_some_iff]

theorem followPath_cons_eq_some {b : Bool} {path : List Bool} {n : HNode} :
    followPath nodes i (b :: path) = some n ↔
      ∃ l r w, nodes[i]? = some (.internal l r w) ∧ followPath nodes (if b then r else l) path = some n := by
  simp only [followPath_eq_some]
  constructor
  · rintro ⟨j, hj, hn⟩
    obtain ⟨l, r, w, hget, hj⟩ := descend_cons_eq_some hj
    exact ⟨l, r, w, hget, j, hj, hn⟩
  · rintro ⟨l, r, w, hget, j, hj, hn⟩
    exact ⟨j, (descend_cons_internal hget b path).trans hj, hn⟩

theorem followPath_of_leaf {sym : Byte} (h : nodes[i]? = some (.leaf sym w)) {path : List Bool} {n : HNode} :
    followPath nodes i path = some n ↔ path = [] ∧ .leaf sym w = n := by
  cases path with
  | nil => simp [h]
  | cons b path => simp [followPath_cons_eq_some, h]

theorem followPath_of_internal (h : nodes[i]? = some (.internal l r w)) {path : List Bool} {sym : Byte} {w' : Nat} :
    followPath nodes i path = some (.leaf sym w') ↔
      ∃ b rest, path = b :: rest ∧ followPath nodes (if b then r else l) rest = some (.leaf sym w') := by
  cases path with
  | nil => simp [h]
  | cons b path => simp [followPath_cons_eq_some, h]

theorem followPath_of_none (h : nodes[i]? = none) (path : List Bool) : followPath nodes i path = none := by
  cases path <;> simp [followPath, h]

theorem descend_append_eq_some {p q : List Bool} {k : Nat} :
    descend nodes i (p ++ q) = some k ↔ ∃ j, descend nodes i p = some j ∧ descend nodes j q = some k := by
  induction p generalizing i with
  | nil => simp
  | cons b p ih =>
    constructor
    · intro h
      obtain ⟨l, r, w, hget, h⟩ := descend_cons_eq_some h
      simpa only [descend_cons_internal hget] using ih.mp h
    · rintro ⟨j, hj, hk⟩
      obtain ⟨l, r, w, hget, hj⟩ := descend_cons_eq_some hj
      exact (descend_cons_internal hget b (p ++ q)).trans (ih.mpr ⟨j, hj, hk⟩)

/-- The last bit of a path chooses a child of the node before. -/
theorem descend_concat_eq_some {p : List Bool} {b : Bool} {k : Nat} : descend nodes i (p ++ [b]) = some k ↔
    ∃ j l r w, descend nodes i p = some j ∧ nodes[j]? = some (.internal l r w) ∧ (if b then r else l) = k := by
  rw [descend_append_eq_some]
  constructor
  · rintro ⟨j, hj, hk⟩
    obtain ⟨l, r, w, hget, hk⟩ := descend_cons_eq_some hk
    exact ⟨j, l, r, w, hj, hget, Option.some.inj hk⟩
  · rintro ⟨j, l, r, w, hj, hget, rfl⟩
    exact ⟨j, hj, descend_cons_internal hget b []⟩

/-- A path that ends at a leaf goes no further. -/
theorem eq_nil_of_followPath_leaf {p q : List Bool} {sym : Byte} {w : Nat} {n : HNode}
    (hp : followPath nodes i p = some (.leaf sym w)) (hq : followPath nodes i (p ++ q) = some n) : q = [] := by
  obtain ⟨j, hj, hget⟩ := followPath_eq_some.mp hp
  obtain ⟨k, hk, -⟩ := followPath_eq_some.mp hq
  obtain ⟨j', hj', hk⟩ := descend_append_eq_some.mp hk
  cases hj.symm.trans hj'
  cases q with
  | nil => rfl
  | cons b q =>
    obtain ⟨l, r, w', hget', -⟩ := descend_cons_eq_some hk
    cases hget.symm.trans hget'

end Paths

/-! ### Strict trees -/

/-- `nodes` is a strict binary tree of `m` leaves with different symbols: the leaves first, then the internal nodes,
each over two different earlier nodes, each node but the last having one parent (R43). -/
structure StrictTree (m : Nat) (nodes : List HNode) : Prop where
  pos : 1 ≤ m
  le : m ≤ 256
  length_eq : nodes.length = 2 * m - 1
  leaf : ∀ i < m, ∃ sym w, nodes[i]? = some (.leaf sym w)
  internal : ∀ i, m ≤ i → i < nodes.length → ∃ l r w, nodes[i]? = some (.internal l r w) ∧ l < i ∧ r < i ∧ l ≠ r
  parent : ∀ j < nodes.length - 1, childCount nodes j = 1
  sym_inj : ∀ (i j : Nat) sym w w', nodes[i]? = some (.leaf sym w) → nodes[j]? = some (.leaf sym w') → i = j

/-- Two entries of a list in which one only has the property are the same entry. -/
theorem index_unique_of_countP_le_one {α : Type} {p : α → Bool} {xs : List α} (h : xs.countP p ≤ 1) {i j : Nat}
    {x y : α} (hi : xs[i]? = some x) (hj : xs[j]? = some y) (hx : p x = true) (hy : p y = true) : i = j := by
  wlog hlt : i < j generalizing i j x y
  · rcases Nat.lt_or_ge j i with hji | hij
    · exact (this hj hi hy hx hji).symm
    · omega
  rw [← List.take_append_drop j xs, List.countP_append] at h
  have h1 : 0 < (xs.take j).countP p :=
    List.countP_pos_iff.mpr ⟨x, List.mem_of_getElem? (i := i) (by rwa [List.getElem?_take_of_lt hlt]), hx⟩
  have h2 : 0 < (xs.drop j).countP p :=
    List.countP_pos_iff.mpr ⟨y, List.mem_of_getElem? (i := 0) (by rwa [List.getElem?_drop]), hy⟩
  omega

namespace StrictTree

variable {m : Nat} {nodes : List HNode} (h : StrictTree m nodes)
include h

theorem of_internal {i l r w : Nat} (hget : nodes[i]? = some (.internal l r w)) : m ≤ i ∧ l < i ∧ r < i ∧ l ≠ r := by
  have hi := (List.getElem?_eq_some_iff.mp hget).1
  rcases Nat.lt_or_ge i m with hlt | hge
  · obtain ⟨sym, w', hleaf⟩ := h.leaf i hlt
    cases hleaf.symm.trans hget
  · obtain ⟨l', r', w', hget', hlr⟩ := h.internal i hge hi
    cases hget'.symm.trans hget
    exact ⟨hge, hlr⟩

theorem exists_parent {j : Nat} (hj : j < nodes.length - 1) :
    ∃ (i l r w : Nat) (b : Bool), nodes[i]? = some (.internal l r w) ∧ (if b then r else l) = j := by
  have hpos : 0 < nodes.countP (hasChild j) := by
    have := h.parent j hj
    rw [childCount] at this
    omega
  obtain ⟨n, hn, hchild⟩ := List.countP_pos_iff.mp hpos
  obtain ⟨i, hget⟩ := List.mem_iff_getElem?.mp hn
  cases n with
  | leaf sym w => cases hchild
  | internal l r w =>
    rw [hasChild, Bool.or_eq_true, beq_iff_eq, beq_iff_eq] at hchild
    rcases hchild with rfl | rfl
    · exact ⟨i, l, r, w, false, hget, rfl⟩
    · exact ⟨i, l, r, w, true, hget, rfl⟩

/-- A node has one parent at most, and is one of its two children only. -/
theorem parent_unique {i l r w i' l' r' w' : Nat} {b b' : Bool} (hi : nodes[i]? = some (.internal l r w))
    (hi' : nodes[i']? = some (.internal l' r' w')) (hc : (if b then r else l) = if b' then r' else l') :
    i = i' ∧ b = b' := by
  obtain ⟨-, hl, hr, hne⟩ := h.of_internal hi
  have hlen := (List.getElem?_eq_some_iff.mp hi).1
  have hone := h.parent (if b then r else l) (by split <;> omega)
  have hchild : ∀ (b : Bool) (l r w : Nat), hasChild (if b then r else l) (.internal l r w) = true := fun b l r w => by
    cases b <;> simp [hasChild]
  obtain rfl := index_unique_of_countP_le_one hone.le hi hi' (hchild b l r w) (hc ▸ hchild b' l' r' w')
  cases hi.symm.trans hi'
  refine ⟨rfl, ?_⟩
  cases b <;> cases b' <;> simp_all

/-- A path leads down, so one that moves does not come back to where it began. -/
theorem descend_le {i j : Nat} {p : List Bool} (hp : descend nodes i p = some j) : j + p.length ≤ i := by
  induction p generalizing i with
  | nil => cases hp; rfl
  | cons b p ih =>
    obtain ⟨l, r, w, hget, hp⟩ := descend_cons_eq_some hp
    obtain ⟨-, hl, hr, -⟩ := h.of_internal hget
    have := ih hp
    rw [List.length_cons]
    split at this <;> omega

/-- The inner nodes of a path are internal, so there are at most as many as stand at or before its first. -/
theorem descend_length {i j : Nat} {p : List Bool} (hp : descend nodes i p = some j) : p.length ≤ i + 1 - m := by
  induction p generalizing i with
  | nil => exact Nat.zero_le _
  | cons b p ih =>
    obtain ⟨l, r, w, hget, hp⟩ := descend_cons_eq_some hp
    obtain ⟨hm, hl, hr, -⟩ := h.of_internal hget
    have := ih hp
    rw [List.length_cons]
    split at this <;> omega

/-- Only one path leads from a node to another. -/
theorem descend_unique {i j : Nat} {p q : List Bool} (hp : descend nodes i p = some j)
    (hq : descend nodes i q = some j) : p = q := by
  induction p using List.reverseRecOn generalizing q j with
  | nil =>
    cases hp
    have := h.descend_le hq
    exact (List.eq_nil_of_length_eq_zero (by omega)).symm
  | append_singleton p b ih =>
    rcases List.eq_nil_or_concat' q with rfl | ⟨q, b', rfl⟩
    · cases hq
      have := h.descend_le hp
      simp at this
    · obtain ⟨k, l, r, w, hk, hget, hj⟩ := descend_concat_eq_some.mp hp
      obtain ⟨k', l', r', w', hk', hget', hj'⟩ := descend_concat_eq_some.mp hq
      obtain ⟨rfl, rfl⟩ := h.parent_unique hget hget' (hj.trans hj'.symm)
      rw [ih hk hk']

/-- A path leads from the root to every node. -/
theorem exists_descend {j : Nat} (hj : j < nodes.length) : ∃ p, descend nodes (nodes.length - 1) p = some j := by
  induction hd : nodes.length - j using Nat.strong_induction_on generalizing j with
  | _ d ih =>
    by_cases hroot : j = nodes.length - 1
    · exact ⟨[], by rw [hroot]; rfl⟩
    · obtain ⟨i, l, r, w, b, hget, hc⟩ := h.exists_parent (j := j) (by omega)
      obtain ⟨-, hl, hr, -⟩ := h.of_internal hget
      have hi := (List.getElem?_eq_some_iff.mp hget).1
      have hlt : j < i := by rw [← hc]; split <;> assumption
      obtain ⟨p, hp⟩ := ih (nodes.length - i) (by omega) hi rfl
      exact ⟨p ++ [b], descend_concat_eq_some.mpr ⟨i, l, r, w, hp, hget, hc⟩⟩

/-- The path to a leaf is as long as there are other leaves at most (R150(d)). -/
theorem followPath_length {p : List Bool} {n : HNode} (hp : followPath nodes (nodes.length - 1) p = some n) :
    p.length ≤ m - 1 := by
  obtain ⟨j, hj, -⟩ := followPath_eq_some.mp hp
  have := h.descend_length hj
  have := h.length_eq
  have := h.pos
  omega

theorem followPath_unique {p q : List Bool} {sym : Byte} {w w' : Nat}
    (hp : followPath nodes (nodes.length - 1) p = some (.leaf sym w))
    (hq : followPath nodes (nodes.length - 1) q = some (.leaf sym w')) : p = q := by
  obtain ⟨j, hj, hget⟩ := followPath_eq_some.mp hp
  obtain ⟨j', hj', hget'⟩ := followPath_eq_some.mp hq
  obtain rfl := h.sym_inj _ _ _ _ _ hget hget'
  exact h.descend_unique hj hj'

end StrictTree

/-! ### The walk of R148 -/

/-- The walk finds the leaves that paths shorter than its levels lead to, each with its path. -/
theorem mem_walkTree {nodes : List HNode} {fuel i a : Nat} {path p : List Bool} :
    (a, p) ∈ walkTree nodes fuel i path ↔
      ∃ q sym w, p = path ++ q ∧ q.length < fuel ∧ followPath nodes i q = some (.leaf sym w) ∧ sym.toNat = a := by
  induction fuel generalizing i path with
  | zero => simp [walkTree]
  | succ fuel ih =>
    rw [walkTree]
    split
    · next sym w hget =>
      simp only [followPath_of_leaf hget, List.mem_singleton, Prod.mk.injEq, HNode.leaf.injEq]
      constructor
      · rintro ⟨rfl, rfl⟩
        exact ⟨[], sym, w, (List.append_nil _).symm, Nat.succ_pos _, ⟨rfl, rfl, rfl⟩, rfl⟩
      · rintro ⟨q, sym', w', rfl, -, ⟨rfl, rfl, rfl⟩, rfl⟩
        exact ⟨rfl, List.append_nil _⟩
    · next l r w hget =>
      simp only [followPath_of_internal hget, List.mem_append, ih]
      constructor
      · rintro (⟨q, sym, w', rfl, hlen, hq, ha⟩ | ⟨q, sym, w', rfl, hlen, hq, ha⟩)
        · exact ⟨false :: q, sym, w', (List.append_cons ..).symm, Nat.succ_lt_succ hlen, ⟨_, _, rfl, hq⟩, ha⟩
        · exact ⟨true :: q, sym, w', (List.append_cons ..).symm, Nat.succ_lt_succ hlen, ⟨_, _, rfl, hq⟩, ha⟩
      · rintro ⟨_, sym, w', rfl, hlen, ⟨b, q, rfl, hq⟩, ha⟩
        rw [List.length_cons, Nat.add_lt_add_iff_right] at hlen
        cases b with
        | false => exact .inl ⟨q, sym, w', List.append_cons .., hlen, hq, ha⟩
        | true => exact .inr ⟨q, sym, w', List.append_cons .., hlen, hq, ha⟩
    · next hget => simp [followPath_of_none hget]

/-- The walk starts every path with the one it was given. -/
theorem prefix_of_mem_walkTree {nodes : List HNode} {fuel i : Nat} {path p : List Bool}
    (h : p ∈ (walkTree nodes fuel i path).map Prod.snd) : path <+: p := by
  obtain ⟨⟨a, p'⟩, hmem, rfl⟩ := List.mem_map.mp h
  obtain ⟨q, -, -, rfl, -⟩ := mem_walkTree.mp hmem
  exact List.prefix_append ..

theorem walkTree_paths_nodup (nodes : List HNode) (fuel i : Nat) (path : List Bool) :
    ((walkTree nodes fuel i path).map Prod.snd).Nodup := by
  induction fuel generalizing i path with
  | zero => exact List.nodup_nil
  | succ fuel ih =>
    rw [walkTree]
    split
    · exact List.nodup_singleton _
    · rw [List.map_append]
      refine (ih ..).append (ih ..) fun p hl hr => ?_
      obtain ⟨t, ht⟩ := prefix_of_mem_walkTree hl
      obtain ⟨t', ht'⟩ := prefix_of_mem_walkTree hr
      simpa using ht.trans ht'.symm
    · exact List.nodup_nil

/-- Each leaf of a walk that ends at leaves only takes its share of the whole, and the shares add up to it (R150(e)). -/
theorem walkTree_kraft {nodes : List HNode} {fuel i N : Nat} {path : List Bool} (hw : walkable nodes fuel i = true)
    (hN : path.length + fuel ≤ N + 1) :
    ((walkTree nodes fuel i path).map fun p => 2 ^ (N - p.2.length)).sum = 2 ^ (N - path.length) := by
  induction fuel generalizing i path with
  | zero => cases hw
  | succ fuel ih =>
    rw [walkable] at hw
    rw [walkTree]
    split at hw
    · simp
    · next l r w hget =>
      rw [Bool.and_eq_true] at hw
      obtain ⟨hl, hr⟩ := hw
      have hfuel : 0 < fuel := Nat.pos_of_ne_zero fun h0 => by
        subst h0
        cases hl
      have hsplit : N - path.length = N - (path.length + 1) + 1 := by omega
      have hlen : path.length + 1 + fuel ≤ N + 1 := by omega
      rw [List.map_append, List.sum_append, ih hl (by simpa using hlen), ih hr (by simpa using hlen), hsplit, pow_succ]
      simp [mul_two]
    · cases hw

namespace StrictTree

variable {m : Nat} {nodes : List HNode} (h : StrictTree m nodes)
include h

/-- With a level for each internal node up to `i` and one more, the walk from `i` ends at leaves only. -/
theorem walkable {fuel i : Nat} (hi : i < m + fuel) (hlen : i < nodes.length) :
    walkable nodes (fuel + 1) i = true := by
  induction fuel generalizing i with
  | zero =>
    obtain ⟨sym, w, hget⟩ := h.leaf i hi
    simp only [Machine.walkable, hget]
  | succ fuel ih =>
    rcases Nat.lt_or_ge i m with hlt | hge
    · obtain ⟨sym, w, hget⟩ := h.leaf i hlt
      simp only [Machine.walkable, hget]
    · obtain ⟨l, r, w, hget, hl, hr, -⟩ := h.internal i hge hlen
      rw [Machine.walkable, hget]
      exact Bool.and_eq_true_iff.mpr ⟨ih (by omega) (by omega), ih (by omega) (by omega)⟩

/-- 256 levels are enough for 256 leaves (R8). -/
theorem walkable_root : Machine.walkable nodes walkLevels (nodes.length - 1) = true := by
  have := h.pos
  have := h.le
  have := h.length_eq
  exact h.walkable (fuel := 255) (by omega) (by omega)

theorem treeShaped : treeShaped nodes = true := by rw [Machine.treeShaped, h.walkable_root, Bool.or_true]

end StrictTree

end Sys2Proof.Proofs.StrictTrees
end

section
/-! The codewords of a strict tree (R148, R149), and of the tree of a frequency table (R150). -/

namespace Sys2Proof.Proofs.TreeCodes

open Sys2Proof Sys2Proof.Machine Sys2Proof.Proofs.MergeForest Sys2Proof.Proofs.StrictTrees

/-! ### Looking a codeword up -/

theorem mem_of_find {pairs : List (Nat × List Bool)} {a : Nat} {x : Nat × List Bool}
    (hx : (pairs.reverse.find? fun p => p.1 == a) = some x) : (a, x.2) ∈ pairs := by
  have hkey := List.find?_some hx
  rw [beq_iff_eq] at hkey
  exact hkey ▸ List.mem_reverse.mp (List.mem_of_find?_eq_some hx)

theorem mem_of_lookupCode_ne_nil {pairs : List (Nat × List Bool)} {a : Nat} (h : lookupCode pairs a ≠ []) :
    (a, lookupCode pairs a) ∈ pairs := by
  rw [lookupCode] at h ⊢
  split at h
  · next x hx => exact mem_of_find hx
  · exact absurd rfl h

/-- The only assignment to a symbol is the one found. -/
theorem lookupCode_of_mem {pairs : List (Nat × List Bool)} {a : Nat} {p : List Bool} (hmem : (a, p) ∈ pairs)
    (hone : ∀ q, (a, q) ∈ pairs → q = p) : lookupCode pairs a = p := by
  rw [lookupCode]
  split
  · next x hx => exact hone x.2 (mem_of_find hx)
  · next hx => exact absurd (List.find?_eq_none.mp hx _ (List.mem_reverse.mpr hmem)) (by simp)

theorem mem_codePairs_codesOf {nodes : List HNode} {a : Nat} (h : codesOf nodes a ≠ []) :
    (a, codesOf nodes a) ∈ codePairs nodes := mem_of_lookupCode_ne_nil h

/-! ### The codewords of a strict tree -/

/-- The node sequence has a leaf of the symbol. -/
def HasLeaf (nodes : List HNode) (a : Nat) : Prop :=
  ∃ (i : Nat) (sym : Byte) (w : Nat), nodes[i]? = some (.leaf sym w) ∧ sym.toNat = a

section OfStrictTree

variable {m : Nat} {nodes : List HNode} (h : StrictTree m nodes)
include h

/-- Either one leaf, which gets the codeword "0" (R149), or a tree that is walked (R148). -/
theorem codePairs_cases :
    (m = 1 ∧ ∃ sym w, nodes = [.leaf sym w] ∧ codePairs nodes = [(sym.toNat, [false])]) ∨
      (2 ≤ m ∧ (∃ l r w, nodes[nodes.length - 1]? = some (.internal l r w)) ∧
        codePairs nodes = walkTree nodes walkLevels (nodes.length - 1) []) := by
  have hlen := h.length_eq
  rcases (Nat.eq_or_lt_of_le h.pos).imp_left Eq.symm with rfl | hm
  · obtain ⟨n, rfl⟩ := List.length_eq_one_iff.mp hlen
    obtain ⟨sym, w, hget⟩ := h.leaf 0 Nat.one_pos
    cases hget
    exact .inl ⟨rfl, sym, w, rfl, rfl⟩
  · obtain ⟨l, r, w, hget, -⟩ := h.internal (nodes.length - 1) (by omega) (by omega)
    refine .inr ⟨hm, ⟨l, r, w, hget⟩, ?_⟩
    rw [codePairs, List.getLast?_eq_getElem?, hget]

/-- In a tree of two leaves or more the codewords are the root-to-leaf paths (R148). -/
theorem mem_codePairs (hm : 2 ≤ m) {a : Nat} {p : List Bool} : (a, p) ∈ codePairs nodes ↔
    ∃ sym w, followPath nodes (nodes.length - 1) p = some (.leaf sym w) ∧ sym.toNat = a := by
  rcases codePairs_cases h with ⟨rfl, -⟩ | ⟨-, -, hpairs⟩
  · omega
  · rw [hpairs, mem_walkTree]
    constructor
    · rintro ⟨q, sym, w, rfl, -, hq, ha⟩
      exact ⟨sym, w, hq, ha⟩
    · rintro ⟨sym, w, hp, ha⟩
      have := h.followPath_length hp
      have := h.le
      exact ⟨p, sym, w, rfl, by rw [walkLevels]; omega, hp, ha⟩

theorem codePairs_unique {a : Nat} {p q : List Bool} (hp : (a, p) ∈ codePairs nodes) (hq : (a, q) ∈ codePairs nodes) :
    q = p := by
  rcases codePairs_cases h with ⟨-, sym, w, -, hpairs⟩ | ⟨hm, -⟩
  · rw [hpairs, List.mem_singleton, Prod.mk.injEq] at hp hq
    rw [hp.2, hq.2]
  · obtain ⟨sym, w, hp, ha⟩ := (mem_codePairs h hm).mp hp
    obtain ⟨sym', w', hq, ha'⟩ := (mem_codePairs h hm).mp hq
    obtain rfl := BitVec.eq_of_toNat_eq (ha.trans ha'.symm)
    exact h.followPath_unique hq hp

theorem codePairs_length {a : Nat} {p : List Bool} (hp : (a, p) ∈ codePairs nodes) :
    1 ≤ p.length ∧ p.length ≤ max 1 (m - 1) := by
  rcases codePairs_cases h with ⟨-, sym, w, -, hpairs⟩ | ⟨hm, ⟨l, r, w', hroot⟩, -⟩
  · rw [hpairs, List.mem_singleton, Prod.mk.injEq] at hp
    rw [hp.2]
    exact ⟨le_rfl, le_max_left ..⟩
  · obtain ⟨sym, w, hp, -⟩ := (mem_codePairs h hm).mp hp
    refine ⟨?_, (h.followPath_length hp).trans (le_max_right ..)⟩
    refine List.length_pos_iff.mpr fun hnil => ?_
    subst hnil
    cases hroot.symm.trans hp

theorem mem_codePairs_fst {a : Nat} : a ∈ (codePairs nodes).map Prod.fst ↔ HasLeaf nodes a := by
  rcases codePairs_cases h with ⟨-, sym, w, rfl, hpairs⟩ | ⟨hm, -⟩
  · rw [hpairs, List.map_singleton, List.mem_singleton]
    constructor
    · rintro rfl
      exact ⟨0, sym, w, rfl, rfl⟩
    · rintro ⟨i, sym', w', hget, rfl⟩
      cases List.mem_singleton.mp (List.mem_of_getElem? hget)
      rfl
  · constructor
    · intro hmem
      obtain ⟨⟨_, p⟩, hp, rfl⟩ := List.mem_map.mp hmem
      obtain ⟨sym, w, hp, ha⟩ := (mem_codePairs h hm).mp hp
      obtain ⟨i, -, hget⟩ := followPath_eq_some.mp hp
      exact ⟨i, sym, w, hget, ha⟩
    · rintro ⟨i, sym, w, hget, rfl⟩
      obtain ⟨p, hp⟩ := h.exists_descend (List.getElem?_eq_some_iff.mp hget).1
      exact List.mem_map_of_mem (f := Prod.fst)
        ((mem_codePairs h hm).mpr ⟨sym, w, followPath_eq_some.mpr ⟨i, hp, hget⟩, rfl⟩)

theorem codesOf_of_mem {a : Nat} {p : List Bool} (hp : (a, p) ∈ codePairs nodes) : codesOf nodes a = p :=
  lookupCode_of_mem hp fun _ hq => codePairs_unique h hp hq

theorem codesOf_ne_nil_iff {a : Nat} : codesOf nodes a ≠ [] ↔ HasLeaf nodes a := by
  rw [← mem_codePairs_fst h]
  constructor
  · exact fun hne => List.mem_map_of_mem (f := Prod.fst) (mem_codePairs_codesOf hne)
  · intro hmem
    obtain ⟨⟨_, p⟩, hp, rfl⟩ := List.mem_map.mp hmem
    rw [codesOf_of_mem h hp]
    exact List.length_pos_iff.mp (codePairs_length h hp).1

theorem codesOf_length_le (a : Nat) : (codesOf nodes a).length ≤ max 1 (m - 1) := by
  rcases eq_or_ne (codesOf nodes a) [] with hnil | hne
  · rw [hnil]
    exact Nat.zero_le _
  · exact (codePairs_length h (mem_codePairs_codesOf hne)).2

/-- A codeword leads to its symbol's leaf, where every path ends (R150(b)). -/
theorem prefixFree_codesOf : PrefixFree (codesOf nodes) := by
  intro a _ b _ ha hb hp
  have hpa := mem_codePairs_codesOf ha
  have hpb := mem_codePairs_codesOf hb
  rcases codePairs_cases h with ⟨-, sym, w, -, hpairs⟩ | ⟨hm, -⟩
  · rw [hpairs, List.mem_singleton, Prod.mk.injEq] at hpa hpb
    rw [hpa.1, hpb.1]
  · obtain ⟨sym, w, hpa, rfl⟩ := (mem_codePairs h hm).mp hpa
    obtain ⟨sym', w', hpb, rfl⟩ := (mem_codePairs h hm).mp hpb
    obtain ⟨q, hq⟩ := hp
    rw [← hq] at hpb
    obtain rfl := eq_nil_of_followPath_leaf hpa hpb
    rw [List.append_nil] at hpb
    cases hpa.symm.trans hpb
    rfl

/-- In a tree of two leaves or more a symbol's codeword is the path to its leaf (R148). -/
theorem codesOf_eq_iff (hm : 2 ≤ m) {a : Nat} (ha : a < 256) {p : List Bool} (hp : p ≠ []) : codesOf nodes a = p ↔
    ∃ w, followPath nodes (nodes.length - 1) p = some (.leaf (BitVec.ofNat 8 a) w) := by
  constructor
  · rintro rfl
    obtain ⟨sym, w, hpath, rfl⟩ := (mem_codePairs h hm).mp (mem_codePairs_codesOf hp)
    exact ⟨w, by simpa using hpath⟩
  · rintro ⟨w, hpath⟩
    exact codesOf_of_mem h ((mem_codePairs h hm).mpr ⟨_, w, hpath, Nat.mod_eq_of_lt ha⟩)

theorem codePairs_fst_nodup : ((codePairs nodes).map Prod.fst).Nodup := by
  have hpaths : (codePairs nodes).Nodup := by
    rcases codePairs_cases h with ⟨-, sym, w, -, hpairs⟩ | ⟨-, -, hpairs⟩ <;> rw [hpairs]
    · exact List.nodup_singleton _
    · exact (walkTree_paths_nodup ..).of_map
  refine hpaths.map_on fun x hx y hy hxy => Prod.ext hxy ?_
  exact codePairs_unique h (p := y.2) hy (by rwa [← hxy])

/-- R150(e) by the assignments of `codes`. -/
theorem codePairs_kraft : ((codePairs nodes).map fun p => 2 ^ (255 - p.2.length)).sum =
    if m = 1 then 2 ^ 254 else 2 ^ 255 := by
  rcases codePairs_cases h with ⟨rfl, sym, w, -, hpairs⟩ | ⟨hm, -, hpairs⟩ <;> rw [hpairs]
  · simp
  · rw [walkTree_kraft h.walkable_root (by rw [List.length_nil, walkLevels]), List.length_nil, Nat.sub_zero,
      if_neg (by omega)]

/-- R150(e) by symbols: any list of the leaves' symbols without repetition adds up the same. -/
theorem codesOf_kraft {syms : List Nat} (hnodup : syms.Nodup) (hsyms : ∀ a, a ∈ syms ↔ HasLeaf nodes a) :
    (syms.map fun a => 2 ^ (255 - (codesOf nodes a).length)).sum = if m = 1 then 2 ^ 254 else 2 ^ 255 := by
  have hperm : syms.Perm ((codePairs nodes).map Prod.fst) :=
    (List.perm_ext_iff_of_nodup hnodup (codePairs_fst_nodup h)).mpr fun a =>
      (hsyms a).trans (mem_codePairs_fst h).symm
  rw [(hperm.map _).sum_eq, List.map_map, ← codePairs_kraft h]
  refine congrArg List.sum (List.map_congr_left fun p hp => ?_)
  rw [Function.comp_apply, codesOf_of_mem h (p := p.2) hp]

end OfStrictTree

/-! ### The tree of a frequency table -/

variable {F : Nat → Nat}

theorem leaf_of_treeOf {i : Nat} {sym : Byte} {w : Nat} (hget : (treeOf F)[i]? = some (.leaf sym w)) :
    ∃ hi : i < (alphabet F).length, sym.toNat = (alphabet F)[i] := by
  rcases Nat.lt_or_ge i (alphabet F).length with hi | hge
  · refine ⟨hi, ?_⟩
    cases (treeOf_getElem?_of_lt hi).symm.trans hget
    exact Nat.mod_eq_of_lt (mem_alphabet.mp (List.getElem_mem hi)).1
  · have hlt := (List.getElem?_eq_some_iff.mp hget).1
    have hpos : 1 ≤ alphabetSize F := by rw [treeOf_length] at hlt; omega
    obtain ⟨l, r, hget', -⟩ := (treeOf_forest hpos).internal i (by rwa [leavesOf_length]) hlt
    cases hget'.symm.trans hget

theorem hasLeaf_treeOf_iff {a : Nat} : HasLeaf (treeOf F) a ↔ a ∈ alphabet F := by
  constructor
  · rintro ⟨i, sym, w, hget, rfl⟩
    obtain ⟨hi, heq⟩ := leaf_of_treeOf hget
    exact heq ▸ List.getElem_mem hi
  · intro hmem
    obtain ⟨i, hi, rfl⟩ := List.getElem_of_mem hmem
    exact ⟨i, _, _, treeOf_getElem?_of_lt hi, Nat.mod_eq_of_lt (mem_alphabet.mp hmem).1⟩

/-- R147: the tree of a table with a present symbol is a strict binary tree over its leaves. -/
theorem strictTree_treeOf (h : 1 ≤ alphabetSize F) : StrictTree (alphabetSize F) (treeOf F) where
  pos := h
  le := alphabetSize_le F
  length_eq := treeOf_length F
  leaf i hi := ⟨_, _, treeOf_getElem?_of_lt hi⟩
  internal i hi hlt := by
    obtain ⟨l, r, hget, hlr⟩ := (treeOf_forest h).internal i (by rwa [leavesOf_length]) hlt
    exact ⟨l, r, _, hget, hlr⟩
  parent j hj := by
    have hone := (treeOf_forest h).parent_or_live j
    rw [List.count_singleton, if_neg (by simpa using by omega), if_pos (by omega)] at hone
    exact hone
  sym_inj i j sym w w' hi hj := by
    obtain ⟨hilt, hi⟩ := leaf_of_treeOf hi
    obtain ⟨hjlt, hj⟩ := leaf_of_treeOf hj
    exact ((List.nodup_range.filter _).getElem_inj_iff (hi := hilt) (hj := hjlt)).mp (hi.symm.trans hj)

theorem codesOf_nil (a : Nat) : codesOf [] a = [] := rfl

/-- R150(a), for every natural. -/
theorem codesOf_treeOf_ne_nil_iff {a : Nat} : codesOf (treeOf F) a ≠ [] ↔ a ∈ alphabet F := by
  rcases Nat.eq_zero_or_pos (alphabetSize F) with h0 | h1
  · rw [treeOf_of_alphabetSize_eq_zero h0, List.eq_nil_of_length_eq_zero h0, codesOf_nil]
    simp
  · rw [codesOf_ne_nil_iff (strictTree_treeOf h1), hasLeaf_treeOf_iff]

theorem prefixFree_codesOf_treeOf : PrefixFree (codesOf (treeOf F)) := by
  rcases Nat.eq_zero_or_pos (alphabetSize F) with h0 | h1
  · rw [treeOf_of_alphabetSize_eq_zero h0]
    exact fun a _ _ _ ha => absurd (codesOf_nil a) ha
  · exact prefixFree_codesOf (strictTree_treeOf h1)

theorem codesOf_treeOf_length_le (a : Nat) : (codesOf (treeOf F) a).length ≤ max 1 (alphabetSize F - 1) := by
  rcases Nat.eq_zero_or_pos (alphabetSize F) with h0 | h1
  · rw [treeOf_of_alphabetSize_eq_zero h0, codesOf_nil]
    exact Nat.zero_le _
  · exact codesOf_length_le (strictTree_treeOf h1) a

/-- CWT has room for every codeword (R8, R150(d)). -/
theorem codesOf_treeOf_length_le_255 (a : Nat) : (codesOf (treeOf F) a).length ≤ 255 := by
  have := codesOf_treeOf_length_le (F := F) a
  have := alphabetSize_le F
  omega

theorem countP_pos_eq_alphabetSize (F : Nat → Nat) :
    ((List.range 256).countP fun a => decide (0 < F a)) = alphabetSize F := List.countP_eq_length_filter

/-- Settles O44: the codewords are paths to the leaves of a strict tree. -/
theorem codewordsArePrefixFree : Obligations.CodewordsArePrefixFree := by
  intro F
  have hpresent : ∀ a < 256, codesOf (treeOf F) a ≠ [] ↔ 0 < F a := fun a ha => by
    rw [codesOf_treeOf_ne_nil_iff, mem_alphabet, and_iff_right ha]
  rw [countP_pos_eq_alphabetSize]
  refine ⟨hpresent, prefixFree_codesOf_treeOf, fun a ha b hb hne heq => ?_, fun a ha hpos =>
    ⟨List.length_pos_iff.mpr ((hpresent a ha).mpr hpos), codesOf_treeOf_length_le a, codesOf_treeOf_length_le_255 a⟩⟩
  exact prefixFree_codesOf_treeOf a ha b hb hne (heq ▸ hne) (heq ▸ List.prefix_refl _)

/-- Settles O45: the alphabet lists the symbols of the leaves. -/
theorem kraftSumIsExact : Obligations.KraftSumIsExact := by
  intro F
  have hkraft : 1 ≤ alphabetSize F → ((alphabet F).map fun a => 2 ^ (255 - (codesOf (treeOf F) a).length)).sum =
      if alphabetSize F = 1 then 2 ^ 254 else 2 ^ 255 := fun h =>
    codesOf_kraft (strictTree_treeOf h) (List.nodup_range.filter _) fun _ => hasLeaf_treeOf_iff.symm
  rw [countP_pos_eq_alphabetSize]
  exact ⟨fun h => (hkraft (by omega)).trans (if_neg (by omega)), fun h => (hkraft h.ge).trans (if_pos h)⟩

end Sys2Proof.Proofs.TreeCodes
end

section
/-! NODE as a strict tree (R43) and CWT as a codeword table (R38, R151), and HUF.CODES on the machine. -/

namespace Sys2Proof.Proofs.StoredCodes

open Sys2Proof Sys2Proof.Machine Sys2Proof.Proofs.MergeForest Sys2Proof.Proofs.TreeInvariant
  Sys2Proof.Proofs.ShellCommands Sys2Proof.Proofs.StrictTrees Sys2Proof.Proofs.TreeCodes

/-! ### NODE as a node sequence -/

theorem hnodeOf_of_leaf {n : Node} (h : n.leaf = true) : hnodeOf n = .leaf n.sym n.weight.toNat := if_pos h

theorem hnodeOf_of_internal {n : Node} (h : n.leaf = false) :
    hnodeOf n = .internal n.left.toNat n.right.toNat n.weight.toNat := if_neg (by simp [h])

section Nodes

variable {s : State}

theorem nodesOf_eq (s : State) : nodesOf s = (List.range s.nnodes.toNat).map fun i => hnodeOf (nodeAt s i) :=
  List.map_map

@[simp] theorem nodesOf_length (s : State) : (nodesOf s).length = s.nnodes.toNat := by simp [nodesOf_eq]

theorem nodesOf_getElem? {i : Nat} (h : i < s.nnodes.toNat) : (nodesOf s)[i]? = some (hnodeOf (nodeAt s i)) := by
  simp [nodesOf_eq, h]

@[simp] theorem nodesOf_successFrame (out : List Byte) (n : Nat) (ed sr : Bool) (s : State) :
    nodesOf (successFrame out n ed sr s) = nodesOf s := rfl

theorem childCount_nodesOf (s : State) (j : Nat) : childCount (nodesOf s) j = parentCount s s.nnodes.toNat j := by
  rw [childCount, nodesOf_eq, List.countP_map, parentCount]
  refine List.countP_congr fun i _ => ?_
  cases hleaf : (nodeAt s i).leaf with
  | true => simp [hnodeOf_of_leaf hleaf, hasChild]
  | false => simp [hnodeOf_of_internal hleaf, hasChild]

theorem leavesOk_sym_lt {m : Nat} (h : LeavesOk s m) {i j : Nat} (hij : i < j) (hj : j < m) :
    (nodeAt s i).sym.toNat < (nodeAt s j).sym.toNat := by
  have hsucc : ∀ k, k + 1 < m → (nodeAt s k).sym.toNat < (nodeAt s (k + 1)).sym.toNat := fun k hk => by
    obtain ⟨-, -, -, hrise⟩ := h k (by omega)
    exact hrise hk
  induction j, hij using Nat.le_induction with
  | base => exact hsucc i hj
  | succ j _ ih => exact (ih (by omega)).trans (hsucc j hj)

section Tree

variable {m : Nat} (h : TreeOk s m)
include h

theorem nodesOf_getElem?_of_lt {i : Nat} (hi : i < m) :
    (nodesOf s)[i]? = some (.leaf (nodeAt s i).sym (nodeAt s i).weight.toNat) := by
  obtain ⟨-, -, hn, -, hleaves, -⟩ := h
  rw [nodesOf_getElem? (by omega), hnodeOf_of_leaf (hleaves i hi).1]

theorem nodesOf_getElem?_of_ge {i : Nat} (hi : m ≤ i) (hlt : i < 2 * m - 1) : (nodesOf s)[i]? =
    some (.internal (nodeAt s i).left.toNat (nodeAt s i).right.toNat (nodeAt s i).weight.toNat) := by
  obtain ⟨-, -, hn, -, -, hinternals, -⟩ := h
  rw [nodesOf_getElem? (by omega), hnodeOf_of_internal (hinternals i hlt hi).1]

/-- The leaves of NODE stand before its internal nodes. -/
theorem leaf_of_nodesOf {i w : Nat} {sym : Byte} (hget : (nodesOf s)[i]? = some (.leaf sym w)) :
    i < m ∧ (nodeAt s i).sym = sym := by
  have hlt := (List.getElem?_eq_some_iff.mp hget).1
  have ⟨_, _, hn, _⟩ := h
  rw [nodesOf_length, hn] at hlt
  rcases Nat.lt_or_ge i m with hi | hi
  · rw [nodesOf_getElem?_of_lt h hi, Option.some.injEq, HNode.leaf.injEq] at hget
    exact ⟨hi, hget.1⟩
  · cases (nodesOf_getElem?_of_ge h hi hlt).symm.trans hget

/-- Symbols that rise from leaf to leaf are different ones. -/
theorem leaf_index_unique {i j : Nat} (hi : i < m) (hj : j < m) (hsym : (nodeAt s i).sym = (nodeAt s j).sym) :
    i = j := by
  obtain ⟨-, -, -, -, hleaves, -⟩ := h
  have hsym := congrArg BitVec.toNat hsym
  rcases Nat.lt_trichotomy i j with hlt | heq | hgt
  · exact absurd hsym (leavesOk_sym_lt hleaves hlt hj).ne
  · exact heq
  · exact absurd hsym (leavesOk_sym_lt hleaves hgt hi).ne'

/-- What R43 says of NODE, said of the sequence it holds. -/
theorem strictTree_nodesOf : StrictTree m (nodesOf s) := by
  have ⟨hpos, hle, hn, _, _, hinternals, hparents⟩ := h
  have hlen := (nodesOf_length s).trans hn
  refine ⟨hpos, hle, hlen, fun i hi => ⟨_, _, nodesOf_getElem?_of_lt h hi⟩, fun i hi hlt => ?internal,
    fun j hj => ?parent, fun i j sym w w' hi hj => ?sym_inj⟩
  case internal =>
    rw [hlen] at hlt
    obtain ⟨-, -, hl, hr, hne, -⟩ := hinternals i hlt hi
    exact ⟨_, _, _, nodesOf_getElem?_of_ge h hi hlt, hl, hr, fun he => hne (BitVec.eq_of_toNat_eq he)⟩
  case parent =>
    rw [hlen] at hj
    rw [childCount_nodesOf, hn]
    exact hparents j (by omega)
  case sym_inj =>
    obtain ⟨him, hi⟩ := leaf_of_nodesOf h hi
    obtain ⟨hjm, hj⟩ := leaf_of_nodesOf h hj
    exact leaf_index_unique h him hjm (hi.trans hj.symm)

end Tree

end Nodes

/-- A stored sequence whose fields fit is what NODE gives back (R39, R146). -/
theorem nodesOf_storeTree {nodes : List HNode} (hlen : nodes.length < 2 ^ 32)
    (hfit : ∀ n ∈ nodes, hnodeOf (nodeOf n) = n) (s : State) : nodesOf (storeTree nodes s) = nodes := by
  have hseq := memSeq_memWriteSeq nodeEmpty s.node (nodes.map nodeOf)
  rw [List.length_map] at hseq
  rw [nodesOf, storeTree_nnodes, BitVec.toNat_ofNat, Nat.mod_eq_of_lt hlen, storeTree_node, hseq, List.map_map]
  exact (List.map_congr_left hfit).trans (List.map_id _)

theorem nodesOf_storeTree_treeOf {F : Nat → Nat} (hF : ∀ sym, F sym < 2 ^ 32) (s : State) :
    nodesOf (storeTree (treeOf F) s) = treeOf F := by
  refine nodesOf_storeTree ((treeOf_length_le F).trans_lt (by decide)) (fun n hn => ?_) s
  have hw := treeOf_weight_lt hF hn
  cases n with
  | leaf sym w => exact hnodeOf_nodeOf_leaf sym hw
  | internal l r w =>
    obtain ⟨hl, hr⟩ := treeOf_child_fits hn
    exact hnodeOf_nodeOf_internal hl hr hw

/-! ### Sequences that hold nothing or a tree -/

/-- The node sequence is empty or a strict tree (R43). -/
def NilOrTree (nodes : List HNode) : Prop := nodes = [] ∨ ∃ m, StrictTree m nodes

theorem nilOrTree_treeOf (F : Nat → Nat) : NilOrTree (treeOf F) :=
  (Nat.eq_zero_or_pos (alphabetSize F)).imp treeOf_of_alphabetSize_eq_zero fun h => ⟨_, strictTree_treeOf h⟩

theorem nodesOf_eq_nil {s : State} (h : s.nnodes.toNat = 0) : nodesOf s = [] :=
  List.eq_nil_of_length_eq_zero ((nodesOf_length s).trans h)

theorem nilOrTree_nodesOf {s : State} (h : NodeInvariant s) : NilOrTree (nodesOf s) :=
  h.imp (fun h0 => nodesOf_eq_nil (by rw [h0.1]; rfl)) fun ht => ⟨_, strictTree_nodesOf ht⟩

theorem NilOrTree.treeShaped {nodes : List HNode} (h : NilOrTree nodes) : treeShaped nodes = true := by
  rcases h with rfl | ⟨m, h⟩
  · rfl
  · exact h.treeShaped

/-! ### CWT as a codeword table -/

/-- CWT has room for the table: its codewords are of symbols and have at most 255 bits (R8, R38). -/
structure FitsCwt (T : Nat → List Bool) : Prop where
  length_le : ∀ a, (T a).length ≤ 255
  nil_of_ge : ∀ a, 256 ≤ a → T a = []

theorem NilOrTree.fitsCwt {nodes : List HNode} (h : NilOrTree nodes) : FitsCwt (codesOf nodes) := by
  rcases h with rfl | ⟨m, h⟩
  · exact ⟨fun _ => Nat.zero_le _, fun a _ => codesOf_nil a⟩
  · refine ⟨fun a => ?_, fun a ha => ?_⟩
    · have := codesOf_length_le h a
      have := h.le
      omega
    · by_contra hne
      obtain ⟨i, sym, w, -, rfl⟩ := (codesOf_ne_nil_iff h).mp hne
      exact absurd sym.isLt (by omega)

section Cwt

variable {T : Nat → List Bool}

theorem cwtAt_storeCodes {a : Nat} (ha : a < 256) (T : Nat → List Bool) (s : State) :
    cwtAt (storeCodes T s) a = cwEntryOf (T a) := by
  rw [cwtAt, storeCodes_cwt, cwtMemOf, memRead_memTable, if_pos ha]

/-- CWT gives a stored table back (R38, R151). -/
theorem codeTableOf_storeCodes (hT : FitsCwt T) (s : State) : codeTableOf (storeCodes T s) = T := by
  funext a
  by_cases ha : a < 256
  · rw [codeTableOf, cwtAt_storeCodes ha, codewordOf_cwEntryOf (hT.length_le a)]
  · rw [codeTableOf, cwtAt, storeCodes_cwt, cwtMemOf, memRead_memTable, if_neg ha, hT.nil_of_ge a (by omega)]
    rfl

theorem cwtAt_storeCodes_tail (hT : FitsCwt T) {a i : Nat} (ha : a < 256) (hi : i < 256) {s : State}
    (hlen : (cwtAt (storeCodes T s) a).len.toNat ≤ i) :
    (cwtAt (storeCodes T s) a).code.getLsbD (255 - i) = false := by
  rw [cwtAt_storeCodes ha] at hlen ⊢
  have := hT.length_le a
  refine cwEntryOf_code_tail ?_ hi
  rwa [cwEntryOf, BitVec.toNat_ofNat, Nat.mod_eq_of_lt (by omega)] at hlen

@[simp] theorem codeTableOf_successFrame (out : List Byte) (n : Nat) (ed sr : Bool) (s : State) :
    codeTableOf (successFrame out n ed sr s) = codeTableOf s := rfl

theorem countP_ne_nil_eq_presentCount (T : Nat → List Bool) :
    ((List.range 256).countP fun a => decide (T a ≠ [])) = presentCount T := List.countP_eq_length_filter

/-- The table made from a tree has a codeword for each present symbol (R150(a), R151). -/
theorem presentCount_codesOf_treeOf (F : Nat → Nat) : presentCount (codesOf (treeOf F)) = alphabetSize F := by
  rw [← countP_ne_nil_eq_presentCount, ← countP_pos_eq_alphabetSize]
  refine List.countP_congr fun a ha => ?_
  rw [decide_eq_true_iff, decide_eq_true_iff, codesOf_treeOf_ne_nil_iff, mem_alphabet,
    and_iff_right (List.mem_range.mp ha)]

end Cwt

/-! ### HUF.CODES -/

theorem exec_hufCodes {s : State} (h : NilOrTree (nodesOf s)) : exec .hufCodes s =
    .next (successFrame [] (presentCount (codesOf (nodesOf s))) false false (storeCodes (codesOf (nodesOf s)) s)) := by
  rw [exec, execHufCodes, h.treeShaped]
  exact finish_nil s ..

theorem codesOf_singleton (sym : Byte) (w a : Nat) :
    codesOf [.leaf sym w] a = if a = sym.toNat then [false] else [] := by
  by_cases h : a = sym.toNat
  · simp [codesOf, codePairs, lookupCode, h]
  · simp [codesOf, codePairs, lookupCode, h, Ne.symm h]

/-- A tree of one node is a leaf (R145). -/
theorem nodesOf_of_one {s : State} (h : NodeInvariant s) (h1 : s.nnodes.toNat = 1) :
    nodesOf s = [.leaf (nodeAt s 0).sym (nodeAt s 0).weight.toNat] := by
  rcases h with ⟨h0, -⟩ | ⟨hpos, -, hn, -, hleaves, -⟩
  · rw [h0] at h1
    cases h1
  · rw [nodesOf_eq, h1, List.range_one, List.map_singleton, hnodeOf_of_leaf (hleaves 0 hpos).1]

/-- A tree of more nodes than one has two leaves or more, and `ROOT` is the index of its last node (R32, R43). -/
theorem strictTree_of_nodeInvariant {s : State} (h : NodeInvariant s) (hgt : 1 < s.nnodes.toNat) :
    ∃ m, 2 ≤ m ∧ StrictTree m (nodesOf s) ∧ s.root.toNat = (nodesOf s).length - 1 := by
  rcases h with ⟨h0, -⟩ | ht
  · rw [h0] at hgt
    cases hgt
  · have hs := strictTree_nodesOf ht
    obtain ⟨-, -, hn, hroot, -⟩ := ht
    refine ⟨_, by omega, hs, ?_⟩
    rw [hroot, nodesOf_length, hn]
    omega

/-- Settles O23: NODE holds nothing, a leaf, or a larger tree, and CWT gives the codewords of it back. -/
theorem codesAreRootToLeafPaths : Obligations.CodesAreRootToLeafPaths := by
  intro s h
  have hT := (nilOrTree_nodesOf h).fitsCwt
  refine ⟨_, exec_hufCodes (nilOrTree_nodesOf h), ?frame, ?_⟩
  case frame =>
    rw [codeTableOf_successFrame, codeTableOf_storeCodes hT, countP_ne_nil_eq_presentCount, successFrame_nil]
    rfl
  rw [codeTableOf_successFrame, codeTableOf_storeCodes hT]
  refine ⟨fun h0 a _ => ?empty, fun h1 a _ => ?one, fun hgt a ha path hpath => ?paths, fun a ha i hi hlen =>
    cwtAt_storeCodes_tail (s := s) hT ha hi hlen⟩
  case empty => rw [nodesOf_eq_nil h0, codesOf_nil]
  case one =>
    rw [nodesOf_of_one h h1, codesOf_singleton]
  case paths =>
    obtain ⟨m, hm, ht, hroot⟩ := strictTree_of_nodeInvariant h hgt
    rw [hroot, codesOf_eq_iff ht hm ha hpath]

end Sys2Proof.Proofs.StoredCodes
end

section
/-! HUF.ENC (R153) and HUF.DEC (R156) on the machine, HUF.ENC as its three stages, and the round trip (R158). -/

namespace Sys2Proof.Proofs.HuffmanCommands

open Sys2Proof Sys2Proof.Machine Sys2Proof.Proofs.MergeForest Sys2Proof.Proofs.TreeInvariant
  Sys2Proof.Proofs.StatusRules Sys2Proof.Proofs.CommandFrames Sys2Proof.Proofs.ShellCommands
  Sys2Proof.Proofs.PackCommands Sys2Proof.Proofs.FrequencyTables Sys2Proof.Proofs.Decoding
  Sys2Proof.Proofs.TreeCodes Sys2Proof.Proofs.StoredCodes

/-! ### HUF.ENC -/

/-- The table HUF.ENC makes of its input (R153). -/
def inputCodes (s : State) : Nat → List Bool := codesOf (treeOf (freqOf (symsOf s)))

/-- The input serialized through it (R152, R153). -/
def encodedBits (s : State) : List Bool := serialize (inputCodes s) (symsOf s)

/-- The elements of bits, one by one (R15). -/
theorem map_bitElem_getD {b : List Bool} {i : Nat} (h : i < b.length) :
    (b.map bitElem).getD i 0 = bitElem (bitAt b i) := by
  simp [bitAt, h]

section Enc

variable {s : State}

theorem inputCodes_fitsCwt (s : State) : FitsCwt (inputCodes s) := (nilOrTree_treeOf _).fitsCwt

/-- Every symbol of the input is present in its table (R153). -/
theorem inputCodes_ne_nil {e : Byte} (he : e ∈ symsOf s) : inputCodes s e.toNat ≠ [] :=
  codesOf_treeOf_ne_nil_iff.mpr (mem_alphabet.mpr ⟨e.isLt, freqOf_pos_iff.mpr ⟨e, he, rfl⟩⟩)

theorem decodeBits_encodedBits (s : State) : decodeBits (inputCodes s) (encodedBits s) = .ok (symsOf s) :=
  decodeBits_serialize prefixFree_codesOf_treeOf fun _ => inputCodes_ne_nil

theorem exec_hufEnc (h : s.ilen.toNat ≤ s.cfg.ibufCap) : exec .hufEnc s =
    finish s (ownWrites .hufEnc s) ((encodedBits s).map bitElem) (alphabetSize (freqOf (symsOf s))) false false := by
  rw [exec, execHufEnc, inputTooLong_eq_false h]
  rfl

/-- HUF.ENC completes when the serialization fits OBUF (R153). -/
theorem exec_hufEnc_of_fits (hin : s.ilen.toNat ≤ s.cfg.ibufCap) (hout : (encodedBits s).length ≤ s.cfg.obufCap) :
    exec .hufEnc s = .next (successFrame ((encodedBits s).map bitElem) (alphabetSize (freqOf (symsOf s))) false false
      (ownWrites .hufEnc s)) := by
  rw [exec_hufEnc hin, finish_of_fits (by rwa [List.length_map])]

theorem freqTableOf_ownWrites_hufEnc (s : State) : freqTableOf (ownWrites .hufEnc s) = freqOf (symsOf s) :=
  freqTableOf_storeFreq_freqOf s s

theorem codeTableOf_ownWrites_hufEnc (s : State) : codeTableOf (ownWrites .hufEnc s) = inputCodes s :=
  codeTableOf_storeCodes (inputCodes_fitsCwt s) _

/-- A HUF.ENC without an error has completed, and its output fitted (R113, R153). -/
theorem hufEnc_completed {t : State} (hin : s.ilen.toNat ≤ s.cfg.ibufCap) (h : exec .hufEnc s = .next t)
    (hok : statusErr t.status = 0) : (encodedBits s).length ≤ s.cfg.obufCap ∧
      t = successFrame ((encodedBits s).map bitElem) (alphabetSize (freqOf (symsOf s))) false false
        (ownWrites .hufEnc s) := by
  rw [exec_hufEnc hin] at h
  rcases finish_cases h with rfl | ⟨hout, rfl⟩
  · rw [failFrame_status, statusErr_statusWord] at hok
    cases hok
  · exact ⟨by rwa [List.length_map] at hout, rfl⟩

theorem obufAt_encoded {n i : Nat} {t : State} (hi : i < (encodedBits s).length) :
    obufAt (successFrame ((encodedBits s).map bitElem) n false false t) i = bitElem (bitAt (encodedBits s) i) := by
  rw [obufAt_successFrame_of_lt (by rwa [List.length_map]), map_bitElem_getD hi]

end Enc

/-- Settles O24: the output elements are read one by one, and the alphabet is read off FREQ. -/
theorem huffmanEncodeCompletes : Obligations.HuffmanEncodeCompletes := by
  refine fun s => ⟨fun h => exec_of_inputTooLong (by decide) (inputTooLong_eq_true h), fun hin hcap => ?capacity,
    fun hin hout => ⟨_, exec_hufEnc_of_fits hin hout, ?frame, fun i => obufAt_encoded, fun i hi => ?above⟩⟩
  case capacity =>
    rw [exec_hufEnc hin, finish_of_overflow (by rwa [List.length_map])]
    rfl
  case frame =>
    rw [countP_freqAt_ne_zero, freqTableOf_successFrame, freqTableOf_ownWrites_hufEnc, successFrame_eq,
      List.length_map]
    rfl
  case above => exact obufAt_successFrame_of_ge (by rwa [List.length_map])

/-! ### The three stages of HUF.ENC -/

/-- What HUF.FREQ leaves (R142). -/
def afterFreq (s : State) : State :=
  successFrame [] (alphabetSize (freqOf (symsOf s))) false false (storeFreq (freqOf (symsOf s)) s)

/-- What HUF.TREE leaves after it (R146). -/
def afterTree (s : State) : State :=
  successFrame [] (alphabetSize (freqOf (symsOf s))) false false
    (storeTree (treeOf (freqOf (symsOf s))) (afterFreq s))

/-- What HUF.CODES leaves after both (R151). -/
def afterCodes (s : State) : State :=
  successFrame [] (alphabetSize (freqOf (symsOf s))) false false (storeCodes (inputCodes s) (afterTree s))

/-- HUF.TREE finds the counts in FREQ. -/
theorem exec_hufTree_stage (s : State) : exec .hufTree (afterFreq s) = .next (afterTree s) := by
  have hF : freqTableOf (afterFreq s) = freqOf (symsOf s) := by
    rw [afterFreq, freqTableOf_successFrame, freqTableOf_storeFreq_freqOf]
  rw [exec_hufTree, hF, afterTree]

/-- HUF.CODES finds the tree in NODE, and as many codewords in it as there are symbols (R150(a)). -/
theorem exec_hufCodes_stage (s : State) : exec .hufCodes (afterTree s) = .next (afterCodes s) := by
  have hN : nodesOf (afterTree s) = treeOf (freqOf (symsOf s)) := by
    rw [afterTree, nodesOf_successFrame, nodesOf_storeTree_treeOf (freqOf_symsOf_lt s)]
  rw [exec_hufCodes (hN ▸ nilOrTree_treeOf _), hN, presentCount_codesOf_treeOf, afterCodes, inputCodes]

theorem codeTableOf_afterCodes (s : State) : codeTableOf (afterCodes s) = inputCodes s := by
  rw [afterCodes, codeTableOf_successFrame, codeTableOf_storeCodes (inputCodes_fitsCwt s)]

/-- Settles O25: each stage finds what the one before it stored, and HUF.ENC stores the same. -/
theorem huffmanEncodeIsTheThreeStages : Obligations.HuffmanEncodeIsTheThreeStages := by
  intro s t hin h hok
  obtain ⟨-, rfl⟩ := hufEnc_completed hin h hok
  refine ⟨_, _, _, exec_hufFreq_of_fits hin, exec_hufTree_stage s, exec_hufCodes_stage s, rfl, rfl, rfl, rfl, rfl, rfl,
    ?_⟩
  rw [codeTableOf_afterCodes, successFrame_olen, List.length_map]
  exact ⟨rfl, fun i => obufAt_encoded⟩

/-! ### HUF.DEC -/

section Dec

variable {s : State}

theorem exec_hufDec_of_error {sub : BitVec 2} (hin : s.ilen.toNat ≤ s.cfg.ibufCap)
    (h : decodeBits (codeTableOf s) (bitsOf s) = .error sub) :
    exec .hufDec s = .next (failFrame .unknownSymbol sub s) := by
  simp only [exec, execHufDec, inputTooLong_eq_false hin, h, failWith_eq, Bool.false_eq_true, if_false]

theorem exec_hufDec_of_ok {y : List Byte} (hin : s.ilen.toNat ≤ s.cfg.ibufCap)
    (h : decodeBits (codeTableOf s) (bitsOf s) = .ok y) : exec .hufDec s = finish s s y 0 false false := by
  simp only [exec, execHufDec, inputTooLong_eq_false hin, h, Bool.false_eq_true, if_false]

end Dec

/-- Settles O26: HUF.DEC by what `decode` answers. -/
theorem huffmanDecodeCompletes : Obligations.HuffmanDecodeCompletes := by
  refine fun s => ⟨fun h => exec_of_inputTooLong (by decide) (inputTooLong_eq_true h), exec_hufDec_of_error,
    exec_hufDec_of_error, fun y hin h => ?ok⟩
  case ok =>
    rw [exec_hufDec_of_ok hin h]
    refine ⟨fun hcap => finish_of_overflow hcap .., fun hout => ⟨_, finish_of_fits hout .., successFrame_eq y 0 s, ?_,
      fun i => obufAt_successFrame_of_lt, fun i => obufAt_successFrame_of_ge⟩⟩
    rw [← bitsOf_length]
    exact length_le_of_decodeBits_ok h

/-! ### The round trip -/

theorem codeTableOf_congr {s t : State} (h : t.cwt = s.cwt) : codeTableOf t = codeTableOf s := by
  funext a
  rw [codeTableOf, cwtAt, h, codeTableOf, cwtAt]

/-- HUF.DEC leaves what `decode` gives as its output (R156). -/
theorem exec_hufDec_leaves {s : State} {y : List Byte} (hin : s.ilen.toNat ≤ s.cfg.ibufCap)
    (h : decodeBits (codeTableOf s) (bitsOf s) = .ok y) (hout : y.length ≤ s.cfg.obufCap) :
    ∃ t, exec .hufDec s = .next t ∧ t.status = 0 ∧ outputOf t = y := by
  refine ⟨_, (exec_hufDec_of_ok hin h).trans (finish_of_fits hout ..), rfl, outputOf_successFrame ?_⟩
  have := length_le_of_decodeBits_ok h
  rw [bitsOf_length] at this
  omega

/-- Settles O47: the bits travel through OBUF and IBUF, and CWT stays as HUF.ENC left it. -/
theorem huffmanRoundTripOnTheMachine : Obligations.HuffmanRoundTripOnTheMachine := by
  intro s t₁ hwf hin hout henc hok hmovfits
  obtain ⟨hbits, rfl⟩ := hufEnc_completed hin henc hok
  obtain ⟨t₂, hmov, hsyms₂, -, hcfg₂ : t₂.cfg = s.cfg⟩ := exec_sysMov_leaves hmovfits
  have hbits₂ : bitsOf t₂ = encodedBits s := by
    have := obufCap_lt_of_wf hwf
    rw [bitsOf, hsyms₂, outputOf_successFrame (by rw [List.length_map]; omega), List.map_map]
    exact (List.map_congr_left fun b _ => bitOf_bitElem b).trans (List.map_id _)
  have hcwt₂ : codeTableOf t₂ = inputCodes s := by
    obtain ⟨-, -, -, -, -, hcwt, -⟩ := commandsWriteOnlyTheirSpaces _ _ _ hmov
    rw [codeTableOf_congr (hcwt (by decide) (by decide)), codeTableOf_successFrame, codeTableOf_ownWrites_hufEnc]
  have hilen₂ : t₂.ilen.toNat ≤ t₂.cfg.ibufCap := by
    rwa [← symsOf_length, hsyms₂, outputOf_length, hcfg₂]
  obtain ⟨t₃, hdec, hstatus, hout₃⟩ := exec_hufDec_leaves (y := symsOf s) hilen₂
    (by rw [hcwt₂, hbits₂, decodeBits_encodedBits]) (by rwa [symsOf_length, hcfg₂])
  exact ⟨t₂, t₃, hmov, hdec, hstatus, hout₃⟩

end Sys2Proof.Proofs.HuffmanCommands
end

section
/-! The parity count of R190, HAM.CALCR (R192), and the positions of a block (R191). -/

namespace Sys2Proof.Proofs.BlockPositions

open Sys2Proof Sys2Proof.Machine Sys2Proof.Proofs.ShellCommands

/-! ### The parity count -/

/-- The search stops at the least solution of R190 when there is one within its fuel and none before its start. -/
theorem calcRFrom_least {k fuel r : Nat} (hend : k + (r + fuel) + 1 ≤ 2 ^ (r + fuel))
    (hbefore : ∀ q < r, 2 ^ q < k + q + 1) :
    k + calcRFrom k fuel r + 1 ≤ 2 ^ calcRFrom k fuel r ∧ ∀ q < calcRFrom k fuel r, 2 ^ q < k + q + 1 := by
  induction fuel generalizing r with
  | zero => exact ⟨hend, hbefore⟩
  | succ fuel ih =>
    rw [calcRFrom]
    split
    · next hlt =>
      refine ih (by rwa [Nat.add_right_comm r 1 fuel, Nat.add_assoc r fuel 1]) fun q hq => ?_
      rcases Nat.lt_succ_iff_lt_or_eq.mp hq with hq | rfl
      · exact hbefore q hq
      · exact hlt
    · next hge => exact ⟨by omega, hbefore⟩

/-- `k + 1` is large enough, so the search has fuel enough. -/
theorem calcR_least (k : Nat) : k + calcR k + 1 ≤ 2 ^ calcR k ∧ ∀ q < calcR k, 2 ^ q < k + q + 1 := by
  refine calcRFrom_least ?_ fun q hq => absurd hq (Nat.not_lt_zero q)
  have := k.lt_two_pow_self
  rw [Nat.zero_add, pow_succ]
  omega

theorem calcR_le {k r : Nat} (h : k + r + 1 ≤ 2 ^ r) : calcR k ≤ r := by
  by_contra hlt
  have := (calcR_least k).2 r (by omega)
  omega

/-- A register's value needs at most 33 parities. -/
theorem calcR_word_le (w : Word) : calcR w.toNat ≤ 33 := by
  have := w.isLt
  exact calcR_le (by omega)

/-- Settles O28: HAM.CALCR has no output, and 32 bits hold its result. -/
theorem calcrGivesTheLeastParityCount : Obligations.CalcrGivesTheLeastParityCount := by
  refine ⟨calcR_least, fun s => ⟨_, finish_nil s s _ false false, rfl, ?_⟩⟩
  have := calcR_word_le s.arg
  rw [successFrame_res, BitVec.toNat_ofNat, Nat.mod_eq_of_lt (by omega)]

section Positive

variable {k : Nat} (hk : 1 ≤ k)
include hk

theorem two_le_calcR : 2 ≤ calcR k := by
  have hspec := (calcR_least k).1
  by_contra hlt
  obtain hr | hr : calcR k = 0 ∨ calcR k = 1 := by omega
  all_goals
    rw [hr] at hspec
    omega

theorem two_pow_calcR_sub_one_lt : 2 ^ (calcR k - 1) < k + calcR k := by
  have := two_le_calcR hk
  have := (calcR_least k).2 (calcR k - 1) (by omega)
  omega

/-- Every reserved position lies inside the block (R191). -/
theorem two_pow_lt_blockLen {i : Nat} (hi : i < calcR k) : 2 ^ i < blockLen k :=
  (Nat.pow_le_pow_right (by decide) (by omega)).trans_lt (two_pow_calcR_sub_one_lt hk)

end Positive

variable {k i p : Nat}

theorem blockLen_lt_two_pow (k : Nat) : blockLen k < 2 ^ calcR k := (calcR_least k).1

theorem blockLen_pos (hk : 1 ≤ k) : 0 < blockLen k := Nat.add_pos_left hk _

/-! ### The positions -/

theorem positions_pairwise_lt (k : Nat) : (positions k).Pairwise (· < ·) :=
  List.pairwise_map.mpr (List.pairwise_lt_range.imp fun h => by omega)

theorem positions_nodup (k : Nat) : (positions k).Nodup := (positions_pairwise_lt k).imp fun h => h.ne

theorem mem_parPos : p ∈ parPos k ↔ ∃ i < calcR k, 2 ^ i = p := by simp [parPos]

@[simp] theorem parPos_length (k : Nat) : (parPos k).length = calcR k := by simp [parPos]

theorem parPos_nodup (k : Nat) : (parPos k).Nodup :=
  List.nodup_range.map (Nat.pow_right_injective le_rfl)

theorem parPos_subset_positions (hk : 1 ≤ k) (hp : p ∈ parPos k) : p ∈ positions k := by
  obtain ⟨i, hi, rfl⟩ := mem_parPos.mp hp
  exact mem_positions.mpr ⟨Nat.one_le_two_pow, (two_pow_lt_blockLen hk hi).le⟩

theorem mem_dataPos : p ∈ dataPos k ↔ p ∈ positions k ∧ p ∉ parPos k := by simp [dataPos]

theorem dataPos_pairwise_lt (k : Nat) : (dataPos k).Pairwise (· < ·) := (positions_pairwise_lt k).filter _

theorem dataPos_nodup (k : Nat) : (dataPos k).Nodup := (positions_nodup k).filter _

/-- The reserved positions are `r` of the `n = k + r`. -/
theorem dataPos_length (hk : 1 ≤ k) : (dataPos k).length = k := by
  have hres : ((positions k).filter fun p => decide (p ∈ parPos k)).Perm (parPos k) := by
    refine (List.perm_ext_iff_of_nodup ((positions_nodup k).filter _) (parPos_nodup k)).mpr fun p => ?_
    simpa using parPos_subset_positions hk
  have hsplit := List.length_eq_length_filter_add (l := positions k) fun p => decide (p ∈ parPos k)
  rw [hres.length_eq, parPos_length, positions_length, blockLen] at hsplit
  simp only [dataPos, decide_not]
  omega

/-- No power of two in the block is left out of the reserved positions. -/
theorem mem_dataPos_iff : p ∈ dataPos k ↔ 1 ≤ p ∧ p ≤ blockLen k ∧ ∀ i, p ≠ 2 ^ i := by
  rw [mem_dataPos, mem_positions, and_assoc]
  refine and_congr_right fun _ => and_congr_right fun hle => ?_
  rw [mem_parPos]
  constructor
  · rintro hnot i rfl
    exact hnot ⟨i, (Nat.pow_lt_pow_iff_right (by decide)).mp (hle.trans_lt (blockLen_lt_two_pow k)), rfl⟩
  · rintro hnot ⟨i, -, rfl⟩
    exact hnot i rfl

/-! ### The check groups -/

theorem mem_checkGroup : p ∈ checkGroup k i ↔ p ∈ positions k ∧ p.testBit i = true := by simp [checkGroup]

theorem checkGroup_nodup (k i : Nat) : (checkGroup k i).Nodup := (positions_nodup k).filter _

/-- A reserved position lies in its own group only. -/
theorem two_pow_mem_checkGroup (hk : 1 ≤ k) (hi : i < calcR k) {j : Nat} : 2 ^ i ∈ checkGroup k j ↔ j = i := by
  have hpos := parPos_subset_positions hk (mem_parPos.mpr ⟨i, hi, rfl⟩)
  rw [mem_checkGroup, and_iff_right hpos, Nat.testBit_two_pow, decide_eq_true_iff, eq_comm]

/-- Settles O48, fact by fact. -/
theorem blockPositionsFacts : Obligations.BlockPositionsFacts := fun k hk =>
  ⟨two_le_calcR hk, two_pow_calcR_sub_one_lt hk, blockLen_lt_two_pow k, rfl, dataPos_length hk, dataPos_pairwise_lt k,
    fun _ => mem_dataPos_iff, fun _ _ => by rw [mem_checkGroup, mem_positions, and_assoc]; rfl,
    fun _ hi _ => two_pow_mem_checkGroup hk hi⟩

end Sys2Proof.Proofs.BlockPositions
end

section
/-! The block code: even parity of every check group (R193, R194), the syndrome of a damaged block (R196, R199), and
what `decodeBlock` makes of it (R197). -/

namespace Sys2Proof.Proofs.BlockCode

open Sys2Proof Sys2Proof.Machine Sys2Proof.Proofs.BlockPositions

/-! ### Exclusive-or over a list -/

section XorOver

variable {α : Type}

/-- `XOR{ f a : a in l }`; `checkXor` is it over a check group (`checkXor_eq`). -/
def xorOver (l : List α) (f : α → Bool) : Bool := l.foldl (fun acc a => acc ^^ f a) false

variable {l l' : List α} {f g : α → Bool}

@[simp] theorem xorOver_nil : xorOver [] f = false := rfl

@[simp] theorem xorOver_cons (a : α) : xorOver (a :: l) f = (f a ^^ xorOver l f) := by
  have h : ∀ x b, (f a ^^ x ^^ f b) = (f a ^^ (x ^^ f b)) := fun x b => Bool.xor_assoc ..
  simpa [xorOver] using List.foldl_hom (l := l) (init := false) (f a ^^ ·) h

theorem xorOver_congr (h : ∀ a ∈ l, f a = g a) : xorOver l f = xorOver l g := by
  induction l with
  | nil => rfl
  | cons a l ih =>
    rw [xorOver_cons, xorOver_cons, h a (by simp), ih fun b hb => h b (by simp [hb])]

theorem xorOver_xor (l : List α) (f g : α → Bool) :
    xorOver l (fun a => f a ^^ g a) = (xorOver l f ^^ xorOver l g) := by
  induction l with
  | nil => rfl
  | cons a l ih => simp only [xorOver_cons, ih, Bool.xor_assoc, Bool.xor_left_comm]

theorem xorOver_filter (l : List α) (p f : α → Bool) : xorOver (l.filter p) f = xorOver l fun a => p a && f a := by
  induction l with
  | nil => rfl
  | cons a l ih => cases hp : p a <;> simp [hp, ih]

theorem xorOver_perm (h : l.Perm l') : xorOver l f = xorOver l' f :=
  haveI : RightCommutative fun acc a => acc ^^ f a := ⟨fun _ _ _ => Bool.xor_right_comm ..⟩
  h.foldl_eq false

/-- Only the members of a sublist count, when `f` is masked with it. -/
theorem xorOver_mem [DecidableEq α] (hl : l.Nodup) (hl' : l'.Nodup) (hsub : ∀ a ∈ l', a ∈ l) (f : α → Bool) :
    xorOver l (fun a => decide (a ∈ l') && f a) = xorOver l' f := by
  rw [← xorOver_filter]
  refine xorOver_perm ((List.perm_ext_iff_of_nodup (hl.filter _) hl').mpr fun a => ?_)
  simpa using hsub a

end XorOver

section

variable {k i p : Nat} {d c : List Bool} {E : List Nat}

/-! ### Positions of a block written as a list -/

theorem posBit_map_positions {f : Nat → Bool} (hp : p ∈ positions k) : posBit ((positions k).map f) p = f p := by
  obtain ⟨h1, hn⟩ := mem_positions.mp hp
  simp [posBit, bitAt, positions, show p - 1 < blockLen k by omega, show p - 1 + 1 = p by omega]

theorem posBit_encodeBlock (hp : p ∈ positions k) : posBit (encodeBlock k d) p = encodedBit k d p :=
  posBit_map_positions hp

theorem flipPositions_length (c : List Bool) (E : List Nat) : (flipPositions c E).length = c.length := by
  simp [flipPositions]

@[simp] theorem flipPositions_nil (c : List Bool) : flipPositions c [] = c := by
  apply List.ext_getElem (flipPositions_length c [])
  intro t ht ht'
  simp [flipPositions, bitAt, ht']

theorem posBit_flipPositions (hc : c.length = blockLen k) (hp : p ∈ positions k) :
    posBit (flipPositions c E) p = (posBit c p ^^ decide (p ∈ E)) := by
  obtain ⟨h1, hn⟩ := mem_positions.mp hp
  simp [posBit, bitAt, flipPositions, hc, show p - 1 < blockLen k by omega, show p - 1 + 1 = p by omega]

/-! ### The layout of the data, and the parities -/

theorem dataLayout_getElem {j : Nat} (hj : j < (dataPos k).length) : dataLayout k d (dataPos k)[j] = bitAt d j := by
  have hidx : (dataPos k).idxOf? (dataPos k)[j] = some j :=
    List.idxOf?_eq_some_iff.mpr ⟨hj, rfl, fun i hij heq => hij.ne ((dataPos_nodup k).getElem_inj_iff.mp heq)⟩
  rw [dataLayout, hidx]

theorem dataLayout_of_mem_parPos (hp : p ∈ parPos k) : dataLayout k d p = false := by
  have hidx : (dataPos k).idxOf? p = none := List.idxOf?_eq_none_iff.mpr fun h => (mem_dataPos.mp h).2 hp
  rw [dataLayout, hidx]

theorem encodedBit_of_notMem_parPos (hp : p ∉ parPos k) : encodedBit k d p = dataLayout k d p := by
  rw [encodedBit, List.idxOf?_eq_none_iff.mpr hp]

theorem encodedBit_two_pow (hi : i < calcR k) : encodedBit k d (2 ^ i) = checkXor k i (dataLayout k d) := by
  have hidx : (parPos k).idxOf? (2 ^ i) = some i :=
    List.idxOf?_eq_some_iff.mpr ⟨by simpa using hi, by simp [parPos],
      fun j hj heq => hj.ne (Nat.pow_right_injective le_rfl (by simpa [parPos] using heq))⟩
  rw [encodedBit, hidx]

/-- The data can be read back at the data positions, in order (R193). -/
theorem map_encodedBit_dataPos (hk : 1 ≤ k) (hd : d.length = k) : (dataPos k).map (encodedBit k d) = d := by
  apply List.ext_getElem (by rw [List.length_map, dataPos_length hk, hd])
  intro j hj hj'
  rw [List.length_map] at hj
  rw [List.getElem_map, encodedBit_of_notMem_parPos (mem_dataPos.mp (List.getElem_mem hj)).2, dataLayout_getElem hj,
    bitAt, List.getD_eq_getElem _ _ hj']

/-! ### Parity of a check group -/

theorem checkXor_eq (k i : Nat) (c : Nat → Bool) : checkXor k i c = xorOver (checkGroup k i) c := rfl

/-- Within group `i` the encoded block differs from the data layout at the parity position only. -/
theorem encodedBit_of_mem_checkGroup (hk : 1 ≤ k) (hi : i < calcR k) (hp : p ∈ checkGroup k i) :
    encodedBit k d p = (dataLayout k d p ^^ (decide (p ∈ [2 ^ i]) && checkXor k i (dataLayout k d))) := by
  by_cases hres : p ∈ parPos k
  · obtain ⟨j, hj, rfl⟩ := mem_parPos.mp hres
    obtain rfl := (two_pow_mem_checkGroup hk hj).mp hp
    simp [encodedBit_two_pow hi, dataLayout_of_mem_parPos hres]
  · have hne : p ≠ 2 ^ i := fun h => hres (mem_parPos.mpr ⟨i, hi, h.symm⟩)
    simp [encodedBit_of_notMem_parPos hres, hne]

/-- Even parity over each check group, the parity bit included (R194). -/
theorem checkXor_encodeBlock (hk : 1 ≤ k) (hi : i < calcR k) : checkXor k i (posBit (encodeBlock k d)) = false := by
  have hpar : ∀ q ∈ [2 ^ i], q ∈ checkGroup k i := fun q hq =>
    List.mem_singleton.mp hq ▸ (two_pow_mem_checkGroup hk hi).mpr rfl
  have hbit : ∀ p ∈ checkGroup k i, posBit (encodeBlock k d) p =
      (dataLayout k d p ^^ (decide (p ∈ [2 ^ i]) && checkXor k i (dataLayout k d))) := fun p hp =>
    (posBit_encodeBlock (mem_checkGroup.mp hp).1).trans (encodedBit_of_mem_checkGroup hk hi hp)
  rw [checkXor_eq, xorOver_congr hbit, xorOver_xor, xorOver_mem (checkGroup_nodup k i) (List.nodup_singleton _) hpar,
    ← checkXor_eq, xorOver_cons, xorOver_nil, Bool.xor_false, Bool.xor_self]

/-- A flip changes the parity of the groups its position lies in. -/
theorem checkXor_flipPositions (hc : c.length = blockLen k) (hE : E.Nodup) (hpos : ∀ p ∈ E, p ∈ positions k) :
    checkXor k i (posBit (flipPositions c E)) = (checkXor k i (posBit c) ^^ xorOver E (·.testBit i)) := by
  have hflips : xorOver (checkGroup k i) (fun p => decide (p ∈ E)) = xorOver E (·.testBit i) := by
    rw [checkGroup, xorOver_filter, ← xorOver_mem (positions_nodup k) hE hpos]
    exact xorOver_congr fun p _ => Bool.and_comm ..
  rw [checkXor_eq, xorOver_congr fun p hp => posBit_flipPositions hc (mem_checkGroup.mp hp).1, xorOver_xor, hflips,
    checkXor_eq]

/-! ### The syndrome -/

/-- The number whose binary digit `j` is `f j`, for `j < r`; the syndrome is one (R196). -/
def sumBits (f : Nat → Bool) (r : Nat) : Nat := ((List.range r).map fun j => (f j).toNat * 2 ^ j).sum

theorem syndrome_eq_sumBits (k : Nat) (c : List Bool) :
    syndrome k c = sumBits (fun i => checkXor k i (posBit c)) (calcR k) := rfl

theorem sumBits_succ (f : Nat → Bool) (r : Nat) : sumBits f (r + 1) = 2 ^ r * (f r).toNat + sumBits f r := by
  rw [sumBits, List.range_succ, List.map_append, List.sum_append, List.map_singleton, List.sum_singleton, Nat.add_comm,
    Nat.mul_comm, sumBits]

theorem sumBits_lt (f : Nat → Bool) (r : Nat) : sumBits f r < 2 ^ r := by
  induction r with
  | zero => exact Nat.one_pos
  | succ r ih =>
    rw [sumBits_succ, pow_succ]
    cases f r <;> simp only [Bool.toNat_false, Bool.toNat_true] <;> omega

theorem testBit_sumBits (f : Nat → Bool) (r i : Nat) : (sumBits f r).testBit i = (decide (i < r) && f i) := by
  induction r with
  | zero => simp [sumBits]
  | succ r ih =>
    rw [sumBits_succ, Nat.testBit_two_pow_mul_add _ (sumBits_lt f r), ih]
    rcases lt_trichotomy i r with h | rfl | h
    · simp [h, show i < r + 1 by omega]
    · cases f i <;> simp
    · have hz : (f r).toNat < 2 ^ (i - r) := (Bool.toNat_lt (f r)).trans_le (Nat.le_self_pow (by omega) 2)
      simp [show ¬i < r by omega, show ¬i < r + 1 by omega, Nat.testBit_lt_two_pow hz]

theorem syndrome_lt (k : Nat) (c : List Bool) : syndrome k c < 2 ^ calcR k := by
  rw [syndrome_eq_sumBits]
  exact sumBits_lt ..

theorem syndrome_testBit (k : Nat) (c : List Bool) (i : Nat) :
    (syndrome k c).testBit i = (decide (i < calcR k) && checkXor k i (posBit c)) := by
  rw [syndrome_eq_sumBits, testBit_sumBits]

theorem syndrome_encodeBlock (hk : 1 ≤ k) (d : List Bool) : syndrome k (encodeBlock k d) = 0 := by
  apply Nat.eq_of_testBit_eq
  intro i
  rw [syndrome_testBit, Nat.zero_testBit, Bool.and_eq_false_imp, decide_eq_true_iff]
  exact checkXor_encodeBlock hk

theorem testBit_foldl_xor (E : List Nat) (i : Nat) :
    (E.foldl (fun acc p => acc ^^^ p) 0).testBit i = xorOver E (·.testBit i) := by
  have h := List.foldl_hom (l := E) (init := 0) (·.testBit i) (g₁ := fun acc p => acc ^^^ p)
    (g₂ := fun acc p => acc ^^ p.testBit i) fun x y => (Nat.testBit_xor ..).symm
  rw [← h, xorOver, Nat.zero_testBit]

/-- A block's position has no bit that is no group's. -/
theorem testBit_of_mem_positions (hp : p ∈ positions k) (hi : calcR k ≤ i) : p.testBit i = false :=
  Nat.testBit_lt_two_pow (((mem_positions.mp hp).2.trans_lt (blockLen_lt_two_pow k)).trans_le
    (Nat.pow_le_pow_right (by decide) hi))

/-- The syndrome law of R199, bit by bit: the encoded block's parity is even, and each flip contributes its position. -/
theorem syndrome_flipPositions (hk : 1 ≤ k) (d : List Bool) (hE : E.Nodup) (hpos : ∀ p ∈ E, p ∈ positions k) :
    syndrome k (flipPositions (encodeBlock k d) E) = E.foldl (fun acc p => acc ^^^ p) 0 := by
  apply Nat.eq_of_testBit_eq
  intro i
  rw [syndrome_testBit, testBit_foldl_xor]
  by_cases hi : i < calcR k
  · rw [checkXor_flipPositions (encodeBlock_length k d) hE hpos, checkXor_encodeBlock hk hi, decide_eq_true hi,
      Bool.true_and, Bool.false_xor]
  · have hzero : xorOver E (·.testBit i) = xorOver E fun _ => false :=
      xorOver_congr fun p hp => testBit_of_mem_positions (hpos p hp) (by omega)
    have hfalse : xorOver E (fun _ => false) = false := by
      simpa using xorOver_xor E (fun _ => false) fun _ => false
    rw [decide_eq_false hi, Bool.false_and, hzero, hfalse]

/-! ### Decoding a block -/

/-- The positions wrong when `e` says which one is, 0 for none (R12: positions begin at 1). -/
def flipAt (e : Nat) : List Nat := if e = 0 then [] else [e]

theorem mem_flipAt {e : Nat} : p ∈ flipAt e ↔ p = e ∧ e ≠ 0 := by
  rw [flipAt]
  split <;> simp [*]

theorem mem_positions_of_mem_flipAt {e : Nat} (he : e ≤ blockLen k) : ∀ p ∈ flipAt e, p ∈ positions k := by
  intro p hp
  obtain ⟨rfl, hne⟩ := mem_flipAt.mp hp
  exact mem_positions.mpr ⟨Nat.one_le_iff_ne_zero.mpr hne, he⟩

theorem syndrome_flipAt (hk : 1 ≤ k) (d : List Bool) {e : Nat} (he : e ≤ blockLen k) :
    syndrome k (flipPositions (encodeBlock k d) (flipAt e)) = e := by
  have hnodup : (flipAt e).Nodup := by
    rw [flipAt]
    split <;> simp
  rw [syndrome_flipPositions hk d hnodup (mem_positions_of_mem_flipAt he), flipAt]
  split
  · next h => exact h.symm
  · exact Nat.zero_xor e

/-- The correction undoes the flip, as a position is never 0. -/
theorem correctedBit_flipAt {e : Nat} (hc : c.length = blockLen k) (hp : p ∈ positions k) :
    correctedBit e (flipPositions c (flipAt e)) p = posBit c p := by
  have hne : p ≠ 0 := Nat.one_le_iff_ne_zero.mp (mem_positions.mp hp).1
  rw [correctedBit, posBit_flipPositions hc hp]
  by_cases hpe : p = e
  · subst hpe
    simp [mem_flipAt, hne]
  · simp [mem_flipAt, hpe]

/-- A block with at most one wrong bit decodes to its data (R199). -/
theorem decodeBlock_flipAt (hk : 1 ≤ k) (hd : d.length = k) {e : Nat} (he : e ≤ blockLen k) :
    decodeBlock k (flipPositions (encodeBlock k d) (flipAt e)) =
      { data := d, errdet := decide (e ≠ 0), synrange := false, info := e } := by
  have hdata : (dataPos k).map (correctedBit e (flipPositions (encodeBlock k d) (flipAt e))) = d := by
    refine Eq.trans (List.map_congr_left fun p hp => ?_) (map_encodedBit_dataPos hk hd)
    have hp := (mem_dataPos.mp hp).1
    rw [correctedBit_flipAt (encodeBlock_length k d) hp, posBit_encodeBlock hp]
  simp only [decodeBlock, syndrome_flipAt hk d he, hdata, Nat.not_lt.mpr he, decide_false]

@[simp] theorem decodeBlock_info (k : Nat) (c : List Bool) : (decodeBlock k c).info = syndrome k c := rfl

@[simp] theorem decodeBlock_errdet (k : Nat) (c : List Bool) :
    (decodeBlock k c).errdet = decide (syndrome k c ≠ 0) := rfl

@[simp] theorem decodeBlock_synrange (k : Nat) (c : List Bool) :
    (decodeBlock k c).synrange = decide (blockLen k < syndrome k c) := rfl

@[simp] theorem decodeBlock_data_length (hk : 1 ≤ k) (c : List Bool) : (decodeBlock k c).data.length = k := by
  rw [decodeBlock, List.length_map, dataPos_length hk]

end

/-! ### The laws of R194 and R199 -/

/-- Settles O30: the parity of each group is even, so every bit of the syndrome is 0. -/
theorem encodedBlockHasDataAndEvenParity : Obligations.EncodedBlockHasDataAndEvenParity := by
  refine fun k d hk hd => ⟨encodeBlock_length k d, fun j hj => ?data, fun i hi => ?parity, syndrome_encodeBlock hk d⟩
  case data =>
    rw [← dataPos_length hk] at hj
    have hmem := mem_dataPos.mp (List.getElem_mem hj)
    rw [List.getD_eq_getElem _ _ hj, posBit_encodeBlock hmem.1, encodedBit_of_notMem_parPos hmem.2,
      dataLayout_getElem hj]
  case parity =>
    refine Eq.trans ?_ (checkXor_encodeBlock (d := d) hk hi)
    rw [checkXor, checkGroup, positions, List.filter_map, List.foldl_map]
    rfl

/-- Settles O49: the positions of a block are `1 .. n`. -/
theorem syndromeIsXorOfFlips : Obligations.SyndromeIsXorOfFlips := fun _ d _ hk _ hE hpos =>
  syndrome_flipPositions hk d hE fun p hp => mem_positions.mpr (hpos p hp)

/-- Settles O50: no wrong position, and one. -/
theorem singleErrorIsCorrected : Obligations.SingleErrorIsCorrected := by
  refine fun k d hk hd => ⟨?clean, fun e he hn => ?single⟩
  case clean => simpa [flipAt] using decodeBlock_flipAt hk hd (Nat.zero_le _)
  case single =>
    have hne : e ≠ 0 := by omega
    simpa [flipAt, hne] using decodeBlock_flipAt hk hd hn

/-- Settles O51: the exclusive-or of two different positions is neither of them, as none is 0. -/
theorem doubleErrorIsDetectedNotLocated : Obligations.DoubleErrorIsDetectedNotLocated := by
  intro k d e₁ e₂ hk _ h₁ hn₁ h₂ hn₂ hne
  have hsyn : syndrome k (flipPositions (encodeBlock k d) [e₁, e₂]) = e₁ ^^^ e₂ := by
    rw [syndrome_flipPositions hk d (by simpa using hne) (by simp [mem_positions, blockLen, *])]
    simp
  have hxor : e₁ ^^^ e₂ ≠ 0 := fun h => hne (Nat.xor_eq_zero_iff.mp h)
  refine ⟨hsyn, ?_, ?_, hxor, fun h => ?_, fun h => ?_⟩
  · rw [decodeBlock_errdet, hsyn, decide_eq_true hxor]
  · rw [decodeBlock_synrange, hsyn, decide_eq_true_iff, blockLen]
  · have := Nat.xor_right_injective (h.trans (Nat.xor_zero e₁).symm)
    omega
  · have := Nat.xor_left_injective (h.trans (Nat.zero_xor e₂).symm)
    omega

end Sys2Proof.Proofs.BlockCode
end

section
/-! The stream code (R200, R202): blocks side by side, and what `decodeStream` makes of damaged blocks (R205). -/

namespace Sys2Proof.Proofs.StreamCode

open Sys2Proof Sys2Proof.Machine Sys2Proof.Proofs.BlockPositions Sys2Proof.Proofs.BlockCode
  Sys2Proof.Proofs.BitPacking

/-! ### Blocks of one length side by side -/

theorem index_lt_of_block {n m u q : Nat} (hu : u < m) (hq : q < n) : u * n + q < m * n :=
  calc u * n + q < (u + 1) * n := by rw [Nat.succ_mul]; omega
    _ ≤ m * n := Nat.mul_le_mul_right n hu

section Blocks

variable {α : Type} {f : Nat → List α} {n : Nat} (hf : ∀ u, (f u).length = n)
include hf

theorem length_flatMap_range (m : Nat) : ((List.range m).flatMap f).length = m * n := by
  simp [List.length_flatMap, hf]

theorem take_drop_flatMap_range {m u : Nat} (hu : u < m) : (((List.range m).flatMap f).drop (u * n)).take n = f u := by
  obtain ⟨l, rfl⟩ : ∃ l, m = u + (l + 1) := ⟨m - u - 1, by omega⟩
  rw [List.range_add, List.flatMap_append, List.drop_left' (length_flatMap_range hf u), List.range_succ_eq_map,
    List.map_cons, List.flatMap_cons]
  exact List.take_left' (hf u)

theorem getD_flatMap_range {m u q : Nat} (hu : u < m) (hq : q < n) (d : α) :
    ((List.range m).flatMap f).getD (u * n + q) d = (f u).getD q d := by
  rw [← take_drop_flatMap_range hf hu]
  simp [List.getD_eq_getElem?_getD, hq]

/-- An element of blocks side by side belongs to one block. -/
theorem eq_flatMap_range {m : Nat} {l : List α} (hl : l.length = m * n) {d : α}
    (h : ∀ u < m, ∀ q < n, l.getD (u * n + q) d = (f u).getD q d) : l = (List.range m).flatMap f := by
  apply List.ext_getElem (hl.trans (length_flatMap_range hf m).symm)
  intro i hi hi'
  rw [hl] at hi
  have hn : 0 < n := Nat.pos_of_ne_zero fun h0 => by simp [h0] at hi
  have hsplit : i / n * n + i % n = i := Nat.div_add_mod' i n
  have hu : i / n < m := Nat.div_lt_of_lt_mul (by rwa [Nat.mul_comm])
  have hq : i % n < n := Nat.mod_lt i hn
  have helem := (h _ hu _ hq).trans (getD_flatMap_range hf hu hq d).symm
  rwa [hsplit, List.getD_eq_getElem, List.getD_eq_getElem] at helem

end Blocks

variable {k : Nat} {b : List Bool}

/-! ### The data and the code of a stream -/

theorem le_ceilDiv_mul (hk : 1 ≤ k) (a : Nat) : a ≤ ceilDiv a k * k := by
  have := Nat.div_add_mod' (a + k - 1) k
  have := Nat.mod_lt (a + k - 1) hk
  rw [ceilDiv]
  omega

theorem ceilDiv_pos (hk : 1 ≤ k) {a : Nat} (ha : 0 < a) : 0 < ceilDiv a k := Nat.div_pos (by omega) hk

theorem ceilDiv_zero (hk : 1 ≤ k) : ceilDiv 0 k = 0 := Nat.div_eq_of_lt (by omega)

theorem dataBlock_length (k : Nat) (b : List Bool) (u : Nat) : (dataBlock k b u).length = k := by simp [dataBlock]

theorem encodeDataBlock_length (k : Nat) (b : List Bool) (u : Nat) :
    (encodeBlock k (dataBlock k b u)).length = blockLen k := encodeBlock_length ..

theorem codeStream_length (k : Nat) (b : List Bool) :
    (codeStream k b).length = ceilDiv b.length k * blockLen k := length_flatMap_range (encodeDataBlock_length k b) _

/-- The data blocks side by side are the bits and the pad (R200). -/
theorem flatMap_dataBlock (hk : 1 ≤ k) (b : List Bool) :
    (List.range (ceilDiv b.length k)).flatMap (dataBlock k b) =
      b ++ List.replicate (ceilDiv b.length k * k - b.length) false := by
  rw [← map_bitAt_range (le_ceilDiv_mul hk b.length)]
  refine (eq_flatMap_range (dataBlock_length k b) (d := false) (by simp) fun u hu q hq => ?_).symm
  simp [index_lt_of_block hu hq, hq, dataBlock]

/-! ### Decoding a stream block by block (R202) -/

section Stream

variable (k : Nat) (c : List Bool)

theorem decodeStream_data : (decodeStream k c).data =
    (List.range (c.length / blockLen k)).flatMap fun u => (decodeBlock k (codeBlock k c u)).data := by
  simp [decodeStream, decodedBlocks, List.flatMap_map]

theorem decodeStream_info : (decodeStream k c).info =
    (List.range (c.length / blockLen k)).countP fun u => decide (syndrome k (codeBlock k c u) ≠ 0) := by
  simp [decodeStream, decodedBlocks, List.countP_map, Function.comp_def]

theorem decodeStream_errdet : (decodeStream k c).errdet = decide ((decodeStream k c).info ≠ 0) := by
  rw [Bool.eq_iff_iff, decide_eq_true_iff, ← Nat.pos_iff_ne_zero]
  exact List.any_eq_true.trans List.countP_pos_iff.symm

theorem decodeStream_synrange : (decodeStream k c).synrange =
    (List.range (c.length / blockLen k)).any fun u => decide (blockLen k < syndrome k (codeBlock k c u)) := by
  simp [decodeStream, decodedBlocks, List.any_map, Function.comp_def]

theorem decodeStream_info_le : (decodeStream k c).info ≤ c.length := by
  rw [decodeStream_info]
  refine List.countP_le_length.trans ?_
  rw [List.length_range]
  exact Nat.div_le_self ..

variable {k}

theorem decodeStream_data_length (hk : 1 ≤ k) : (decodeStream k c).data.length = c.length / blockLen k * k := by
  rw [decodeStream_data, length_flatMap_range fun u => decodeBlock_data_length hk _]

theorem decodeStream_data_length_le (hk : 1 ≤ k) : (decodeStream k c).data.length ≤ c.length := by
  rw [decodeStream_data_length c hk]
  exact (Nat.mul_le_mul_left _ (Nat.le_add_right k _)).trans (Nat.div_mul_le_self ..)

end Stream

/-! ### Damaged streams -/

/-- The code of a stream with the bit at position `flips u` of block `u` wrong, 0 for none (R205). -/
def damagedStream (k : Nat) (b : List Bool) (flips : Nat → Nat) : List Bool :=
  (List.range (ceilDiv b.length k)).flatMap fun u =>
    flipPositions (encodeBlock k (dataBlock k b u)) (flipAt (flips u))

theorem damagedBlock_length (k : Nat) (b : List Bool) (flips : Nat → Nat) (u : Nat) :
    (flipPositions (encodeBlock k (dataBlock k b u)) (flipAt (flips u))).length = blockLen k := by
  rw [flipPositions_length, encodeBlock_length]

theorem damagedStream_length (k : Nat) (b : List Bool) (flips : Nat → Nat) :
    (damagedStream k b flips).length = ceilDiv b.length k * blockLen k :=
  length_flatMap_range (damagedBlock_length k b flips) _

theorem damagedStream_zero (k : Nat) (b : List Bool) : (damagedStream k b fun _ => 0) = codeStream k b := by
  simp [damagedStream, codeStream, flipAt]

/-- The form in which R205 takes a block out of the code before its bit is flipped. -/
theorem flatMap_flipPositions_codeBlock (k : Nat) (b : List Bool) (flips : Nat → Nat) :
    ((List.range (ceilDiv b.length k)).flatMap fun u =>
      flipPositions (codeBlock k (codeStream k b) u) (if flips u = 0 then [] else [flips u])) =
        damagedStream k b flips := by
  refine List.flatMap_congr fun u hu => ?_
  rw [codeBlock, codeStream, take_drop_flatMap_range (encodeDataBlock_length k b) (List.mem_range.mp hu), flipAt]

section Decode

variable (hk : 1 ≤ k)
include hk

/-- Each block of a damaged stream is decoded by itself (R202). -/
theorem decodedBlocks_damagedStream (b : List Bool) {flips : Nat → Nat} (hflips : ∀ u, flips u ≤ blockLen k) :
    decodedBlocks k (damagedStream k b flips) = (List.range (ceilDiv b.length k)).map fun u =>
      { data := dataBlock k b u, errdet := decide (flips u ≠ 0), synrange := false, info := flips u } := by
  rw [decodedBlocks, damagedStream_length, Nat.mul_div_cancel _ (blockLen_pos hk)]
  refine List.map_congr_left fun u hu => ?_
  rw [codeBlock, damagedStream, take_drop_flatMap_range (damagedBlock_length k b flips) (List.mem_range.mp hu)]
  exact decodeBlock_flipAt hk (dataBlock_length k b u) (hflips u)

/-- Every block's data is restored, and the damaged ones are counted (R205). -/
theorem decodeStream_damagedStream (b : List Bool) {flips : Nat → Nat} (hflips : ∀ u, flips u ≤ blockLen k) :
    decodeStream k (damagedStream k b flips) =
      { data := b ++ List.replicate (ceilDiv b.length k * k - b.length) false
        errdet := (List.range (ceilDiv b.length k)).any fun u => decide (flips u ≠ 0)
        synrange := false
        info := (List.range (ceilDiv b.length k)).countP fun u => decide (flips u ≠ 0) } := by
  rw [← flatMap_dataBlock hk b]
  simp [decodeStream, decodedBlocks_damagedStream hk b hflips, List.flatMap_map, List.any_map, List.countP_map,
    Function.comp_def]

theorem decodeStream_codeStream (b : List Bool) : decodeStream k (codeStream k b) =
    { data := b ++ List.replicate (ceilDiv b.length k * k - b.length) false
      errdet := false, synrange := false, info := 0 } := by
  rw [← damagedStream_zero, decodeStream_damagedStream hk b fun _ => Nat.zero_le _]
  simp

end Decode

/-- Settles O52: the clean stream is the damaged stream without a wrong bit. -/
theorem streamRoundTripWithOneErrorPerBlock : Obligations.StreamRoundTripWithOneErrorPerBlock := by
  refine fun k b hk => ⟨codeStream_length k b, decodeStream_codeStream hk b, fun flips hflips => ?_⟩
  rw [flatMap_flipPositions_codeBlock, decodeStream_damagedStream hk b hflips]
  exact ⟨rfl, rfl⟩

end Sys2Proof.Proofs.StreamCode
end

section
/-! `noise` (R230): the flipped positions and the draws, and one draw on the code of a stream (R205). -/

namespace Sys2Proof.Proofs.Noise

open Sys2Proof Sys2Proof.Machine Sys2Proof.Proofs.BlockPositions Sys2Proof.Proofs.BlockCode
  Sys2Proof.Proofs.StreamCode

/-! ### Flips and draws -/

theorem bitAt_noise {b : List Bool} {t : Nat} (ht : t < b.length) (pos : List Nat) :
    bitAt (noise b pos) t = (bitAt b t ^^ decide (pos.count t % 2 = 1)) := by
  simp [bitAt, noise, ht]

/-- The odd terms of a sum number at most the sum, and as many as it up to an even number. -/
theorem countP_odd_le_sum (g : Nat → Nat) (l : List Nat) :
    (l.countP fun t => decide (g t % 2 = 1)) ≤ (l.map g).sum ∧
      ((l.map g).sum - l.countP fun t => decide (g t % 2 = 1)) % 2 = 0 := by
  induction l with
  | nil => exact ⟨le_rfl, rfl⟩
  | cons t l ih =>
    simp only [List.countP_cons, List.map_cons, List.sum_cons, decide_eq_true_iff]
    split <;> omega

/-- Each draw counts for the one position it hits. -/
theorem sum_count_range {n : Nat} {pos : List Nat} (h : ∀ p ∈ pos, p < n) :
    ((List.range n).map fun t => pos.count t).sum = pos.length :=
  calc ((List.range n).map fun t => pos.count t).sum
      = ∑ t ∈ Finset.range n, (pos : Multiset Nat).count t :=
        Finset.sum_congr (s₁ := Finset.range n) rfl fun t _ => (Multiset.coe_count t pos).symm
    _ = pos.length := Multiset.sum_count_eq_card fun p hp => Finset.mem_range.mpr (h p hp)

theorem length_filter_flipped (b : List Bool) (pos : List Nat) :
    ((List.range b.length).filter fun t => bitAt (noise b pos) t != bitAt b t).length =
      (List.range b.length).countP fun t => decide (pos.count t % 2 = 1) := by
  rw [← List.countP_eq_length_filter]
  refine List.countP_congr fun t ht => ?_
  rw [bitAt_noise (List.mem_range.mp ht)]
  cases bitAt b t <;> simp

/-- Drawing each position of a set once, and position 0 an even number of times more, flips the set. -/
theorem count_append_replicate_odd {flips : List Nat} (hnodup : flips.Nodup) {m : Nat} (hm : m % 2 = 0) (t : Nat) :
    (flips ++ List.replicate m 0).count t % 2 = 1 ↔ t ∈ flips := by
  rw [List.count_append, List.count_replicate, hnodup.count]
  by_cases ht : t ∈ flips
  · rw [if_pos ht]
    split
    · simp only [ht, iff_true]
      omega
    · simp [ht]
  · rw [if_neg ht]
    split <;> simp [ht, hm]

/-- Settles O35: the flips are the odd terms of the sum of the draws over the positions. -/
theorem noiseFlipsAnEvenlySmallerSet : Obligations.NoiseFlipsAnEvenlySmallerSet := by
  refine ⟨fun b pos => ⟨noise_length b pos, fun t ht => bitAt_noise ht pos⟩, fun b pos hpos => ?counts,
    fun b flips e hb hnodup hflips hle heven => ⟨flips ++ List.replicate (e - flips.length) 0, ?length, ?range,
      fun t ht => ?bits⟩⟩
  case counts =>
    rw [length_filter_flipped, ← sum_count_range hpos]
    exact countP_odd_le_sum ..
  case length =>
    rw [List.length_append, List.length_replicate]
    omega
  case range =>
    intro p hp
    rcases List.mem_append.mp hp with hp | hp
    · exact hflips p hp
    · rw [(List.mem_replicate.mp hp).2]
      exact List.length_pos_of_ne_nil hb
  case bits => rw [bitAt_noise ht, decide_eq_decide.mpr (count_append_replicate_odd hnodup heven t)]

/-! ### What HAM.NOISE draws (R231) -/

section Draws

variable (first count : Nat) {len : Nat}

theorem drawPositions_length (len : Nat) :
    (drawPositions first count len).length = if len = 0 then 0 else count := by
  rw [drawPositions]
  split <;> simp

theorem drawPositions_lt : ∀ p ∈ drawPositions first count len, p < len := by
  intro p hp
  rw [drawPositions] at hp
  split at hp
  · cases hp
  · obtain ⟨j, -, rfl⟩ := List.mem_map.mp hp
    exact Nat.mod_lt _ (by omega)

end Draws

/-! ### One draw on a stream's code -/

section OneDraw

variable {k : Nat}

/-- The positions wrong after a draw of bit `p` of the code: one, in the block the bit belongs to. -/
def flipsOfDraw (k p u : Nat) : Nat := if u = p / blockLen k then p % blockLen k + 1 else 0

theorem flipsOfDraw_le (hk : 1 ≤ k) (p u : Nat) : flipsOfDraw k p u ≤ blockLen k := by
  have := Nat.mod_lt p (blockLen_pos hk)
  rw [flipsOfDraw]
  split <;> omega

theorem succ_mem_flipAt_flipsOfDraw {p u q : Nat} :
    q + 1 ∈ flipAt (flipsOfDraw k p u) ↔ p / blockLen k = u ∧ p % blockLen k = q := by
  rw [mem_flipAt, flipsOfDraw]
  split
  · next h => simp [h, eq_comm]
  · next h => simp [Ne.symm h]

theorem noise_codeStream_singleton (hk : 1 ≤ k) (b : List Bool) (p : Nat) :
    noise (codeStream k b) [p] = damagedStream k b (flipsOfDraw k p) := by
  refine eq_flatMap_range (damagedBlock_length k b _) (d := false)
    ((noise_length ..).trans (codeStream_length k b)) fun u hu q hq => ?_
  have hlt : u * blockLen k + q < (codeStream k b).length := by
    rw [codeStream_length]
    exact index_lt_of_block hu hq
  have hcode : bitAt (codeStream k b) (u * blockLen k + q) = posBit (encodeBlock k (dataBlock k b u)) (q + 1) :=
    getD_flatMap_range (encodeDataBlock_length k b) hu hq false
  have hdraw : [p].count (u * blockLen k + q) % 2 = 1 ↔ p = u * blockLen k + q := by
    rw [List.count_singleton']
    split <;> simp [*]
  have hhit : p = u * blockLen k + q ↔ q + 1 ∈ flipAt (flipsOfDraw k p u) := by
    rw [succ_mem_flipAt_flipsOfDraw, Nat.div_mod_unique (blockLen_pos hk), and_iff_left hq, Nat.add_comm q,
      Nat.mul_comm, eq_comm]
  calc bitAt (noise (codeStream k b) [p]) (u * blockLen k + q)
      = (posBit (encodeBlock k (dataBlock k b u)) (q + 1) ^^ decide (q + 1 ∈ flipAt (flipsOfDraw k p u))) := by
        rw [bitAt_noise hlt, hcode, decide_eq_decide.mpr (hdraw.trans hhit)]
    _ = posBit (flipPositions (encodeBlock k (dataBlock k b u)) (flipAt (flipsOfDraw k p u))) (q + 1) :=
        (posBit_flipPositions (encodeBlock_length ..) (mem_positions.mpr ⟨by omega, hq⟩)).symm

theorem countP_flipsOfDraw {p m : Nat} (hp : p < m * blockLen k) :
    ((List.range m).countP fun u => decide (flipsOfDraw k p u ≠ 0)) = 1 := by
  have hmem : p / blockLen k ∈ List.range m := List.mem_range.mpr (Nat.div_lt_of_lt_mul (by rwa [Nat.mul_comm]))
  rw [← List.count_eq_one_of_mem List.nodup_range hmem, List.count]
  refine List.countP_congr fun u _ => ?_
  rw [flipsOfDraw]
  split <;> simp [*]

/-- At most one draw, none of an empty code, leaves a stream with at most one wrong bit (R205, R232). -/
theorem noise_codeStream (hk : 1 ≤ k) (b : List Bool) {pos : List Nat}
    (hlen : pos.length = if (codeStream k b).length = 0 then 0 else 1) (hpos : ∀ p ∈ pos, p < (codeStream k b).length) :
    ∃ flips : Nat → Nat, (∀ u, flips u ≤ blockLen k) ∧ noise (codeStream k b) pos = damagedStream k b flips ∧
      ((List.range (ceilDiv b.length k)).countP fun u => decide (flips u ≠ 0)) = if b.length = 0 then 0 else 1 := by
  by_cases hb : b.length = 0
  · refine ⟨fun _ => 0, fun _ => Nat.zero_le _, ?_, by simp [hb]⟩
    have hnil : codeStream k b = [] := List.eq_nil_of_length_eq_zero (by simp [codeStream_length, hb, ceilDiv_zero hk])
    rw [damagedStream_zero, hnil]
    rfl
  · have hcode : 0 < (codeStream k b).length := by
      rw [codeStream_length]
      exact Nat.mul_pos (ceilDiv_pos hk (by omega)) (blockLen_pos hk)
    rw [if_neg (by omega), List.length_eq_one_iff] at hlen
    obtain ⟨p, rfl⟩ := hlen
    have hp := hpos p (by simp)
    rw [codeStream_length] at hp
    exact ⟨flipsOfDraw k p, flipsOfDraw_le hk p, noise_codeStream_singleton hk b p,
      (countP_flipsOfDraw hp).trans (if_neg hb).symm⟩

end OneDraw

end Sys2Proof.Proofs.Noise
end

section
/-! The Hamming commands on the machine (R195, R198, R201, R203, R232), and HAM.ENC, one noise flip, HAM.DEC (R205). -/

namespace Sys2Proof.Proofs.HammingCommands

open Sys2Proof Sys2Proof.Machine Sys2Proof.Proofs.BlockPositions Sys2Proof.Proofs.BlockCode
  Sys2Proof.Proofs.StreamCode Sys2Proof.Proofs.Noise Sys2Proof.Proofs.StatusRules Sys2Proof.Proofs.CommandFrames
  Sys2Proof.Proofs.ShellCommands Sys2Proof.Proofs.PackCommands Sys2Proof.Proofs.HuffmanCommands

/-! ### What a success frame over bits leaves -/

section BitOutput

variable {bits : List Bool} {n : Nat} {ed sr : Bool} {s : State} {i : Nat}

theorem obufAt_successFrame_bits_of_lt (h : i < bits.length) :
    obufAt (successFrame (bits.map bitElem) n ed sr s) i = bitElem (bitAt bits i) := by
  rw [obufAt_successFrame_of_lt (by rwa [List.length_map]), map_bitElem_getD h]

theorem obufAt_successFrame_bits_of_ge (h : bits.length ≤ i) :
    obufAt (successFrame (bits.map bitElem) n ed sr s) i = obufAt s i :=
  obufAt_successFrame_of_ge (by rwa [List.length_map])

/-- What HAM.DECB and HAM.DEC leave of the result they found (R198, R203). -/
def resultFrame (r : HamResult) (s : State) : State := successFrame (r.data.map bitElem) r.info r.errdet r.synrange s

section

variable (r : HamResult) (s : State)

theorem resultFrame_eq : resultFrame r s = { s with
    status := (resultFrame r s).status, res := BitVec.ofNat 32 r.info, olen := BitVec.ofNat 32 r.data.length,
    obuf := (resultFrame r s).obuf } := by
  rw [← List.length_map (as := r.data) bitElem]
  rfl

@[simp] theorem resultFrame_status : (resultFrame r s).status = statusWord .ok r.errdet r.synrange 0 := rfl

@[simp] theorem resultFrame_res : (resultFrame r s).res = BitVec.ofNat 32 r.info := rfl

end

theorem obufAt_resultFrame_of_lt {r : HamResult} (h : i < r.data.length) :
    obufAt (resultFrame r s) i = bitElem (bitAt r.data i) := obufAt_successFrame_bits_of_lt h

theorem obufAt_resultFrame_of_ge {r : HamResult} (h : r.data.length ≤ i) :
    obufAt (resultFrame r s) i = obufAt s i := obufAt_successFrame_bits_of_ge h

theorem finish_bits_of_fits (h : bits.length ≤ s.cfg.obufCap) (t : State) (n : Nat) (ed sr : Bool) :
    finish s t (bits.map bitElem) n ed sr = .next (successFrame (bits.map bitElem) n ed sr t) :=
  finish_of_fits (by rwa [List.length_map]) ..

theorem finish_bits_of_overflow (h : s.cfg.obufCap < bits.length) (t : State) (n : Nat) (ed sr : Bool) :
    finish s t (bits.map bitElem) n ed sr = .next (failFrame .capacity 0 s) :=
  finish_of_overflow (by rwa [List.length_map]) ..

end BitOutput

variable {s : State}

theorem one_le_of_ne_zero {w : Word} (h : w ≠ 0) : 1 ≤ w.toNat :=
  Nat.one_le_iff_ne_zero.mpr fun h0 => h (BitVec.eq_of_toNat_eq h0)

theorem toNat_eq_zero_iff {w : Word} : w.toNat = 0 ↔ w = 0 := BitVec.toNat_eq (y := 0) |>.symm

/-! ### HAM.ENCB -/

theorem exec_hamEncb (hin : s.ilen.toNat ≤ s.cfg.ibufCap) (hk : s.cfgK ≠ 0) (hlen : s.ilen = s.cfgK) :
    exec .hamEncb s = finish s s ((encodeBlock s.cfgK.toNat (bitsOf s)).map bitElem) (calcR s.cfgK.toNat)
      false false := by
  have hok : ¬(s.cfgK.toNat = 0 ∨ s.ilen.toNat ≠ s.cfgK.toNat) := by simpa [toNat_eq_zero_iff, hlen] using hk
  rw [exec, execHamEncb, inputTooLong_eq_false hin, if_neg Bool.false_ne_true, if_neg hok]

theorem exec_hamEncb_of_mismatch (hin : s.ilen.toNat ≤ s.cfg.ibufCap) (h : s.cfgK = 0 ∨ s.ilen ≠ s.cfgK) :
    exec .hamEncb s = .next (failFrame .configMismatch 0 s) := by
  have hbad : s.cfgK.toNat = 0 ∨ s.ilen.toNat ≠ s.cfgK.toNat := by
    rwa [toNat_eq_zero_iff, ne_eq, BitVec.toNat_inj]
  rw [exec, execHamEncb, inputTooLong_eq_false hin, if_neg Bool.false_ne_true, if_pos hbad, failWith_eq]

/-- HAM.ENCB completes when the block fits OBUF (R195). -/
theorem exec_hamEncb_of_fits (hin : s.ilen.toNat ≤ s.cfg.ibufCap) (hk : s.cfgK ≠ 0) (hlen : s.ilen = s.cfgK)
    (hout : blockLen s.cfgK.toNat ≤ s.cfg.obufCap) :
    exec .hamEncb s = .next (successFrame ((encodeBlock s.cfgK.toNat (bitsOf s)).map bitElem) (calcR s.cfgK.toNat)
      false false s) := by
  rw [exec_hamEncb hin hk hlen, finish_bits_of_fits (by rwa [encodeBlock_length])]

/-- Settles O29: element `p - 1` is the bit at position `p`. -/
theorem blockEncodeCompletes : Obligations.BlockEncodeCompletes := by
  refine fun s => ⟨fun h => exec_of_inputTooLong (by decide) (inputTooLong_eq_true h), exec_hamEncb_of_mismatch,
    fun hin hk hlen hcap => ?capacity, fun hin hk hlen hout => ⟨_, exec_hamEncb_of_fits hin hk hlen hout, ?frame,
      fun p h1 hn => ?below, fun i hi => ?above⟩⟩
  case capacity =>
    rw [exec_hamEncb hin hk hlen, finish_bits_of_overflow (by rwa [encodeBlock_length])]
    rfl
  case frame =>
    rw [successFrame_eq, List.length_map, encodeBlock_length]
    rfl
  case below => exact obufAt_successFrame_bits_of_lt (by rw [encodeBlock_length, blockLen]; omega)
  case above => exact obufAt_successFrame_bits_of_ge (by rwa [encodeBlock_length])

/-! ### HAM.DECB -/

section Decb

variable (hin : s.ilen.toNat ≤ s.cfg.ibufCap)
include hin

theorem exec_hamDecb_of_mismatch (h : s.cfgK = 0 ∨ s.ilen.toNat ≠ blockLen s.cfgK.toNat) :
    exec .hamDecb s = .next (failFrame .configMismatch 0 s) := by
  rw [← toNat_eq_zero_iff] at h
  rw [exec, execHamDecb, inputTooLong_eq_false hin, if_neg Bool.false_ne_true, if_pos h, failWith_eq]

variable (hk : s.cfgK ≠ 0) (hlen : s.ilen.toNat = blockLen s.cfgK.toNat)
include hk hlen

theorem exec_hamDecb : exec .hamDecb s = finish s s ((decodeBlock s.cfgK.toNat (bitsOf s)).data.map bitElem)
    (decodeBlock s.cfgK.toNat (bitsOf s)).info (decodeBlock s.cfgK.toNat (bitsOf s)).errdet
    (decodeBlock s.cfgK.toNat (bitsOf s)).synrange := by
  have hok : ¬(s.cfgK.toNat = 0 ∨ s.ilen.toNat ≠ blockLen s.cfgK.toNat) := by
    simpa [toNat_eq_zero_iff, hlen] using hk
  rw [exec, execHamDecb, inputTooLong_eq_false hin, if_neg Bool.false_ne_true, if_neg hok]

theorem exec_hamDecb_of_overflow (hcap : s.cfg.obufCap < s.cfgK.toNat) :
    exec .hamDecb s = .next (failFrame .capacity 0 s) := by
  rw [exec_hamDecb hin hk hlen, finish_bits_of_overflow (by rwa [decodeBlock_data_length (one_le_of_ne_zero hk)])]

/-- HAM.DECB completes when the data bits fit OBUF (R198). -/
theorem exec_hamDecb_of_fits (hout : s.cfgK.toNat ≤ s.cfg.obufCap) :
    exec .hamDecb s = .next (resultFrame (decodeBlock s.cfgK.toNat (bitsOf s)) s) := by
  rw [exec_hamDecb hin hk hlen, finish_bits_of_fits (by rwa [decodeBlock_data_length (one_le_of_ne_zero hk)]),
    resultFrame]

end Decb

/-- 32 bits hold the syndrome of a block whose length they hold. -/
theorem syndrome_lt_of_blockLen_lt {k : Nat} (hk : 1 ≤ k) (hn : blockLen k < 2 ^ 32) (c : List Bool) :
    syndrome k c < 2 ^ 32 := by
  have hr : calcR k - 1 < 32 :=
    (Nat.pow_lt_pow_iff_right (by decide)).mp ((two_pow_calcR_sub_one_lt hk).trans hn)
  exact (syndrome_lt k c).trans_le (Nat.pow_le_pow_right (by decide) (by omega))

theorem decodeBlock_data_bitAt {k j : Nat} (hk : 1 ≤ k) (hj : j < k) (c : List Bool) :
    bitAt (decodeBlock k c).data j = correctedBit (syndrome k c) c ((dataPos k).getD j 0) := by
  rw [← dataPos_length hk] at hj
  simp [bitAt, decodeBlock, hj]

/-- The flags of a syndrome: none, in the block, beyond it (R198). -/
theorem statusWord_of_syndrome (n syn : Nat) :
    statusWord .ok (decide (syn ≠ 0)) (decide (n < syn)) 0 =
      if syn = 0 then 0x00 else if syn ≤ n then 0x10 else 0x30 := by
  by_cases h0 : syn = 0
  · simp only [h0, ne_eq, not_true_eq_false, decide_false, Nat.not_lt_zero, if_true]
    rfl
  · by_cases hn : syn ≤ n
    · simp only [h0, hn, Nat.not_lt.mpr hn, ne_eq, not_false_eq_true, decide_true, decide_false, if_true, if_false]
      rfl
    · simp only [h0, hn, Nat.not_le.mp hn, ne_eq, not_false_eq_true, decide_true, if_false]
      rfl

/-- Settles O31: the output is `decodeBlock`'s data, and the flags are the syndrome's. -/
theorem blockDecodeCompletes : Obligations.BlockDecodeCompletes := by
  refine fun s => ⟨fun h => exec_of_inputTooLong (by decide) (inputTooLong_eq_true h), exec_hamDecb_of_mismatch,
    exec_hamDecb_of_overflow, fun hin hk hlen hout => ⟨_, exec_hamDecb_of_fits hin hk hlen hout, ?frame, ?syndrome,
      statusWord_of_syndrome _ _, fun j hj => ?below, fun j hj => ?above⟩⟩
  all_goals have hk1 := one_le_of_ne_zero hk
  case frame =>
    have hframe := resultFrame_eq (decodeBlock s.cfgK.toNat (bitsOf s)) s
    rwa [decodeBlock_data_length hk1, BitVec.ofNat_toNat, BitVec.setWidth_eq] at hframe
  case syndrome =>
    have hn : blockLen s.cfgK.toNat < 2 ^ 32 := lt_of_eq_of_lt hlen.symm s.ilen.isLt
    rw [resultFrame_res, BitVec.toNat_ofNat, decodeBlock_info, Nat.mod_eq_of_lt (syndrome_lt_of_blockLen_lt hk1 hn _)]
  case below =>
    rw [obufAt_resultFrame_of_lt (by rwa [decodeBlock_data_length hk1]), decodeBlock_data_bitAt hk1 hj, correctedBit]
  case above => exact obufAt_resultFrame_of_ge (by rwa [decodeBlock_data_length hk1])

/-! ### HAM.ENC -/

theorem codeStream_bitsOf_length (s : State) :
    (codeStream s.cfgK.toNat (bitsOf s)).length = ceilDiv s.ilen.toNat s.cfgK.toNat * blockLen s.cfgK.toNat := by
  rw [codeStream_length, bitsOf_length]

section Enc

variable (hin : s.ilen.toNat ≤ s.cfg.ibufCap)
include hin

theorem exec_hamEnc_of_mismatch (h : s.cfgK = 0) : exec .hamEnc s = .next (failFrame .configMismatch 0 s) := by
  rw [exec, execHamEnc, inputTooLong_eq_false hin, if_neg Bool.false_ne_true, if_pos (toNat_eq_zero_iff.mpr h),
    failWith_eq]

theorem exec_hamEnc_of_overflow (hk : s.cfgK ≠ 0)
    (hcap : s.cfg.obufCap < ceilDiv s.ilen.toNat s.cfgK.toNat * blockLen s.cfgK.toNat) :
    exec .hamEnc s = .next (failFrame .capacity 0 s) := by
  rw [exec, execHamEnc, inputTooLong_eq_false hin, if_neg Bool.false_ne_true, if_neg (mt toNat_eq_zero_iff.mp hk),
    if_pos hcap, failWith_eq]

/-- HAM.ENC completes when its blocks fit OBUF (R201). -/
theorem exec_hamEnc_of_fits (hk : s.cfgK ≠ 0)
    (hout : ceilDiv s.ilen.toNat s.cfgK.toNat * blockLen s.cfgK.toNat ≤ s.cfg.obufCap) :
    exec .hamEnc s = .next (successFrame ((codeStream s.cfgK.toNat (bitsOf s)).map bitElem)
      (ceilDiv s.ilen.toNat s.cfgK.toNat) false false s) := by
  rw [exec, execHamEnc, inputTooLong_eq_false hin, if_neg Bool.false_ne_true, if_neg (mt toNat_eq_zero_iff.mp hk),
    if_neg (Nat.not_lt.mpr hout), finish_bits_of_fits (by rwa [codeStream_bitsOf_length])]

end Enc

/-- Settles O32: element `u * n + q` of the code is element `q` of block `u`. -/
theorem streamEncodeCompletes : Obligations.StreamEncodeCompletes := by
  refine fun s => ⟨fun h => exec_of_inputTooLong (by decide) (inputTooLong_eq_true h), exec_hamEnc_of_mismatch,
    exec_hamEnc_of_overflow, fun hin hk hout => ⟨_, exec_hamEnc_of_fits hin hk hout, ?frame, fun u hu q hq => ?below,
      fun i hi => ?above⟩⟩
  case frame =>
    rw [successFrame_eq, List.length_map, codeStream_bitsOf_length]
    rfl
  case below =>
    have hu' : u < ceilDiv (bitsOf s).length s.cfgK.toNat := by rwa [bitsOf_length]
    have hlt : u * blockLen s.cfgK.toNat + q < (codeStream s.cfgK.toNat (bitsOf s)).length := by
      rw [codeStream_bitsOf_length]
      exact index_lt_of_block hu hq
    have helem := getD_flatMap_range (encodeDataBlock_length s.cfgK.toNat (bitsOf s)) hu' hq false
    exact (obufAt_successFrame_bits_of_lt hlt).trans (congrArg bitElem helem)
  case above => exact obufAt_successFrame_bits_of_ge (by rwa [codeStream_bitsOf_length])

/-! ### HAM.DEC -/

theorem decodeStream_bitsOf_length (hk : s.cfgK ≠ 0) : (decodeStream s.cfgK.toNat (bitsOf s)).data.length =
    s.ilen.toNat / blockLen s.cfgK.toNat * s.cfgK.toNat := by
  rw [decodeStream_data_length _ (one_le_of_ne_zero hk), bitsOf_length]

section Dec

variable (hin : s.ilen.toNat ≤ s.cfg.ibufCap)
include hin

theorem exec_hamDec_of_mismatch (h : s.cfgK = 0 ∨ s.ilen.toNat % blockLen s.cfgK.toNat ≠ 0) :
    exec .hamDec s = .next (failFrame .configMismatch 0 s) := by
  rw [← toNat_eq_zero_iff] at h
  rw [exec, execHamDec, inputTooLong_eq_false hin, if_neg Bool.false_ne_true, if_pos h, failWith_eq]

variable (hk : s.cfgK ≠ 0) (hlen : s.ilen.toNat % blockLen s.cfgK.toNat = 0)
include hk hlen

theorem exec_hamDec : exec .hamDec s = finish s s ((decodeStream s.cfgK.toNat (bitsOf s)).data.map bitElem)
    (decodeStream s.cfgK.toNat (bitsOf s)).info (decodeStream s.cfgK.toNat (bitsOf s)).errdet
    (decodeStream s.cfgK.toNat (bitsOf s)).synrange := by
  have hok : ¬(s.cfgK.toNat = 0 ∨ s.ilen.toNat % blockLen s.cfgK.toNat ≠ 0) := by
    simpa [toNat_eq_zero_iff, hlen] using hk
  rw [exec, execHamDec, inputTooLong_eq_false hin, if_neg Bool.false_ne_true, if_neg hok]

theorem exec_hamDec_of_overflow
    (hcap : s.cfg.obufCap < s.ilen.toNat / blockLen s.cfgK.toNat * s.cfgK.toNat) :
    exec .hamDec s = .next (failFrame .capacity 0 s) := by
  rw [exec_hamDec hin hk hlen, finish_bits_of_overflow (by rwa [decodeStream_bitsOf_length hk])]

/-- HAM.DEC completes when the blocks' data fit OBUF (R203). -/
theorem exec_hamDec_of_fits (hout : s.ilen.toNat / blockLen s.cfgK.toNat * s.cfgK.toNat ≤ s.cfg.obufCap) :
    exec .hamDec s = .next (resultFrame (decodeStream s.cfgK.toNat (bitsOf s)) s) := by
  rw [exec_hamDec hin hk hlen, finish_bits_of_fits (by rwa [decodeStream_bitsOf_length hk]), resultFrame]

end Dec

theorem ofNat_decodeStream_info_eq_zero_iff (k : Nat) (s : State) :
    BitVec.ofNat 32 (decodeStream k (bitsOf s)).info = 0 ↔ (decodeStream k (bitsOf s)).info = 0 := by
  have hle := decodeStream_info_le k (bitsOf s)
  rw [bitsOf_length] at hle
  rw [← toNat_eq_zero_iff, BitVec.toNat_ofNat, Nat.mod_eq_of_lt (hle.trans_lt s.ilen.isLt)]

/-- Settles O33: the output is `decodeStream`'s data, and the flags and the count are its own. -/
theorem streamDecodeCompletes : Obligations.StreamDecodeCompletes := by
  refine fun s => ⟨fun h => exec_of_inputTooLong (by decide) (inputTooLong_eq_true h), exec_hamDec_of_mismatch,
    exec_hamDec_of_overflow, fun hin hk hlen hout => ⟨_, exec_hamDec_of_fits hin hk hlen hout, ?frame,
      statusErr_statusWord .., statusSub_statusWord .., statusReserved_statusWord .., ?errdet, ?synrange,
      fun u hu j hj => ?below, fun i hi => ?above⟩⟩
  case frame =>
    have hframe := resultFrame_eq (decodeStream s.cfgK.toNat (bitsOf s)) s
    rwa [decodeStream_bitsOf_length hk, decodeStream_info, bitsOf_length] at hframe
  case errdet =>
    rw [resultFrame_status, statusErrdet_statusWord, decodeStream_errdet, resultFrame_res, decide_eq_decide]
    exact not_congr (ofNat_decodeStream_info_eq_zero_iff ..).symm
  case synrange =>
    rw [resultFrame_status, statusSynrange_statusWord, decodeStream_synrange, bitsOf_length]
    rfl
  case below =>
    have hlt : u * s.cfgK.toNat + j < (decodeStream s.cfgK.toNat (bitsOf s)).data.length := by
      rw [decodeStream_bitsOf_length hk]
      exact index_lt_of_block hu hj
    have hu' : u < (bitsOf s).length / blockLen s.cfgK.toNat := by rwa [bitsOf_length]
    rw [obufAt_resultFrame_of_lt hlt, decodeStream_data, bitAt,
      getD_flatMap_range (fun u => decodeBlock_data_length (one_le_of_ne_zero hk) _) hu' hj, bitAt]
  case above => exact obufAt_resultFrame_of_ge (by rwa [decodeStream_bitsOf_length hk])

/-! ### HAM.NOISE -/

/-- The positions HAM.NOISE draws from this state on (R231). -/
def drawnPositions (s : State) : List Nat := drawPositions s.draws s.arg.toNat s.ilen.toNat

theorem drawnPositions_length (s : State) :
    (drawnPositions s).length = if s.ilen.toNat = 0 then 0 else s.arg.toNat := drawPositions_length ..

theorem drawnPositions_lt (s : State) : ∀ p ∈ drawnPositions s, p < s.ilen.toNat := drawPositions_lt _ _

theorem noise_bitsOf_length (s : State) (pos : List Nat) : (noise (bitsOf s) pos).length = s.ilen.toNat := by
  rw [noise_length, bitsOf_length]

theorem exec_hamNoise (hin : s.ilen.toNat ≤ s.cfg.ibufCap) : exec .hamNoise s =
    finish s (ownWrites .hamNoise s) ((noise (bitsOf s) (drawnPositions s)).map bitElem) 0 false false := by
  rw [exec, execHamNoise, inputTooLong_eq_false hin]
  rfl

theorem exec_hamNoise_of_overflow (hin : s.ilen.toNat ≤ s.cfg.ibufCap) (hcap : s.cfg.obufCap < s.ilen.toNat) :
    exec .hamNoise s = .next (failFrame .capacity 0 s) := by
  rw [exec_hamNoise hin, finish_bits_of_overflow (by rwa [noise_bitsOf_length])]

/-- HAM.NOISE completes when the copy fits OBUF (R232). -/
theorem exec_hamNoise_of_fits (hin : s.ilen.toNat ≤ s.cfg.ibufCap) (hout : s.ilen.toNat ≤ s.cfg.obufCap) :
    exec .hamNoise s = .next (successFrame ((noise (bitsOf s) (drawnPositions s)).map bitElem) 0 false false
      (ownWrites .hamNoise s)) := by
  rw [exec_hamNoise hin, finish_bits_of_fits (by rwa [noise_bitsOf_length])]

/-- Settles O34: the draws are the model's own, and the output is `noise` of them. -/
theorem noiseFlipsTheDrawnPositions : Obligations.NoiseFlipsTheDrawnPositions := by
  refine fun s => ⟨fun h => exec_of_inputTooLong (by decide) (inputTooLong_eq_true h), exec_hamNoise_of_overflow,
    fun hin hout => ⟨_, drawnPositions s, exec_hamNoise_of_fits hin hout, ?length, drawnPositions_lt s, ?frame,
      fun i hi => ?below, fun i hi => ?above⟩⟩
  case length =>
    rw [drawnPositions_length]
    exact if_congr toNat_eq_zero_iff rfl rfl
  case frame =>
    rw [successFrame_eq, List.length_map, noise_bitsOf_length, BitVec.ofNat_toNat, BitVec.setWidth_eq]
    rfl
  case below =>
    rw [obufAt_successFrame_bits_of_lt (by rwa [noise_bitsOf_length]), bitAt_noise (by rwa [bitsOf_length]),
      bitAt_bitsOf hi, bitOf]
  case above => exact obufAt_successFrame_bits_of_ge (by rwa [noise_bitsOf_length])

/-! ### HAM.ENC, one noise flip, HAM.DEC -/

/-- No command writes the operand registers or the capacities (R76). -/
theorem exec_keeps_operands {i : Instr} {t : State} (h : exec i s = .next t) :
    t.cfgK = s.cfgK ∧ t.arg = s.arg ∧ t.cfg = s.cfg := by
  obtain ⟨hk, harg, -, -, -, -, -, -, hcfg, -⟩ := commandsWriteOnlyTheirSpaces i s t h
  exact ⟨hk, harg, hcfg⟩

/-- HAM.ENC leaves the code of its input as its output (R201). -/
theorem exec_hamEnc_leaves (hin : s.ilen.toNat ≤ s.cfg.ibufCap) (hk : s.cfgK ≠ 0)
    (hout : (codeStream s.cfgK.toNat (bitsOf s)).length ≤ s.cfg.obufCap) (hcap : s.cfg.obufCap < 2 ^ 32) :
    ∃ t, exec .hamEnc s = .next t ∧ outputOf t = (codeStream s.cfgK.toNat (bitsOf s)).map bitElem := by
  refine ⟨_, exec_hamEnc_of_fits hin hk (by rwa [← codeStream_bitsOf_length]), outputOf_successFrame ?_⟩
  rw [List.length_map]
  omega

/-- SYS.MOV hands the bits of an output on as input (R115). -/
theorem exec_sysMov_leaves_bits {bits : List Bool} (hbits : outputOf s = bits.map bitElem)
    (hfits : bits.length ≤ s.cfg.ibufCap) : ∃ t, exec .sysMov s = .next t ∧ bitsOf t = bits := by
  have holen : s.olen.toNat = bits.length := by rw [← outputOf_length, hbits, List.length_map]
  obtain ⟨t, ht, hsyms, -⟩ := exec_sysMov_leaves (s := s) (by rwa [holen])
  refine ⟨t, ht, ?_⟩
  rw [bitsOf, hsyms, hbits, List.map_map]
  exact (List.map_congr_left fun b _ => bitOf_bitElem b).trans (List.map_id _)

/-- HAM.NOISE leaves its input with some draws flipped (R232). -/
theorem exec_hamNoise_leaves (hin : (bitsOf s).length ≤ s.cfg.ibufCap) (hout : (bitsOf s).length ≤ s.cfg.obufCap) :
    ∃ t, exec .hamNoise s = .next t ∧ outputOf t = (noise (bitsOf s) (drawnPositions s)).map bitElem := by
  rw [bitsOf_length] at hin hout
  refine ⟨_, exec_hamNoise_of_fits hin hout, outputOf_successFrame ?_⟩
  rw [List.length_map, noise_bitsOf_length]
  exact s.ilen.isLt

/-- HAM.DEC leaves the decoded data of its input as its output, and the count in `RES` (R203). -/
theorem exec_hamDec_leaves (hin : (bitsOf s).length ≤ s.cfg.ibufCap) (hk : s.cfgK ≠ 0)
    (hlen : (bitsOf s).length % blockLen s.cfgK.toNat = 0)
    (hout : (bitsOf s).length ≤ s.cfg.obufCap) (hcap : s.cfg.obufCap < 2 ^ 32) :
    ∃ t, exec .hamDec s = .next t ∧ statusErr t.status = 0 ∧
      t.res = BitVec.ofNat 32 (decodeStream s.cfgK.toNat (bitsOf s)).info ∧
      outputOf t = (decodeStream s.cfgK.toNat (bitsOf s)).data.map bitElem := by
  have hdata := (decodeStream_data_length_le (bitsOf s) (one_le_of_ne_zero hk)).trans hout
  rw [bitsOf_length] at hin hlen
  refine ⟨_, exec_hamDec_of_fits hin hk hlen (by rwa [← decodeStream_bitsOf_length hk]), statusErr_statusWord ..,
    rfl, outputOf_successFrame ?_⟩
  rw [List.length_map]
  omega

/-- Whatever was drawn, HAM.ENC, SYS.MOV, HAM.NOISE with `ARG = 1` and SYS.MOV leave the code of the input in IBUF with
one wrong bit, or none when there is no input. -/
theorem exec_enc_mov_noise_mov (hk : s.cfgK ≠ 0) (harg : s.arg = 1) (hin : s.ilen.toNat ≤ s.cfg.ibufCap)
    (hout : (codeStream s.cfgK.toNat (bitsOf s)).length ≤ s.cfg.obufCap)
    (hmov : (codeStream s.cfgK.toNat (bitsOf s)).length ≤ s.cfg.ibufCap) (hcap : s.cfg.obufCap < 2 ^ 32) :
    ∃ t₁ t₂ t₃ t₄ flips, exec .hamEnc s = .next t₁ ∧ exec .sysMov t₁ = .next t₂ ∧ exec .hamNoise t₂ = .next t₃ ∧
      exec .sysMov t₃ = .next t₄ ∧ t₄.cfgK = s.cfgK ∧ t₄.cfg = s.cfg ∧
      bitsOf t₄ = damagedStream s.cfgK.toNat (bitsOf s) flips ∧ (∀ u, flips u ≤ blockLen s.cfgK.toNat) ∧
      ((List.range (ceilDiv (bitsOf s).length s.cfgK.toNat)).countP fun u => decide (flips u ≠ 0)) =
        if s.ilen = 0 then 0 else 1 := by
  obtain ⟨t₁, henc, hout₁⟩ := exec_hamEnc_leaves hin hk hout hcap
  obtain ⟨hk₁, harg₁, hcfg₁⟩ := exec_keeps_operands henc
  obtain ⟨t₂, hmov₁, hbits₂⟩ := exec_sysMov_leaves_bits hout₁ (by rwa [hcfg₁])
  obtain ⟨hk₂, harg₂, hcfg₂⟩ := exec_keeps_operands hmov₁
  obtain ⟨t₃, hnoise, hout₃⟩ :=
    exec_hamNoise_leaves (s := t₂) (by rwa [hbits₂, hcfg₂, hcfg₁]) (by rwa [hbits₂, hcfg₂, hcfg₁])
  obtain ⟨hk₃, -, hcfg₃⟩ := exec_keeps_operands hnoise
  obtain ⟨t₄, hmov₃, hbits₄⟩ := exec_sysMov_leaves_bits hout₃ (by rwa [noise_length, hbits₂, hcfg₃, hcfg₂, hcfg₁])
  obtain ⟨hk₄, -, hcfg₄⟩ := exec_keeps_operands hmov₃
  have hdraws : (drawnPositions t₂).length = if (codeStream s.cfgK.toNat (bitsOf s)).length = 0 then 0 else 1 := by
    rw [drawnPositions_length, ← bitsOf_length, hbits₂, harg₂, harg₁, harg]
    rfl
  have hrange : ∀ p ∈ drawnPositions t₂, p < (codeStream s.cfgK.toNat (bitsOf s)).length := by
    rw [← hbits₂, bitsOf_length]
    exact drawnPositions_lt t₂
  have hempty : (bitsOf s).length = 0 ↔ s.ilen = 0 := by rw [bitsOf_length, toNat_eq_zero_iff]
  obtain ⟨flips, hflips, hnoisy, hcount⟩ := noise_codeStream (one_le_of_ne_zero hk) (bitsOf s) hdraws hrange
  exact ⟨t₁, t₂, t₃, t₄, flips, henc, hmov₁, hnoise, hmov₃, by rw [hk₄, hk₃, hk₂, hk₁],
    by rw [hcfg₄, hcfg₃, hcfg₂, hcfg₁], by rw [hbits₄, hbits₂, hnoisy], hflips,
    hcount.trans (if_congr hempty rfl rfl)⟩

/-- Settles O53: HAM.DEC finds at most one wrong bit in a block. -/
theorem oneNoiseFlipIsCorrectedOnTheMachine : Obligations.OneNoiseFlipIsCorrectedOnTheMachine := by
  intro s hk harg hin hout hmov hwf
  have hcap := obufCap_lt_of_wf hwf
  have hk1 := one_le_of_ne_zero hk
  rw [← blockLen, ← codeStream_bitsOf_length] at hout hmov
  obtain ⟨t₁, t₂, t₃, t₄, flips, henc, hmov₁, hnoise, hmov₃, hk₄, hcfg₄, hbits₄, hflips, hcount⟩ :=
    exec_enc_mov_noise_mov hk harg hin hout hmov hcap
  have hlen₄ : (bitsOf t₄).length = (codeStream s.cfgK.toNat (bitsOf s)).length := by
    rw [hbits₄, damagedStream_length, codeStream_length]
  obtain ⟨t₅, hdec, herr, hres, hout₅⟩ := exec_hamDec_leaves (s := t₄) (by rwa [hlen₄, hcfg₄]) (by rwa [hk₄])
    (by rw [hlen₄, hk₄, codeStream_length, Nat.mul_mod_left]) (by rwa [hlen₄, hcfg₄]) (by rwa [hcfg₄])
  rw [hk₄, hbits₄, decodeStream_damagedStream hk1 (bitsOf s) hflips] at hres hout₅
  refine ⟨t₁, t₂, t₃, t₄, t₅, henc, hmov₁, hnoise, hmov₃, hdec, herr, ?_, by rw [hout₅, bitsOf_length]⟩
  rw [hres, hcount]
  split <;> rfl

end Sys2Proof.Proofs.HammingCommands
end

section
/-! Errors are `STATUS` values and never a stop: what a failing command leaves (R250), and that every step from a state
of R43 answers a next state (R240). -/

namespace Sys2Proof.Proofs.Exceptions

open Sys2Proof Sys2Proof.Machine Sys2Proof.Proofs.StatusRules Sys2Proof.Proofs.StoredCodes

/-! ### The failure frame of a command -/

/-- The `STATUS` of each failure a command may end in, its sub-cause included (R241, R242). -/
theorem statusWord_mem_of_failureLegal {e : ErrCode} {sub : BitVec 2} (h : FailureLegal e sub) :
    statusWord e false false sub ∈ ([0x41, 0x81, 0x02, 0x04, 0x05] : List Word) := by
  rcases h with ⟨rfl, rfl | rfl⟩ | ⟨rfl | rfl | rfl, rfl⟩ <;> decide

/-- Settles O37: a command ends in the failure frame of a legal failure or in the success frame, whose `ERR` is 0. -/
theorem failureWritesOnlyTheFrame : Obligations.FailureWritesOnlyTheFrame := by
  intro i s t h herr
  rcases exec_cases h with ⟨e, sub, hlegal, rfl⟩ | ⟨out, n, ed, sr, -, rfl, -⟩
  · exact ⟨rfl, statusWord_mem_of_failureLegal hlegal⟩
  · exact absurd (statusErr_statusWord .ok ed sr 0) herr

/-! ### Commands that answer a next state -/

/-- The outcome is a next state, neither a fault nor a refusal. -/
def Answers (o : Host.Outcome State Fault Refusal) : Prop := ∃ t, o = .next t

namespace Answers

theorem failWith {e : ErrCode} {sub : BitVec 2} {s : State} : Answers (failWith e sub s) := ⟨_, failWith_eq e sub s⟩

theorem ite {c : Prop} [Decidable c] {a b : Host.Outcome State Fault Refusal} (ha : Answers a) (hb : Answers b) :
    Answers (if c then a else b) := by
  split
  · exact ha
  · exact hb

theorem finish {s t : State} {out : List Byte} {n : Nat} {ed sr : Bool} : Answers (finish s t out n ed sr) :=
  .ite .failWith ⟨_, rfl⟩

end Answers

/-- Each command's checks are a chain of `if`s over failure frames and `finish`; HUF.CODES alone has a stop, in states
whose NODE is no tree (log entry 5). -/
theorem exec_answers {s : State} (h : NilOrTree (nodesOf s)) (i : Instr) : Answers (exec i s) := by
  cases i with
  | hufCodes => exact ⟨_, exec_hufCodes h⟩
  | sysNop | hufTree | hamCalcr => exact ⟨_, finish_nil s ..⟩
  | sysMov | packPack | hufFreq | hufEnc | hamNoise => exact .ite .failWith .finish
  | packUnpack | hamEncb | hamDecb | hamDec => exact .ite .failWith (.ite .failWith .finish)
  | hamEnc => exact .ite .failWith (.ite .failWith (.ite .failWith .finish))
  | hufDec =>
    refine .ite .failWith ?_
    split
    · exact .failWith
    · exact .finish

/-! ### Every step answers a next state -/

/-- The host's write to `CMD` starts its command in the state as it is (R110). -/
theorem eq_of_hostAct_eq_command {a : HostAction} {s s' : State} {i : Instr} (h : hostAct a s = .command i s') :
    s' = s := by
  cases a with
  | read | reset => cases h
  | write space index v =>
    simp only [hostAct, cmdWrite] at h
    split at h
    · split at h
      · cases h
        rfl
      · cases h
    · cases h

/-- Settles O58: a step waits, finishes an access, or runs a command, on a NODE that holds nothing or a tree. -/
theorem goodMachineNeverStops : Obligations.GoodMachineNeverStops := by
  intro s hs
  rcases hp : s.pending with _ | ⟨a, rest⟩
  · exact ⟨s, step_of_idle hp⟩
  rw [SafeStep, step_of_pending hp]
  cases hact : hostAct a { s with pending := rest } with
  | idle => exact ⟨s, rfl⟩
  | done s' => exact ⟨s', rfl⟩
  | command i s' =>
    obtain rfl := eq_of_hostAct_eq_command hact
    exact exec_answers (nilOrTree_nodesOf (s := { s with pending := rest }) hs) i

end Sys2Proof.Proofs.Exceptions
end

section
/-! The first commands after reset: `CFG_K` is 0, FREQ and NODE hold nothing, and CWT has no codeword (R281). -/

namespace Sys2Proof.Proofs.FirstCommands

open Sys2Proof Sys2Proof.Machine Sys2Proof.Proofs.ShellCommands Sys2Proof.Proofs.FrequencyTables
  Sys2Proof.Proofs.Decoding Sys2Proof.Proofs.MergeForest Sys2Proof.Proofs.TreeCodes Sys2Proof.Proofs.StoredCodes
  Sys2Proof.Proofs.HuffmanCommands Sys2Proof.Proofs.HammingCommands

/-! ### `CFG_K` is 0 -/

/-- The four commands check `CFG_K` right after the input length (R195, R198, R201, R203). -/
theorem exec_of_cfgK_eq_zero {i : Instr} (hi : i ∈ ([.hamEncb, .hamDecb, .hamEnc, .hamDec] : List Instr)) {s : State}
    (hin : s.ilen.toNat ≤ s.cfg.ibufCap) (hk : s.cfgK = 0) : exec i s = .next (failFrame .configMismatch 0 s) := by
  simp only [List.mem_cons, List.not_mem_nil, or_false] at hi
  rcases hi with rfl | rfl | rfl | rfl
  · exact exec_hamEncb_of_mismatch hin (.inl hk)
  · exact exec_hamDecb_of_mismatch hin (.inl hk)
  · exact exec_hamEnc_of_mismatch hin hk
  · exact exec_hamDec_of_mismatch hin (.inl hk)

/-! ### Empty tables -/

theorem alphabetSize_of_zero {F : Nat → Nat} (hF : ∀ a, F a = 0) : alphabetSize F = 0 := by
  simp [alphabetSize, alphabet, hF]

theorem presentCount_of_nil {T : Nat → List Bool} (hT : ∀ a, T a = []) : presentCount T = 0 := by
  simp [presentCount, hT]

theorem cwtMemOf_of_nil {T : Nat → List Bool} (hT : ∀ a, T a = []) : cwtMemOf T = [] := by
  have hentry : ∀ a, cwEntryOf (T a) = cwEmpty := fun a => by
    rw [hT]
    rfl
  simp [cwtMemOf, memTable, hentry]

/-- An absent symbol is never emitted, so a table without codewords splits nothing off the input, and its leftover
begins no codeword. -/
theorem decodeBits_of_nil {T : Nat → List Bool} (hT : ∀ a, T a = []) {bits : List Bool} (hbits : bits ≠ []) :
    decodeBits T bits = .error subDeadEnd := by
  cases h : decodeBits T bits with
  | ok y =>
    obtain ⟨hsplit, hemit⟩ := decodeBits_ok h
    have hy : y = [] := List.eq_nil_iff_forall_not_mem.mpr fun e he => (hemit e he).1 (hT _)
    rw [hy, serialize_nil] at hsplit
    exact absurd hsplit hbits
  | error sub =>
    obtain ⟨_, acc, _, _, _, _, rfl⟩ := decodeBits_error_splits h
    rw [leftoverCause_eq_deadEnd fun a _ hne => absurd (hT a) hne]
    rfl

/-! ### The Huffman commands on the reset state -/

section

variable (c : Config)

/-- The empty success frame is what reset leaves in `STATUS`, `RES` and `OLEN` already. -/
theorem successFrame_nil_resetWith : successFrame [] 0 false false (State.resetWith c) = State.resetWith c :=
  successFrame_nil 0 _

theorem exec_hufDec_resetWith : exec .hufDec (State.resetWith c) = .next (State.resetWith c) := by
  rw [exec_hufDec_of_ok (y := []) (Nat.zero_le _) rfl, finish_nil, successFrame_nil_resetWith]

theorem exec_hufTree_resetWith : exec .hufTree (State.resetWith c) = .next (State.resetWith c) := by
  have hsize : alphabetSize (freqTableOf (State.resetWith c)) = 0 := alphabetSize_of_zero fun _ => rfl
  rw [exec_hufTree, treeOf_of_alphabetSize_eq_zero hsize, hsize]
  exact congrArg _ (successFrame_nil_resetWith c)

theorem exec_hufCodes_resetWith : exec .hufCodes (State.resetWith c) = .next (State.resetWith c) := by
  have hnodes : nodesOf (State.resetWith c) = [] := nodesOf_eq_nil rfl
  rw [exec_hufCodes (.inl hnodes), hnodes, presentCount_of_nil codesOf_nil, storeCodes, cwtMemOf_of_nil codesOf_nil]
  exact congrArg _ (successFrame_nil_resetWith c)

end

/-- With nothing in CWT every input of at least one bit is a dead end (R155, R156). -/
theorem exec_hufDec_of_empty_cwt {s : State} (hcwt : s.cwt = []) (hpos : 1 ≤ s.ilen.toNat)
    (hin : s.ilen.toNat ≤ s.cfg.ibufCap) : exec .hufDec s = .next (failFrame .unknownSymbol subDeadEnd s) := by
  have hT : ∀ a, codeTableOf s a = [] := fun a => by
    rw [codeTableOf, cwtAt, hcwt]
    rfl
  have hbits : bitsOf s ≠ [] := List.ne_nil_of_length_pos (by rwa [bitsOf_length])
  exact exec_hufDec_of_error hin (decodeBits_of_nil hT hbits)

/-- The capacity reset has (log entry 2) fits the 32 bits of `ILEN`. -/
theorem toNat_ofNat_of_le_ibufCap {n : Nat} (h : n ≤ State.reset.cfg.ibufCap) : (BitVec.ofNat 32 n).toNat = n :=
  Nat.mod_eq_of_lt (h.trans_lt (by decide))

/-- Settles O8: the reset state has `CFG_K` 0 and empty memories, and a new IBUF and `ILEN` leave them so. -/
theorem firstCommandsAfterReset : Obligations.FirstCommandsAfterReset := by
  refine ⟨fun i hi n hn => ?hamming, fun i hi => ?empty, fun m n hpos hn => ?deadEnd⟩
  case hamming => exact exec_of_cfgK_eq_zero hi ((toNat_ofNat_of_le_ibufCap hn).trans_le hn) rfl
  case empty =>
    simp only [List.mem_cons, List.not_mem_nil, or_false] at hi
    rcases hi with rfl | rfl | rfl
    · exact exec_hufDec_resetWith _
    · exact exec_hufTree_resetWith _
    · exact exec_hufCodes_resetWith _
  case deadEnd =>
    have hilen := toNat_ofNat_of_le_ibufCap hn
    exact exec_hufDec_of_empty_cwt rfl (hpos.trans_eq hilen.symm) (hilen.trans_le hn)

end Sys2Proof.Proofs.FirstCommands
end
